-- ==== Sys2Proof/Word.lean ====
section
/-! DEFINITION. The words of the block: 32-bit registers and 8-bit bytes (spec/10_state.md, R62). -/

namespace Sys2Proof

/-- A register or command word: "Every register is 32 bits wide" (10_state.md). Bit 0 is the least significant (R7). -/
abbrev Word := BitVec 32

/-- One byte of `BUF`; wire bit [7] is its most significant bit (R7). -/
abbrev Byte := BitVec 8

end Sys2Proof
end

