-- ==== Sys2Proof/Syntax.lean ====
section
/-! DEFINITION. The commands: one constructor per row of spec/opcode_table.json (R81). -/

namespace Sys2Proof

/-- The thirteen commands of R81. Only `BF_GET` and `BF_PUT` have operands inside the command word (R83):
the field width `W` and the region-relative flag `R`. -/
inductive Instr where
  /-- `NOP`, opcode 0x00 (R233). -/
  | nop
  /-- `HDR_RD`, opcode 0x01 (R144). -/
  | hdrRd
  /-- `HDR_LEN`, opcode 0x02 (R141). -/
  | hdrLen
  /-- `HDR_WR`, opcode 0x03 (R145). -/
  | hdrWr
  /-- `HDR_WRP`, opcode 0x04 (R146). -/
  | hdrWrp
  /-- `STS_INIT`, opcode 0x10 (R172). -/
  | stsInit
  /-- `STS_RST`, opcode 0x11 (R173). -/
  | stsRst
  /-- `STS_PUSH`, opcode 0x12 (R174). -/
  | stsPush
  /-- `STS_REFRESH`, opcode 0x13 (R175). -/
  | stsRefresh
  /-- `STS_DEC`, opcode 0x14 (R190). -/
  | stsDec
  /-- `STS_ENC`, opcode 0x15 (R200). -/
  | stsEnc
  /-- `BF_GET`, opcode 0x20, with W and R (R123). -/
  | bfGet (width : Nat) (rel : Bool)
  /-- `BF_PUT`, opcode 0x21, with W and R (R124). -/
  | bfPut (width : Nat) (rel : Bool)
deriving DecidableEq, Repr

end Sys2Proof
end

