-- ==== Sys2Proof/WellFormed.lean ====
section
/-! DEFINITION. Which commands have a command word: `W` is an unsigned 6-bit field (R80, R83). -/

namespace Sys2Proof

/-- The operands fit their fields. `W` = 0 and 33..63 ARE encodings (the command then raises `E_ARG`, R83), so they are
well formed; 64 and above are not. -/
def Instr.wellFormed : Instr → Bool
  | .bfGet width _ => width < 64
  | .bfPut width _ => width < 64
  | .nop | .hdrRd | .hdrLen | .hdrWr | .hdrWrp => true
  | .stsInit | .stsRst | .stsPush | .stsRefresh | .stsDec | .stsEnc => true

end Sys2Proof
end

