-- ==== Sys2Proof/Decode.lean ====
section
/-! DEFINITION. The command word (30_encoding.md R80-R83): decoder, encoder, and the host's view of the decoder. -/

namespace Sys2Proof

/-- Why a command word is illegal (R82). The engine completes it with `E_ILLEGAL` (R263). -/
inductive IllegalWord where
  /-- `c[7:0]` is no opcode of R81. -/
  | unknownOpcode (op : Byte)
  /-- A bit that R82 wants 0 for this opcode is 1. -/
  | reservedBits (op : Byte)
deriving DecidableEq, Repr

/-- What the decoder answers: a command, or the name of what makes the word illegal. -/
inductive Decoded where
  | ok (i : Instr)
  | illegal (why : IllegalWord)
deriving DecidableEq, Repr

/-- OPCODE, bits [7:0] (R80). -/
def opcodeField (c : Word) : Byte := c.extractLsb' 0 8

/-- W, bits [13:8]: an unsigned 6-bit field width (R83). -/
def widthField (c : Word) : Nat := (c.extractLsb' 8 6).toNat

/-- R, bit [16] (R83). -/
def relField (c : Word) : Bool := c.getLsbD 16

/-- A command without operands: legal exactly when `c[31:8] = 0` (R82). -/
def decodePlain (c : Word) (i : Instr) : Decoded :=
  if c.extractLsb' 8 24 = 0 then .ok i else .illegal (.reservedBits (opcodeField c))

/-- A bit-field command: legal exactly when `c[15:14] = 0` and `c[31:17] = 0`; W and R are free (R82). -/
def decodeField (c : Word) (mk : Nat → Bool → Instr) : Decoded :=
  if c.extractLsb' 14 2 = 0 ∧ c.extractLsb' 17 15 = 0 then .ok (mk (widthField c) (relField c))
  else .illegal (.reservedBits (opcodeField c))

/-- The opcode map of R81 with the legality of R82. A command is always one whole 32-bit word (R80), so the decoder
reads a word, and there is no byte order to choose (R64; log entry 17). -/
def decode (c : Word) : Decoded :=
  match opcodeField c with
  | 0x00#8 => decodePlain c .nop
  | 0x01#8 => decodePlain c .hdrRd
  | 0x02#8 => decodePlain c .hdrLen
  | 0x03#8 => decodePlain c .hdrWr
  | 0x04#8 => decodePlain c .hdrWrp
  | 0x10#8 => decodePlain c .stsInit
  | 0x11#8 => decodePlain c .stsRst
  | 0x12#8 => decodePlain c .stsPush
  | 0x13#8 => decodePlain c .stsRefresh
  | 0x14#8 => decodePlain c .stsDec
  | 0x15#8 => decodePlain c .stsEnc
  | 0x20#8 => decodeField c .bfGet
  | 0x21#8 => decodeField c .bfPut
  | op => .illegal (.unknownOpcode op)

/-- The word of a bit-field command: `[31:17] = 0`, R, `[15:14] = 0`, W, OPCODE (R80). -/
def encodeField (op : Byte) (width : Nat) (rel : Bool) : Word :=
  0#15 ++ BitVec.ofBool rel ++ 0#2 ++ BitVec.ofNat 6 width ++ op

/-- The command word of a command (R80, R81, R84). -/
def encode : Instr → Word
  | .nop => 0x00000000
  | .hdrRd => 0x00000001
  | .hdrLen => 0x00000002
  | .hdrWr => 0x00000003
  | .hdrWrp => 0x00000004
  | .stsInit => 0x00000010
  | .stsRst => 0x00000011
  | .stsPush => 0x00000012
  | .stsRefresh => 0x00000013
  | .stsDec => 0x00000014
  | .stsEnc => 0x00000015
  | .bfGet width rel => encodeField 0x20 width rel
  | .bfPut width rel => encodeField 0x21 width rel

/-- The 32-bit command word that the low `nbits` bits of `w` stand for; every bit above them is 0. -/
def tableWord (nbits w : Nat) : Word := BitVec.ofNat 32 (w % 2 ^ nbits)

/-- The command the decoder reads from an opcode-table word; `none` where the word is illegal. -/
def decodeTableWord (nbits w : Nat) : Option Instr :=
  match decode (tableWord nbits w) with
  | .ok i => some i
  | .illegal _ => none

end Sys2Proof
end

