-- ==== Sys2Proof/Config.lean ====
section
/-! DEFINITION. What an implementation fixes (R6) and the values the spec leaves free (R42, R66, R300). -/

namespace Sys2Proof

/-- The implementation parameters of 00_scope.md R6. State carries them, and no step changes them (log entry 2). -/
structure Params where
  /-- `BUF_SIZE`: size in bytes of the byte buffer. -/
  bufSize : Nat
  /-- `NACK_MAX`: capacity of the NACK table, in records. -/
  nackMax : Nat
  /-- `BASE`: base address of the register block on the host bus. -/
  base : Nat
deriving DecidableEq, Repr

/-- The constraints R6 puts on the three parameters. -/
abbrev Params.Valid (p : Params) : Prop :=
  8 ≤ p.bufSize ∧ p.bufSize ≤ 65536 ∧ 1 ≤ p.nackMax ∧ p.nackMax ≤ 3840 ∧ p.base % 0x20000 = 0

/-- The parameters `State.reset` carries: those the spec's test vectors assume (95_test_vectors.md), at base 0.
DESIGN CHOICE, unsafe if a claim leans on them (log entry 2). -/
def Config.defaultParams : Params := { bufSize := 64, nackMax := 8, base := 0 }

/-- What byte `a` of `BUF` holds after the reset with draw number `n`: unspecified (R42, R300), a free value (log entry 3). -/
opaque Config.resetByte : Nat → Nat → Byte

/-- What draw `n` gives for a 32-bit read that R66 leaves unspecified: a free value (log entry 4). -/
opaque Config.busyWord : Nat → Word

/-- What draw `n` gives for an 8-bit read that R66 leaves unspecified: a free value (log entry 4). -/
opaque Config.busyByte : Nat → Byte

end Sys2Proof
end

