-- ==== Sys2Proof/Machine/State.lean ====
section
/-! DEFINITION. Everything the spec gives the machine (10_state.md), and the model's own three fields (`inputs`, `response`,
`freeCtr`). A register bit that the tables mark `-` is not stored: it reads 0 and ignores writes (R44; log entry 14). -/

namespace Sys2Proof.Machine

/-- The two supported sequence-number widths (R5). -/
inductive SnWidth where
  /-- 12-bit, encoded 0. -/
  | w12
  /-- 18-bit, encoded 1. -/
  | w18
deriving DecidableEq, Repr

/-- The error codes of R260, by name; `ErrCode.code` numbers them. Codes 10-15 are never produced. -/
inductive ErrCode where
  /-- `E_OK` (0): the command finished. -/
  | ok
  /-- `E_CPT` (1): CPT field not 000. -/
  | cpt
  /-- `E_RESERVED` (2): a reserved wire bit is 1. -/
  | reserved
  /-- `E_TRUNCATED` (3): a read needs a byte at or beyond the limit. -/
  | truncated
  /-- `E_SN_WIDTH` (4): `CFG.SN_SIZE` is 2 or 3. -/
  | snWidth
  /-- `E_CAPACITY` (5): a write needs a byte outside its limits. -/
  | capacity
  /-- `E_REGION` (6): the region registers are inconsistent. -/
  | region
  /-- `E_NACK_FULL` (7): the NACK table is full. -/
  | nackFull
  /-- `E_ILLEGAL` (8): the command word is illegal. -/
  | illegal
  /-- `E_ARG` (9): W = 0 or W > 32. -/
  | arg
deriving DecidableEq, Repr

/-- One record of the NACK table (R40). -/
structure NackRec where
  sn : Word
  hasSo : Bool
  soStart : BitVec 16
  soEnd : BitVec 16
  hasRange : Bool
  range : Byte
deriving DecidableEq, Repr

/-- The Status-PDU container (10_state.md section 4). Its NACK list holds the records `0 .. N-1`; `CTR_NNACK` is its
length (R35, R40; log entry 9). -/
structure Container where
  /-- `CTR_INFO.CTR_SN_SIZE` (R32). -/
  width : SnWidth
  /-- `CTR_INFO.FAILED` (R32). -/
  failed : Bool
  /-- `CTR_CPT` [2:0] (R33). -/
  cpt : BitVec 3
  /-- `ACK_SN` (R34). -/
  ackSn : Word
  /-- `NACK[0 .. N-1]`, in insertion order (R40). -/
  nacks : List NackRec
  /-- `CTR_PSIZE`, the cached packed size (R36). -/
  psize : Word
deriving DecidableEq, Repr

/-- The data-PDU header registers `HDR_CTRL`, `HDR_SN`, `HDR_SO` (R29-R31). -/
structure HeaderRegs where
  /-- `HDR_CTRL.DC`, bit [7]. -/
  dc : Bool
  /-- `HDR_CTRL.P`, bit [6]. -/
  p : Bool
  /-- `HDR_CTRL.SI`, bits [5:4]. -/
  si : BitVec 2
  /-- `HDR_SN`. -/
  sn : Word
  /-- `HDR_SO` [15:0]. -/
  so : BitVec 16
deriving DecidableEq, Repr

/-- The staging registers of `STS_PUSH`: `NK_SN`, `NK_CTRL`, `NK_SO` (R37-R39). -/
structure Staging where
  sn : Word
  hasSo : Bool
  hasRange : Bool
  range : Byte
  soStart : BitVec 16
  soEnd : BitVec 16
deriving DecidableEq, Repr

/-- One host access on the bus (R62, R63). `width` is the access size in bits, `addr` the bus address; a write of 8 bits
carries its byte in the low bits of `data`. -/
inductive Access where
  | read (width addr : Nat)
  | write (width addr : Nat) (data : Word)
deriving DecidableEq, Repr

/-- Who moves next (R13, R300; log entries 1 and 12). -/
inductive Event where
  /-- The host issues one access. -/
  | access (a : Access)
  /-- The engine gets its turn. -/
  | engine
  /-- The hardware reset input is asserted. -/
  | reset
deriving DecidableEq, Repr

/-- What the bus answered to the host's last access (log entries 6, 7, 8). -/
inductive Response where
  /-- No access since reset. -/
  | idle
  /-- A write was accepted on the bus (performed, ignored or dropped). -/
  | accepted
  /-- A 32-bit read returned this word. -/
  | word (v : Word)
  /-- An 8-bit read returned this byte. -/
  | byte (v : Byte)
  /-- The access was refused with a bus error (R63). -/
  | busError
  /-- The address lies outside the block's 0x20000 bytes, so the access is not one of this block's. -/
  | notSelected
deriving DecidableEq, Repr

/-- The whole machine. -/
structure State where
  /-- `BUF_SIZE`, `NACK_MAX`, `BASE` (R6): constants of the implementation. -/
  params : Params
  /-- `BUF` (R42): one (address, byte) pair for each address below `BUF_SIZE`, addresses rising. -/
  buf : List Host.Cell
  /-- `CMD`: the last accepted command word (R22). -/
  cmd : Word
  /-- `STATUS.BUSY` (R23). -/
  busy : Bool
  /-- `STATUS.DONE` (R23). -/
  done : Bool
  /-- `STATUS.LOST` (R23). -/
  lost : Bool
  /-- `STATUS.ECODE` (R23, R260). -/
  ecode : ErrCode
  /-- `RESULT` (R24). -/
  result : Word
  /-- `CFG.SN_SIZE` (R25): 2 and 3 are stored but unsupported. -/
  snSize : BitVec 2
  /-- `CFG.SO_LEGACY` (R25). -/
  soLegacy : Bool
  /-- `CFG.IRQ_EN` (R25). -/
  irqEn : Bool
  /-- `RGN_START` (R26). -/
  rgnStart : Word
  /-- `RGN_END` (R26). -/
  rgnEnd : Word
  /-- `ADDR` (R27). -/
  addr : Word
  /-- `BF_DATA` (R28). -/
  bfData : Word
  /-- `HDR_CTRL`, `HDR_SN`, `HDR_SO` (R29-R31). -/
  hdr : HeaderRegs
  /-- The Status-PDU container (R32-R36, R40). -/
  ctr : Container
  /-- `NK_SN`, `NK_CTRL`, `NK_SO` (R37-R39). -/
  nk : Staging
  /-- The model's own: the events still to come (log entry 1). -/
  inputs : List Event
  /-- The model's own: the bus's answer to the host's last access (log entry 6). -/
  response : Response
  /-- The model's own: how many free values have been drawn (log entry 5). -/
  freeCtr : Nat
deriving DecidableEq, Repr

/-- Why the machine stops. Both are the model's own and safe: the spec says neither happens, and no state with the
invariant of Safety.lean reaches one. -/
inductive Fault where
  /-- A command accessed a byte that `BUF` does not have. Raised by the byte accesses of the engine and of the BUF window;
  R10 says "A call with `a >= BUF_SIZE` never happens". Safe (log entry 10). -/
  | bufOutOfRange
  /-- The bound of the `STS_DEC` loop ran out. Raised by `STS_DEC` only; R193 says the loop runs at most `L div 2` times.
  Safe (log entry 11). -/
  | loopBound
deriving DecidableEq, Repr

/-- Why the model gives a command no meaning. -/
inductive Refusal where
  /-- The command's meaning is not written yet. Raised by `exec`'s arm of that command; safe. No arm raises it now. -/
  | notModelled (mnemonic : String)
deriving DecidableEq, Repr

/-- The contents of `BUF` after the reset with draw number `n`: every byte a free value (R42, R300; log entry 3). -/
def freshBuf (bufSize n : Nat) : List Host.Cell :=
  (List.range bufSize).map fun a => (a, Config.resetByte n a)

/-- The container right after construction with width `w` (R172, R301). -/
def Container.fresh (w : SnWidth) : Container :=
  { width := w, failed := false, cpt := 0, ackSn := 0xFFFFFFFF, nacks := [], psize := 3 }

/-- Reset (R300, R301): every register at the value of 10_state.md section 2, the engine idle, `BUF` drawn freely with draw
`n`. `p` and the events still to come are not the block's registers and stay. -/
def State.resetWith (p : Params) (n : Nat) (rest : List Event) : State where
  params := p
  buf := freshBuf p.bufSize n
  cmd := 0
  busy := false
  done := false
  lost := false
  ecode := .ok
  result := 0
  snSize := 0
  soLegacy := false
  irqEn := false
  rgnStart := 0
  rgnEnd := 0
  addr := 0
  bfData := 0
  hdr := { dc := false, p := false, si := 0, sn := 0, so := 0 }
  ctr := Container.fresh .w12
  nk := { sn := 0, hasSo := false, hasRange := false, range := 0, soStart := 0, soEnd := 0 }
  inputs := rest
  response := .idle
  freeCtr := n + 1

/-- The machine right after the first reset, with no event to come. -/
def State.reset : State := State.resetWith Config.defaultParams 0 []

end Sys2Proof.Machine
end

