-- ==== Sys2Proof/Machine/Flags.lean ====
section
/-! DEFINITION. The block's flags (R46): `STATUS` and its error codes, start and completion of a command, the sticky bits,
the interrupt output. -/

namespace Sys2Proof.Machine

/-- The error codes' numbers, `STATUS` bits [7:4] (R260). -/
def ErrCode.code : ErrCode → BitVec 4
  | .ok => 0
  | .cpt => 1
  | .reserved => 2
  | .truncated => 3
  | .snWidth => 4
  | .capacity => 5
  | .region => 6
  | .nackFull => 7
  | .illegal => 8
  | .arg => 9

/-- `STATUS` as the host reads it (R23): ECODE [7:4], LOST [2], DONE [1], BUSY [0]; every other bit 0. -/
def State.statusWord (s : State) : Word :=
  0#24 ++ s.ecode.code ++ 0#1 ++ BitVec.ofBool s.lost ++ BitVec.ofBool s.done ++ BitVec.ofBool s.busy

/-- A host write to `STATUS` (R23, R65): each 1 in bits 1 and 2 clears the matching sticky bit; nothing else has effect. -/
def State.clearSticky (s : State) (v : Word) : State :=
  { s with done := s.done && !v.getLsbD 1, lost := s.lost && !v.getLsbD 2 }

/-- A host write dropped because `BUSY = 1` (R66): only `STATUS.LOST` changes. -/
def State.dropWrite (s : State) : State := { s with lost := true }

/-- Command start (R230): the word is latched, DONE cleared, BUSY set. -/
def State.startCommand (s : State) (c : Word) : State :=
  { s with cmd := c, done := false, busy := true }

/-- Command completion (R232): RESULT and ECODE written, BUSY cleared, DONE set. -/
def State.complete (s : State) (e : ErrCode) (v : Word) : State :=
  { s with result := v, ecode := e, busy := false, done := true }

/-- The interrupt output (R268): level-sensitive, active high. -/
def State.irq (s : State) : Bool := s.done && s.irqEn

end Sys2Proof.Machine
end

