-- ==== Sys2Proof/Machine/Ops.lean ====
section
/-! DEFINITION. The shared operations: how a command ends (R10, R232), `BUF` (R10, R42), the bit-field primitives (R120, R121),
the byte region (R11, R61), and the container's append (R170, R171). -/

namespace Sys2Proof.Machine

/-- What a command, or one step, answers. -/
abbrev Result := Host.Outcome State Fault Refusal

/-! ### Updates by name -/

/-- `s` with another `BUF`. -/
def State.withBuf (s : State) (m : List Host.Cell) : State := { s with buf := m }

/-- `s` with another container. -/
def State.withCtr (s : State) (c : Container) : State := { s with ctr := c }

/-- `s` with other header registers. -/
def State.withHdr (s : State) (h : HeaderRegs) : State := { s with hdr := h }

/-- `s` with another region. -/
def State.withRegion (s : State) (lo hi : Word) : State := { s with rgnStart := lo, rgnEnd := hi }

/-- `s` with another script of events to come. -/
def State.withInputs (s : State) (rest : List Event) : State := { s with inputs := rest }

/-- `s` with the bus's answer to the host. -/
def State.withResponse (s : State) (r : Response) : State := { s with response := r }

/-- `s` with one more free value drawn. -/
def State.drawn (s : State) : State := { s with freeCtr := s.freeCtr + 1 }

/-! ### How a command ends. The block has no trap (R265): an error is recorded at completion. -/

/-- `finish(v)` (R10, R232). -/
def finish (v : Word) (s : State) : Result := .next (s.complete .ok v)

/-- `raise E_X` (R10, R232): the error is recorded and RESULT is 0; nothing transfers control (R265). -/
def raise (e : ErrCode) (s : State) : Result := .next (s.complete e 0)

/-- Go on with what an access to `BUF` gave; an access outside `BUF` is the fault that R10 says never happens. -/
def onBuf {α : Type} (x : Option α) (k : α → Result) : Result :=
  match x with
  | some v => k v
  | none => .fault .bufOutOfRange

/-! ### `BUF` -/

/-- The canonical form of `BUF`: exactly the addresses below `BUF_SIZE`, rising. An address that is not listed has no byte. -/
abbrev Memory.wf (size : Nat) (m : List Host.Cell) : Prop := m.map Prod.fst = List.range size

/-- `MemRead(a, 1)` (R10). -/
def memRead (m : List Host.Cell) (a : Nat) : Option Byte :=
  match m with
  | [] => none
  | (k, v) :: t => if k = a then some v else memRead t a

/-- `MemWrite(a, 1, v)` (R10). -/
def memWrite (m : List Host.Cell) (a : Nat) (v : Byte) : Option (List Host.Cell) :=
  match m with
  | [] => none
  | (k, w) :: t => if k = a then some ((k, v) :: t) else (memWrite t a v).map ((k, w) :: ·)

/-- `MemWrite(a + j, 1, bytes[j])` for each j, in ascending address order (R68, R145). -/
def writeBytes (m : List Host.Cell) (a : Nat) (bytes : List Byte) : Option (List Host.Cell) :=
  match bytes with
  | [] => some m
  | b :: t =>
    match memWrite m a b with
    | some m' => writeBytes m' (a + 1) t
    | none => none

/-! ### The bit-field primitives -/

/-- Bit `7 - (q mod 8)` of a byte: the bit at wire position `q` (R8). -/
def bitAt (b : Byte) (q : Nat) : Bool := b.getLsbD (7 - q % 8)

/-- A byte with the bit at wire position `q` set to `x`, the other bits kept (R8, R121). -/
def setBitAt (b : Byte) (q : Nat) (x : Bool) : Byte :=
  let one : Byte := 1#8 <<< (7 - q % 8)
  if x then b ||| one else b &&& ~~~one

/-- The loop of `GetBits` (R120), `n` positions still to read from `q`, `v` read so far. -/
def getBitsLoop (m : List Host.Cell) (a0 : Nat) : (q n v : Nat) → Option Nat
  | _, 0, v => some v
  | q, n + 1, v =>
    match memRead m (a0 + q / 8) with
    | some b => getBitsLoop m a0 (q + 1) n (2 * v + (bitAt b q).toNat)
    | none => none

/-- `GetBits(a0, p, n)` (R120). -/
def getBits (m : List Host.Cell) (a0 p n : Nat) : Option Nat := getBitsLoop m a0 p n 0

/-- `PutBits(a0, q, n, v)` (R121): the field's most significant bit goes to the first position. -/
def putBits (m : List Host.Cell) (a0 : Nat) : (q n : Nat) → Word → Option (List Host.Cell)
  | _, 0, _ => some m
  | q, n + 1, v =>
    match memRead m (a0 + q / 8) with
    | some b =>
      match memWrite m (a0 + q / 8) (setBitAt b q (v.getLsbD n)) with
      | some m' => putBits m' a0 (q + 1) n v
      | none => none
    | none => none

/-! ### The byte region -/

/-- `RegionOK` (R61). -/
abbrev State.regionOk (s : State) : Prop :=
  s.rgnStart.toNat ≤ s.rgnEnd.toNat ∧ s.rgnEnd.toNat ≤ s.params.bufSize

/-- `L = RGN_END - RGN_START` (R11); used where `regionOk` holds. -/
def State.regionLen (s : State) : Nat := s.rgnEnd.toNat - s.rgnStart.toNat

/-- `GetBits(RGN_START, p, n)`. -/
def State.regionBits (s : State) (p n : Nat) : Option Nat := getBits s.buf s.rgnStart.toNat p n

/-! ### The container -/

/-- The bytes of a NACK's mandatory part: SN and extension flags (R94, R95, R170). -/
def SnWidth.nackBytes : SnWidth → Nat
  | .w12 => 2
  | .w18 => 3

/-- `Contrib(rec, Wc)` (R170). -/
def contrib (w : SnWidth) (r : NackRec) : Nat :=
  w.nackBytes + (if r.hasSo then 4 else 0) + (if r.hasRange then 1 else 0)

/-- The packed size of a record list: 3 bytes and every record's contribution (R45, R175). -/
def packedSize (w : SnWidth) : List NackRec → Nat
  | [] => 3
  | r :: t => contrib w r + packedSize w t

/-- A container with one more record, and the record's contribution added to its packed size (R171). -/
def Container.push (c : Container) (r : NackRec) : Container :=
  { c with nacks := c.nacks ++ [r], psize := c.psize + BitVec.ofNat 32 (contrib c.width r) }

/-- `Append(rec)` (R171): `none` is `E_NACK_FULL`, and then nothing changes. -/
def append (s : State) (r : NackRec) : Option State :=
  if s.ctr.nacks.length = s.params.nackMax then none else some (s.withCtr (s.ctr.push r))

end Sys2Proof.Machine
end

