-- ==== Sys2Proof/Machine/Operands.lean ====
section
/-! DEFINITION. What a command takes from the registers: widths (R140), the header image (R142, R143), the bit-field window
(R123, R124), the staged record (R174), and the Status PDU's bytes (R201, R202). -/

namespace Sys2Proof.Machine

/-- `Width(s)` (R140): 0 is 12-bit, 1 is 18-bit, 2 and 3 are unsupported. -/
def widthOf (s : BitVec 2) : Option SnWidth :=
  if s = 0 then some .w12 else if s = 1 then some .w18 else none

/-- The encoding of a width in `CFG.SN_SIZE` and `CTR_INFO.CTR_SN_SIZE` (R25, R32). -/
def SnWidth.code : SnWidth → BitVec 2
  | .w12 => 0
  | .w18 => 1

/-- `W` in bits (R5). -/
def SnWidth.bits : SnWidth → Nat
  | .w12 => 12
  | .w18 => 18

/-- `SnBytes(W)` (R140). -/
def SnWidth.snBytes : SnWidth → Nat
  | .w12 => 2
  | .w18 => 3

/-- The bit position of the SN in a data-PDU header (R88, R89). -/
def SnWidth.hdrSnPos : SnWidth → Nat
  | .w12 => 4
  | .w18 => 6

/-- `SoPresent(si)` (R90, R140): last or middle segment. -/
def soPresent (si : BitVec 2) : Bool := si = 2 ∨ si = 3

/-- `HdrLen(si, W)` (R140). -/
def hdrLen (si : BitVec 2) (w : SnWidth) : Nat := w.snBytes + (if soPresent si then 2 else 0)

/-! ### The header image -/

/-- `Base` (R142): the mandatory bytes. D/C is always 1, the 18-bit reserved bits 0, and only the low W bits of `HDR_SN`
are emitted. -/
def hdrBase (h : HeaderRegs) : SnWidth → List Byte
  | .w12 =>
    [ 1#1 ++ BitVec.ofBool h.p ++ h.si ++ h.sn.extractLsb' 8 4,
      h.sn.extractLsb' 0 8 ]
  | .w18 =>
    [ 1#1 ++ BitVec.ofBool h.p ++ h.si ++ 0#2 ++ h.sn.extractLsb' 16 2,
      h.sn.extractLsb' 8 8,
      h.sn.extractLsb' 0 8 ]

/-- A 16-bit field's two bytes, most significant first (R64, R96, R142). -/
def be16 (v : BitVec 16) : List Byte := [v.extractLsb' 8 8, v.extractLsb' 0 8]

/-- `EmitSO` (R143): by SI in the default mode, by value in the legacy mode. -/
def emitSo (s : State) : Bool :=
  if s.soLegacy then s.hdr.so ≠ 0 else soPresent s.hdr.si

/-- `Image` (R143). -/
def hdrImage (s : State) (w : SnWidth) : List Byte :=
  hdrBase s.hdr w ++ (if emitSo s then be16 s.hdr.so else [])

/-! ### The bit-field window -/

/-- `(a0, limit)` of R123 and R124: the whole buffer with R = 0, the region with R = 1; `none` is `E_REGION`. -/
def fieldWindow (s : State) (rel : Bool) : Option (Nat × Nat) :=
  if rel then
    if s.regionOk then some (s.rgnStart.toNat, 8 * s.regionLen) else none
  else some (0, 8 * s.params.bufSize)

/-! ### The container's records -/

/-- The record `STS_PUSH` appends (R174): the fields of an absent sub-field are stored as 0. -/
def stagedRecord (s : State) : NackRec where
  sn := s.nk.sn
  hasSo := s.nk.hasSo
  soStart := if s.nk.hasSo then s.nk.soStart else 0
  soEnd := if s.nk.hasSo then s.nk.soEnd else 0
  hasRange := s.nk.hasRange
  range := if s.nk.hasRange then s.nk.range else 0

/-- The fixed part of a Status PDU (R201): D/C 0, CPT 000, the low W bits of ACK_SN, E1, zeros. -/
def statusFixed (w : SnWidth) (ack : Word) (e1 : Bool) : List Byte :=
  match w with
  | .w12 =>
    [ 0#1 ++ 0#3 ++ ack.extractLsb' 8 4,
      ack.extractLsb' 0 8,
      BitVec.ofBool e1 ++ 0#7 ]
  | .w18 =>
    [ 0#1 ++ 0#3 ++ ack.extractLsb' 14 4,
      ack.extractLsb' 6 8,
      ack.extractLsb' 0 6 ++ BitVec.ofBool e1 ++ 0#1 ]

/-- The mandatory part of a NACK element (R202): the low W bits of the SN, E1', E2, E3, zeros. -/
def nackFixed (w : SnWidth) (r : NackRec) (e1 : Bool) : List Byte :=
  match w with
  | .w12 =>
    [ r.sn.extractLsb' 4 8,
      r.sn.extractLsb' 0 4 ++ BitVec.ofBool e1 ++ BitVec.ofBool r.hasSo ++ BitVec.ofBool r.hasRange ++ 0#1 ]
  | .w18 =>
    [ r.sn.extractLsb' 10 8,
      r.sn.extractLsb' 2 8,
      r.sn.extractLsb' 0 2 ++ BitVec.ofBool e1 ++ BitVec.ofBool r.hasSo ++ BitVec.ofBool r.hasRange ++ 0#3 ]

/-- One NACK element with its optional fields (R96, R202). -/
def nackImage (w : SnWidth) (r : NackRec) (e1 : Bool) : List Byte :=
  nackFixed w r e1
    ++ (if r.hasSo then be16 r.soStart ++ be16 r.soEnd else [])
    ++ (if r.hasRange then [r.range] else [])

/-- The NACK elements in table order; E1' = 1 on every element but the last (R202). -/
def nackImages (w : SnWidth) : List NackRec → List Byte
  | [] => []
  | r :: t => nackImage w r (!t.isEmpty) ++ nackImages w t

/-- The whole Status PDU of an ACK_SN and a record list (R201, R202); E1 = 1 exactly when there is a record. -/
def statusImage (w : SnWidth) (ack : Word) (recs : List NackRec) : List Byte :=
  statusFixed w ack (!recs.isEmpty) ++ nackImages w recs

end Sys2Proof.Machine
end

