-- ==== Sys2Proof/Machine/Container.lean ====
section
/-! DEFINITION. The Status-PDU container commands (42_status_container.md): `STS_INIT`, `STS_RST`, `STS_PUSH`, `STS_REFRESH`. -/

namespace Sys2Proof.Machine

/-- `STS_INIT` (R172): construct with the width in `CFG.SN_SIZE`. -/
def execStsInit (s : State) : Result :=
  match widthOf s.snSize with
  | none => raise .snWidth s
  | some w => finish 0 (s.withCtr (Container.fresh w))

/-- `STS_RST` (R173): the just-constructed state, with the width kept. -/
def execStsRst (s : State) : Result := finish 0 (s.withCtr (Container.fresh s.ctr.width))

/-- `STS_PUSH` (R174): append the staged record; RESULT is the new packed size. -/
def execStsPush (s : State) : Result :=
  match append s (stagedRecord s) with
  | none => raise .nackFull s
  | some t => finish t.ctr.psize t

/-- `STS_REFRESH` (R175): recompute the packed size from the records. -/
def execStsRefresh (s : State) : Result :=
  let size := BitVec.ofNat 32 (packedSize s.ctr.width s.ctr.nacks)
  finish size (s.withCtr { s.ctr with psize := size })

end Sys2Proof.Machine
end

