-- ==== Sys2Proof/Machine/Control.lean ====
section
/-! DEFINITION. The control family (44_control.md): `NOP`. -/

namespace Sys2Proof.Machine

/-- `NOP` (R233): `finish(0)`. -/
def execNop (s : State) : Result := finish 0 s

end Sys2Proof.Machine
end

