-- ==== Sys2Proof/Machine/Field.lean ====
section
/-! DEFINITION. The field codec commands (40_field_codec.md): `BF_GET`, `BF_PUT`. -/

namespace Sys2Proof.Machine

/-- The checks the two commands share (R123, R124, order of R264): W, the region, the limit. `short` is the code of a field
that does not fit; `k` goes on with the window's base. -/
def withField (width : Nat) (rel : Bool) (short : ErrCode) (s : State) (k : Nat → Result) : Result :=
  if width < 1 ∨ 32 < width then raise .arg s
  else
    match fieldWindow s rel with
    | none => raise .region s
    | some (a0, limit) => if limit < s.addr.toNat + width then raise short s else k a0

/-- `BF_GET` (R123): unpack one field into `RESULT`. -/
def execBfGet (width : Nat) (rel : Bool) (s : State) : Result :=
  withField width rel .truncated s fun a0 =>
    onBuf (getBits s.buf a0 s.addr.toNat width) fun v => finish (BitVec.ofNat 32 v) s

/-- `BF_PUT` (R124): pack the low W bits of `BF_DATA` into one field. -/
def execBfPut (width : Nat) (rel : Bool) (s : State) : Result :=
  withField width rel .capacity s fun a0 =>
    onBuf (putBits s.buf a0 s.addr.toNat width s.bfData) fun m => finish 0 (s.withBuf m)

end Sys2Proof.Machine
end

