-- ==== Sys2Proof/Machine/Header.lean ====
section
/-! DEFINITION. The data-PDU header codec (41_header_codec.md): `HDR_LEN`, `HDR_RD`, `HDR_WR`, `HDR_WRP`. -/

namespace Sys2Proof.Machine

/-- Every header command takes its width from `CFG.SN_SIZE` when it starts, and raises `E_SN_WIDTH` on 2 and 3 (R140). -/
def withWidth (s : State) (k : SnWidth → Result) : Result :=
  match widthOf s.snSize with
  | none => raise .snWidth s
  | some w => k w

/-- `HDR_LEN` (R141). -/
def execHdrLen (s : State) : Result :=
  withWidth s fun w => finish (BitVec.ofNat 32 (hdrLen s.hdr.si w)) s

/-- The end of a successful `HDR_RD` (R144): the header registers from byte 0, the SN and the SO, and the bytes consumed. -/
def hdrRdCommit (s : State) (b0 : Byte) (sn so k : Nat) : Result :=
  finish (BitVec.ofNat 32 k) (s.withHdr
    { dc := b0.getLsbD 7
      p := b0.getLsbD 6
      si := b0.extractLsb' 4 2
      sn := BitVec.ofNat 32 sn
      so := BitVec.ofNat 16 so })

/-- `HDR_RD` (R144): the reserved bits of byte 0 (18-bit only) are checked before the SN's other bytes are needed, and the
header registers are written only on success. -/
def execHdrRd (s : State) : Result :=
  withWidth s fun w =>
    if ¬ s.regionOk then raise .region s
    else if s.regionLen < 1 then raise .truncated s
    else onBuf (memRead s.buf s.rgnStart.toNat) fun b0 =>
      if w = .w18 ∧ b0.extractLsb' 2 2 ≠ 0 then raise .reserved s
      else if s.regionLen < w.snBytes then raise .truncated s
      else onBuf (s.regionBits w.hdrSnPos w.bits) fun sn =>
        if soPresent (b0.extractLsb' 4 2) then
          if s.regionLen < w.snBytes + 2 then raise .truncated s
          else onBuf (s.regionBits (8 * w.snBytes) 16) fun so => hdrRdCommit s b0 sn so (w.snBytes + 2)
        else hdrRdCommit s b0 sn 0 w.snBytes

/-- `HDR_WR` (R145): the image at the absolute `BUF` address `ADDR`. -/
def execHdrWr (s : State) : Result :=
  withWidth s fun w =>
    if s.params.bufSize < s.addr.toNat + (hdrImage s w).length then raise .capacity s
    else onBuf (writeBytes s.buf s.addr.toNat (hdrImage s w)) fun m =>
      finish (BitVec.ofNat 32 (hdrLen s.hdr.si w)) (s.withBuf m)

/-- `HDR_WRP` (R146): the image in front of the region, whose start moves down by `HdrLen`. -/
def execHdrWrp (s : State) : Result :=
  withWidth s fun w =>
    if ¬ s.regionOk then raise .region s
    else if s.rgnStart.toNat < hdrLen s.hdr.si w then raise .capacity s
    else
      let start := s.rgnStart.toNat - hdrLen s.hdr.si w
      if s.params.bufSize < start + (hdrImage s w).length then raise .capacity s
      else onBuf (writeBytes s.buf start (hdrImage s w)) fun m =>
        finish (BitVec.ofNat 32 (hdrLen s.hdr.si w))
          ((s.withBuf m).withRegion (BitVec.ofNat 32 start) s.rgnEnd)

end Sys2Proof.Machine
end

