-- ==== Sys2Proof/Machine/StatusCodec.lean ====
section
/-! DEFINITION. The Status-PDU codec (43_status_codec.md): `STS_DEC`, `STS_ENC`. -/

namespace Sys2Proof.Machine

/-- `CTR_INFO.FAILED <- 1` (R190). -/
def Container.fail (c : Container) : Container := { c with failed := true }

/-- `CTR_CPT <- cpt` (R191). -/
def Container.withCpt (c : Container) (cpt : BitVec 3) : Container := { c with cpt := cpt }

/-- `ACK_SN <- ack` (R191). -/
def Container.withAck (c : Container) (ack : Word) : Container := { c with ackSn := ack }

/-- `fail E` (R190): `CTR_INFO.FAILED <- 1`, then `raise E`. What was written before stays written. -/
def decFail (e : ErrCode) (s : State) : Result :=
  raise e (s.withCtr s.ctr.fail)

/-- What reading one NACK element gives: an error, or the record, E1' and the offset after it. -/
inductive Element where
  | bad (e : ErrCode)
  | good (r : NackRec) (more : Bool) (k : Nat)
deriving DecidableEq, Repr

/-- A field that is there only with its flag, and 0 without (R174, R192). -/
def optField (present : Bool) (field : Option Nat) : Option Nat := if present then field else some 0

/-- The optional fields of a NACK (R96, R192): with E2 the SO pair, then with E3 the range; each after its own `need`. `k` is
the offset after the mandatory part. `none` is a read outside `BUF`. -/
def readOptional (s : State) (sn : Word) (more hasSo hasRange : Bool) (k : Nat) : Option Element :=
  if hasSo ∧ s.regionLen < k + 4 then some (.bad .truncated)
  else
    (optField hasSo (s.regionBits (8 * k) 16)).bind fun soStart =>
    (optField hasSo (s.regionBits (8 * k + 16) 16)).bind fun soEnd =>
    let k' := k + (if hasSo then 4 else 0)
    if hasRange ∧ s.regionLen < k' + 1 then some (.bad .truncated)
    else
      (optField hasRange (s.regionBits (8 * k') 8)).bind fun range =>
      some (.good
        { sn := sn, hasSo := hasSo, soStart := BitVec.ofNat 16 soStart, soEnd := BitVec.ofNat 16 soEnd,
          hasRange := hasRange, range := BitVec.ofNat 8 range }
        more (k' + (if hasRange then 1 else 0)))

/-- One NACK element at byte offset `q` of the region (R94, R95, R192): SN at `8q`, then E1', E2, E3 and the reserved bits,
which are checked before the optional bytes are read. -/
def readElement (s : State) (w : SnWidth) (q : Nat) : Option Element :=
  if s.regionLen < q + w.nackBytes then some (.bad .truncated)
  else
    (s.regionBits (8 * q) w.bits).bind fun sn =>
    (s.regionBits (8 * q + w.bits) 1).bind fun e1 =>
    (s.regionBits (8 * q + w.bits + 1) 1).bind fun e2 =>
    (s.regionBits (8 * q + w.bits + 2) 1).bind fun e3 =>
    (s.regionBits (8 * q + w.bits + 3) (8 * w.nackBytes - w.bits - 3)).bind fun rsv =>
    if rsv ≠ 0 then some (.bad .reserved)
    else readOptional s (BitVec.ofNat 32 sn) (e1 = 1) (e2 = 1) (e3 = 1) (q + w.nackBytes)

/-- The NACK loop (R192), at most `fuel` elements, the next one at offset `k`. Each record is appended as soon as all its
bytes are read, and stays when a later element fails. -/
def decLoop : (fuel k : Nat) → State → Result
  | 0, _, _ => .fault .loopBound
  | fuel + 1, k, s =>
    match readElement s s.ctr.width k with
    | none => .fault .bufOutOfRange
    | some (.bad e) => decFail e s
    | some (.good r more k') =>
      match append s r with
      | none => decFail .nackFull s
      | some t => if more then decLoop fuel k' t else finish (BitVec.ofNat 32 k') t

/-- The bytes of the fixed part that ACK_SN needs (R191). -/
def SnWidth.ackBytes : SnWidth → Nat
  | .w12 => 2
  | .w18 => 3

/-- `STS_DEC` (R190-R195): region check, CPT, ACK_SN, the E1 byte's reserved bits, then the NACK loop. Fields are committed as
they are decoded. The loop's bound is the region length (R193). -/
def execStsDec (s : State) : Result :=
  let w := s.ctr.width
  if ¬ s.regionOk then raise .region s
  else if s.regionLen < 1 then decFail .truncated s
  else onBuf (s.regionBits 1 3) fun cpt =>
    let s1 := s.withCtr (s.ctr.withCpt (BitVec.ofNat 3 cpt))
    if cpt ≠ 0 then decFail .cpt s1
    else if s.regionLen < w.ackBytes then decFail .truncated s1
    else onBuf (s.regionBits 4 w.bits) fun ack =>
      let s2 := s.withCtr ((s.ctr.withCpt (BitVec.ofNat 3 cpt)).withAck (BitVec.ofNat 32 ack))
      if s.regionLen < 3 then decFail .truncated s2
      else onBuf (s.regionBits (4 + w.bits) 1) fun e1 =>
        onBuf (s.regionBits (5 + w.bits) (19 - w.bits)) fun rsv =>
          if rsv ≠ 0 then decFail .reserved s2
          else if e1 = 1 then decLoop s.regionLen 3 s2
          else finish 3 s2

/-- `STS_ENC` (R200-R202): the Status PDU at `RGN_START`, and `RGN_END` after it. `CTR_CPT` and `FAILED` are ignored. -/
def execStsEnc (s : State) : Result :=
  if ¬ s.regionOk then raise .region s
  else if s.params.bufSize < s.rgnStart.toNat + s.ctr.psize.toNat then raise .capacity s
  else
    let image := statusImage s.ctr.width s.ctr.ackSn s.ctr.nacks
    onBuf (writeBytes s.buf s.rgnStart.toNat image) fun m =>
      finish (BitVec.ofNat 32 image.length)
        ((s.withBuf m).withRegion s.rgnStart (BitVec.ofNat 32 (s.rgnStart.toNat + image.length)))

end Sys2Proof.Machine
end

