-- ==== Sys2Proof/Machine/Dispatch.lean ====
section
/-! DEFINITION. One arm per command of R81. -/

namespace Sys2Proof.Machine

-- R231: the selected rule's pseudocode, run to its finish or raise in a single transition.
def exec (i : Instr) (s : State) : Host.Outcome State Fault Refusal :=
  match i with
  | .nop => Sys2Proof.Machine.execNop s
  | .hdrRd => Sys2Proof.Machine.execHdrRd s
  | .hdrLen => Sys2Proof.Machine.execHdrLen s
  | .hdrWr => Sys2Proof.Machine.execHdrWr s
  | .hdrWrp => Sys2Proof.Machine.execHdrWrp s
  | .stsInit => Sys2Proof.Machine.execStsInit s
  | .stsRst => Sys2Proof.Machine.execStsRst s
  | .stsPush => Sys2Proof.Machine.execStsPush s
  | .stsRefresh => Sys2Proof.Machine.execStsRefresh s
  | .stsDec => Sys2Proof.Machine.execStsDec s
  | .stsEnc => Sys2Proof.Machine.execStsEnc s
  | .bfGet width rel => Sys2Proof.Machine.execBfGet width rel s
  | .bfPut width rel => Sys2Proof.Machine.execBfPut width rel s

end Sys2Proof.Machine
end

