-- ==== Sys2Proof/Machine/Engine.lean ====
section
/-! DEFINITION. The engine's one step kind (R231) and the loading of a command word. -/

namespace Sys2Proof.Machine

/-- The engine's step while `BUSY = 1` (R231): decode `CMD`, run the command to its completion; an illegal word completes
with `E_ILLEGAL` and changes nothing else (R263). -/
def engineStep (s : State) : Result :=
  match decode s.cmd with
  | .ok i => exec i s
  | .illegal _ => raise .illegal s

/-- The engine's turn: its step is enabled exactly while `BUSY = 1` (R231). -/
def engineTurn (s : State) : Result := if s.busy then engineStep s else .next s

/-- The command word `c` written to `CMD` (R230), with the engine to move next. -/
def State.withCommand (s : State) (c : Word) : State := (s.startCommand c).withInputs []

end Sys2Proof.Machine
end

