-- ==== Sys2Proof/Machine/HostBus.lean ====
section
/-! DEFINITION. The host bus (20_memory.md): which accesses are legal (R63), what each does (R62, R65), and what changes
while the engine is busy (R66). -/

namespace Sys2Proof.Machine

/-- The registers of the map of 10_state.md section 2, less the NACK window and the BUF window. -/
inductive Reg where
  | id | cmd | status | result | cfg | rgnStart | rgnEnd | addr | bfData | hdrCtrl | hdrSn | hdrSo
  | ctrInfo | ctrCpt | ackSn | ctrNnack | ctrPsize | nkSn | nkCtrl | nkSo
deriving DecidableEq, Repr

/-- The offset of a register (10_state.md section 2). -/
def Reg.offset : Reg → Nat
  | .id => 0x0000
  | .cmd => 0x0004
  | .status => 0x0008
  | .result => 0x000C
  | .cfg => 0x0010
  | .rgnStart => 0x0014
  | .rgnEnd => 0x0018
  | .addr => 0x001C
  | .bfData => 0x0020
  | .hdrCtrl => 0x0024
  | .hdrSn => 0x0028
  | .hdrSo => 0x002C
  | .ctrInfo => 0x0040
  | .ctrCpt => 0x0044
  | .ackSn => 0x0048
  | .ctrNnack => 0x004C
  | .ctrPsize => 0x0050
  | .nkSn => 0x0060
  | .nkCtrl => 0x0064
  | .nkSo => 0x0068

/-- Every register, in the order of the map. -/
def Reg.all : List Reg :=
  [.id, .cmd, .status, .result, .cfg, .rgnStart, .rgnEnd, .addr, .bfData, .hdrCtrl, .hdrSn, .hdrSo,
    .ctrInfo, .ctrCpt, .ackSn, .ctrNnack, .ctrPsize, .nkSn, .nkCtrl, .nkSo]

/-- The register map (10_state.md section 2): the register at a byte offset from `BASE`. -/
def regAt (off : Nat) : Option Reg := Reg.all.find? fun r => r.offset = off

/-- What a legal access reaches (R63). -/
inductive Target where
  /-- A register, by an aligned 32-bit access. -/
  | reg (r : Reg)
  /-- Word `word` (0..3) of entry `entry` of the NACK readback window, by an aligned 32-bit access. -/
  | nack (entry word : Nat)
  /-- Byte `a` of `BUF`, by an 8-bit access. -/
  | buf (a : Nat)
deriving DecidableEq, Repr

/-- The legal accesses of R63, by access width in bits and offset from `BASE`; `none` is a bus error. A register's offset is
a multiple of 4, so only the NACK window needs the alignment check. -/
def targetOf (p : Params) (width off : Nat) : Option Target :=
  if width = 32 then
    match regAt off with
    | some r => some (.reg r)
    | none =>
      if off % 4 = 0 ∧ 0x1000 ≤ off ∧ off < 0x1000 + 16 * p.nackMax then
        some (.nack ((off - 0x1000) / 16) ((off - 0x1000) % 16 / 4))
      else none
  else if width = 8 ∧ 0x10000 ≤ off ∧ off < 0x10000 + p.bufSize then some (.buf (off - 0x10000))
  else none

/-- `CFG` as read (R25). -/
def State.cfgWord (s : State) : Word :=
  0#23 ++ BitVec.ofBool s.irqEn ++ 0#3 ++ BitVec.ofBool s.soLegacy ++ 0#2 ++ s.snSize

/-- `HDR_CTRL` as read (R29). -/
def HeaderRegs.ctrlWord (h : HeaderRegs) : Word :=
  0#24 ++ BitVec.ofBool h.dc ++ BitVec.ofBool h.p ++ h.si ++ 0#4

/-- `CTR_INFO` as read (R32). -/
def Container.infoWord (c : Container) : Word :=
  0#23 ++ BitVec.ofBool c.failed ++ 0#6 ++ c.width.code

/-- `NK_CTRL`'s layout (R38), which word +0x4 of a NACK entry shares (R41). -/
def nkCtrlWord (hasSo hasRange : Bool) (range : Byte) : Word :=
  0#16 ++ range ++ 0#6 ++ BitVec.ofBool hasRange ++ BitVec.ofBool hasSo

/-- What an idle block answers to a read of a register (R21-R39). -/
def readReg (s : State) : Reg → Word
  | .id => 0x524C4601
  | .cmd => s.cmd
  | .status => s.statusWord
  | .result => s.result
  | .cfg => s.cfgWord
  | .rgnStart => s.rgnStart
  | .rgnEnd => s.rgnEnd
  | .addr => s.addr
  | .bfData => s.bfData
  | .hdrCtrl => s.hdr.ctrlWord
  | .hdrSn => s.hdr.sn
  | .hdrSo => 0#16 ++ s.hdr.so
  | .ctrInfo => s.ctr.infoWord
  | .ctrCpt => 0#29 ++ s.ctr.cpt
  | .ackSn => s.ctr.ackSn
  | .ctrNnack => BitVec.ofNat 32 s.ctr.nacks.length
  | .ctrPsize => s.ctr.psize
  | .nkSn => s.nk.sn
  | .nkCtrl => nkCtrlWord s.nk.hasSo s.nk.hasRange s.nk.range
  | .nkSo => s.nk.soStart ++ s.nk.soEnd

/-- A word of a NACK record's readback entry (R41). -/
def NackRec.readWord (r : NackRec) (word : Nat) : Word :=
  if word = 0 then r.sn
  else if word = 1 then nkCtrlWord r.hasSo r.hasRange r.range
  else if word = 2 then r.soStart ++ r.soEnd
  else 0

/-- The NACK readback window (R41): entries at or beyond N read 0. -/
def readNack (s : State) (entry word : Nat) : Word :=
  match s.ctr.nacks[entry]? with
  | some r => r.readWord word
  | none => 0

/-- A write to a register of an idle block (R22, R23, R25-R31, R34, R37-R39, R44, R65). -/
def writeReg (s : State) (r : Reg) (v : Word) : State :=
  match r with
  | .cmd => s.startCommand v
  | .status => s.clearSticky v
  | .cfg => { s with snSize := v.extractLsb' 0 2, soLegacy := v.getLsbD 4, irqEn := v.getLsbD 8 }
  | .rgnStart => { s with rgnStart := v }
  | .rgnEnd => { s with rgnEnd := v }
  | .addr => { s with addr := v }
  | .bfData => { s with bfData := v }
  | .hdrCtrl => { s with hdr := { s.hdr with dc := v.getLsbD 7, p := v.getLsbD 6, si := v.extractLsb' 4 2 } }
  | .hdrSn => { s with hdr := { s.hdr with sn := v } }
  | .hdrSo => { s with hdr := { s.hdr with so := v.extractLsb' 0 16 } }
  | .ackSn => { s with ctr := { s.ctr with ackSn := v } }
  | .nkSn => { s with nk := { s.nk with sn := v } }
  | .nkCtrl => { s with nk := { s.nk with
      hasSo := v.getLsbD 0, hasRange := v.getLsbD 1, range := v.extractLsb' 8 8 } }
  | .nkSo => { s with nk := { s.nk with soStart := v.extractLsb' 16 16, soEnd := v.extractLsb' 0 16 } }
  | .id | .result | .ctrInfo | .ctrCpt | .ctrNnack | .ctrPsize => s

/-- The access is answered, and the block is otherwise as in `s`. -/
def respond (r : Response) (s : State) : Result := .next (s.withResponse r)

/-- A read whose value R66 leaves unspecified: the next draw of free values (log entry 4). -/
def readFree (t : Target) (s : State) : Result :=
  match t with
  | .buf _ => respond (.byte (Config.busyByte s.freeCtr)) s.drawn
  | .reg _ | .nack _ _ => respond (.word (Config.busyWord s.freeCtr)) s.drawn

/-- A legal read (R62, R65, R66): no side effect on the block. While busy, only `ID`, `STATUS` and `CMD` are defined. DESIGN
CHOICE, unsafe: the ECODE bits of a `STATUS` read while busy are the register's value (R66), the code of the last completed
command, though R230 calls that value not defined to the host (log entry 20). -/
def busRead (t : Target) (s : State) : Result :=
  if s.busy then
    match t with
    | .reg .id => respond (.word (readReg s .id)) s
    | .reg .status => respond (.word (readReg s .status)) s
    | .reg .cmd => respond (.word (readReg s .cmd)) s
    | _ => readFree t s
  else
    match t with
    | .reg r => respond (.word (readReg s r)) s
    | .nack entry word => respond (.word (readNack s entry word)) s
    | .buf a => onBuf (memRead s.buf a) fun b => respond (.byte b) s

/-- A legal write (R62, R65, R66): while busy, a write to anything but `STATUS` is dropped and sets LOST. The bus accepts it
either way (log entry 8). -/
def busWrite (t : Target) (v : Word) (s : State) : Result :=
  if t = .reg .status then respond .accepted (s.clearSticky v)
  else if s.busy then respond .accepted s.dropWrite
  else
    match t with
    | .reg r => respond .accepted (writeReg s r v)
    | .nack _ _ => respond .accepted s
    | .buf a => onBuf (memWrite s.buf a (v.extractLsb' 0 8)) fun m => respond .accepted (s.withBuf m)

/-- An access's size in bits. -/
def Access.width : Access → Nat
  | .read width _ => width
  | .write width _ _ => width

/-- An access's bus address. -/
def Access.addr : Access → Nat
  | .read _ addr => addr
  | .write _ addr _ => addr

/-- One host access (R63): one outside the block's 0x20000 bytes is not for this block (log entry 7), an illegal one is a bus
error that changes nothing, whether the engine is busy or not (R66). -/
def hostStep (a : Access) (s : State) : Result :=
  if a.addr < s.params.base ∨ s.params.base + 0x20000 ≤ a.addr then respond .notSelected s
  else
    match targetOf s.params a.width (a.addr - s.params.base) with
    | none => respond .busError s
    | some t =>
      match a with
      | .read _ _ => busRead t s
      | .write _ _ v => busWrite t v s

end Sys2Proof.Machine
end

