-- ==== Sys2Proof/Machine/Step.lean ====
section
/-! DEFINITION. One step of the block with its host (R13): the first event of the script, or, when the script is empty, the
engine. -/

namespace Sys2Proof.Machine

/-- One step. The script says who moves next (log entry 1): a host access, an engine turn, or reset; with nothing left in it
the host is silent, and only the engine can move. -/
def step (s : State) : Host.Outcome State Fault Refusal :=
  match s.inputs with
  | [] => engineTurn s
  | .engine :: rest => engineTurn (s.withInputs rest)
  | .access a :: rest => hostStep a (s.withInputs rest)
  | .reset :: rest => .next (State.resetWith s.params s.freeCtr rest)

/-- `s` with the opcode-table word `w` accepted by `CMD` (R230) and the engine to move next, so that the very next step runs
it (log entry 12). -/
def State.withFetchWord (s : State) (nbits w : Nat) : State := s.withCommand (tableWord nbits w)

end Sys2Proof.Machine
end

