-- ==== Sys2Proof/Machine/HostProgram.lean ====
section
/-! DEFINITION. The host programs of R84 and R85, as scripts of events (log entry 16). -/

namespace Sys2Proof.Machine

/-- One line of a host program: the accesses of R84 and the pseudo-operations of R85. `polls` is how often the host reads
`STATUS` while the command still runs, which the spec leaves open (R320). -/
inductive HostOp where
  /-- `W32 <offset>, v`. -/
  | w32 (off : Nat) (v : Word)
  /-- `R32 <offset>`. -/
  | r32 (off : Nat)
  /-- `W8 BUF+a, b`. -/
  | w8 (a : Nat) (b : Byte)
  /-- `R8 BUF+a`. -/
  | r8 (a : Nat)
  /-- `CMD m`. -/
  | cmd (i : Instr)
  /-- `WAIT`: reads of `STATUS` until it shows `BUSY = 0`. -/
  | wait (polls : Nat)
  /-- `RUN m`. -/
  | run (i : Instr) (polls : Nat)
  /-- `CHECK`: the read; what the host asserts of it is the host's. -/
  | check
  /-- `ACK`: clears DONE. -/
  | ack
deriving DecidableEq, Repr

/-- `W32` at `BASE + off`. -/
def w32 (base off : Nat) (v : Word) : Event := .access (.write 32 (base + off) v)

/-- `R32` at `BASE + off`. -/
def r32 (base off : Nat) : Event := .access (.read 32 (base + off))

/-- `WAIT` (R84, R85): `polls` reads that see the command running, the engine's step, and the read that sees it done. -/
def waitEvents (base polls : Nat) : List Event :=
  List.replicate polls (r32 base Reg.status.offset) ++ [.engine, r32 base Reg.status.offset]

/-- The events a line stands for. -/
def HostOp.events (base : Nat) : HostOp → List Event
  | .w32 off v => [Machine.w32 base off v]
  | .r32 off => [Machine.r32 base off]
  | .w8 a b => [.access (.write 8 (base + 0x10000 + a) (b.setWidth 32))]
  | .r8 a => [.access (.read 8 (base + 0x10000 + a))]
  | .cmd i => [Machine.w32 base Reg.cmd.offset (encode i)]
  | .wait polls => waitEvents base polls
  | .run i polls => Machine.w32 base Reg.cmd.offset (encode i) :: waitEvents base polls
  | .check => [Machine.r32 base Reg.status.offset]
  | .ack => [Machine.w32 base Reg.status.offset 0x2]

/-- A program's events, in the host's order (R70). -/
def programEvents (base : Nat) (ops : List HostOp) : List Event := ops.flatMap (HostOp.events base)

end Sys2Proof.Machine
end

