-- ==== Sys2Proof/Safety.lean ====
section
/-! DEFINITION. What a reachable state is like, and what a safe run is. -/

namespace Sys2Proof.Machine

/-- A record as `STS_PUSH` and `STS_DEC` store it: the fields of an absent sub-field are 0 (R174, R192). -/
abbrev NackRec.Normal (r : NackRec) : Prop :=
  (r.hasSo = false → r.soStart = 0 ∧ r.soEnd = 0) ∧ (r.hasRange = false → r.range = 0)

/-- The invariant of the container (R35, R45, N28 of 91_not_in_source.md): N is within `NACK_MAX`, the cached packed size is
the recomputed one, records are normal, and a CPT that is not the status type was left by a failed decode. -/
abbrev Container.Inv (nackMax : Nat) (c : Container) : Prop :=
  c.nacks.length ≤ nackMax ∧ c.psize.toNat = packedSize c.width c.nacks ∧ (∀ r ∈ c.nacks, r.Normal) ∧
    (c.cpt ≠ 0 → c.failed = true)

/-- The invariant of the whole block: valid parameters (R6), `BUF` in its canonical form, the container's invariant, no
command both running and done (R230, R232), and RESULT 0 after a failed command (R24). -/
abbrev State.Inv (s : State) : Prop :=
  s.params.Valid ∧ Memory.wf s.params.bufSize s.buf ∧ s.ctr.Inv s.params.nackMax ∧
    (s.busy = true → s.done = false) ∧ (s.ecode ≠ .ok → s.result = 0)

/-- A safe step: neither a fault nor a refusal ends the run here. -/
def State.Goes (s : State) : Prop := ∃ t, step s = .next t

end Sys2Proof.Machine
end

