-- ==== Sys2Proof/Certificates/Slice0/Obligations.lean ====
section
/-! DEFINITION. The statements for the provers, and the words they are written in. -/

open Sys2Proof Sys2Proof.Machine

namespace Sys2Proof.Claims

/-! ### The words of the statements, written from the spec and not from the meanings -/

/-- Completion by `finish(v)` (R232): nothing else of the state changes. -/
def finished (s : State) (v : Word) : State :=
  { s with result := v, ecode := .ok, busy := false, done := true }

/-- Completion by `raise e` (R232): nothing else of the state changes. -/
def failed (s : State) (e : ErrCode) : State :=
  { s with result := 0, ecode := e, busy := false, done := true }

/-- `RegionOK` (R61). -/
abbrev RegionOK (s : State) : Prop :=
  s.rgnStart.toNat ≤ s.rgnEnd.toNat ∧ s.rgnEnd.toNat ≤ s.params.bufSize

/-- The region's length `L` (R11). -/
def rgnLen (s : State) : Nat := s.rgnEnd.toNat - s.rgnStart.toNat

/-- Byte `a` of `BUF`, read through the model's read of one byte (0 where there is none). -/
def bufByte (s : State) (a : Nat) : Byte := (memRead s.buf a).getD 0

/-- Byte `k` of the region: `Rd(k)` (R11). -/
def rgnByte (s : State) (k : Nat) : Byte := bufByte s (s.rgnStart.toNat + k)

/-- Every address outside the `n` bytes from `lo` reads in `m'` as in `m`. -/
def SameOutside (m m' : List Host.Cell) (lo n : Nat) : Prop :=
  ∀ a, a < lo ∨ lo + n ≤ a → memRead m' a = memRead m a

/-- The bytes from `lo` on are `bytes`. -/
def Stored (m : List Host.Cell) (lo : Nat) (bytes : List Nat) : Prop :=
  ∀ j x, bytes[j]? = some x → memRead m (lo + j) = some (BitVec.ofNat 8 x)

/-- `CFG.SN_SIZE` is supported (R25). -/
abbrev Supported (s : State) : Prop := s.snSize = 0 ∨ s.snSize = 1

/-- `CFG.SN_SIZE` is 2 or 3 (R25). -/
abbrev Unsupported (s : State) : Prop := s.snSize = 2 ∨ s.snSize = 3

/-- `SoPresent(si)` (R140). -/
abbrev Segmented (si : BitVec 2) : Prop := si = 2 ∨ si = 3

/-- `Segmented` is decided by looking. -/
abbrev segmented (si : BitVec 2) : Bool := si = 2 ∨ si = 3

/-- `HdrLen(HDR_CTRL.SI, W)` for a supported width (R140). -/
def headerLen (s : State) : Nat :=
  (if s.snSize = 0 then 2 else 3) + (if segmented s.hdr.si then 2 else 0)

/-- `EmitSO` (R143). -/
def emitsSo (s : State) : Bool := if s.soLegacy then s.hdr.so.toNat ≠ 0 else segmented s.hdr.si

/-- The header image (R142, R143) in numbers, for a supported width. -/
def headerBytes (s : State) : List Nat :=
  let sn := s.hdr.sn.toNat
  let first := 128 + 64 * s.hdr.p.toNat + 16 * s.hdr.si.toNat
  (if s.snSize = 0 then [first + sn / 256 % 16, sn % 256]
    else [first + sn / 65536 % 4, sn / 256 % 256, sn % 256])
    ++ (if emitsSo s then [s.hdr.so.toNat / 256, s.hdr.so.toNat % 256] else [])

/-- `Contrib(rec, Wc)` (R170). -/
def contribution (w : SnWidth) (r : NackRec) : Nat :=
  (if w = .w12 then 2 else 3) + 4 * r.hasSo.toNat + r.hasRange.toNat

/-- The fixed part of a Status PDU (R201) in numbers. -/
def fixedBytes (w : SnWidth) (ack : Nat) (e1 : Bool) : List Nat :=
  match w with
  | .w12 => [ack / 256 % 16, ack % 256, 128 * e1.toNat]
  | .w18 => [ack / 16384 % 16, ack / 64 % 256, 4 * (ack % 64) + 2 * e1.toNat]

/-- One NACK element (R202) in numbers; `more` is E1'. -/
def elementBytes (w : SnWidth) (r : NackRec) (more : Bool) : List Nat :=
  let sn := r.sn.toNat
  (match w with
    | .w12 => [sn / 16 % 256, 16 * (sn % 16) + 8 * more.toNat + 4 * r.hasSo.toNat + 2 * r.hasRange.toNat]
    | .w18 => [sn / 1024 % 256, sn / 4 % 256,
        64 * (sn % 4) + 32 * more.toNat + 16 * r.hasSo.toNat + 8 * r.hasRange.toNat])
    ++ (if r.hasSo then [r.soStart.toNat / 256, r.soStart.toNat % 256, r.soEnd.toNat / 256, r.soEnd.toNat % 256]
        else [])
    ++ (if r.hasRange then [r.range.toNat] else [])

/-- The NACK elements in table order: E1' = 1 exactly on those before the last (R202). -/
def elementsBytes (w : SnWidth) : List NackRec → List Nat
  | [] => []
  | [r] => elementBytes w r false
  | r :: r' :: t => elementBytes w r true ++ elementsBytes w (r' :: t)

/-- The Status PDU of a report: E1 = 1 exactly when N > 0 (R201, R202). -/
def pduBytes (w : SnWidth) (ack : Nat) (recs : List NackRec) : List Nat :=
  fixedBytes w ack (decide (0 < recs.length)) ++ elementsBytes w recs

/-- A report whose SNs are below `2^Wc` and whose absent sub-fields are 0 (R203, R174). -/
abbrev InWidth (w : SnWidth) (ack : Word) (recs : List NackRec) : Prop :=
  ack.toNat < 2 ^ w.bits ∧ ∀ r ∈ recs, r.sn.toNat < 2 ^ w.bits ∧ r.Normal

/-- The region starts with the report's PDU, whatever the D/C bit of byte 0 is (R193). -/
abbrev RegionHolds (s : State) (ack : Word) (recs : List NackRec) : Prop :=
  (pduBytes s.ctr.width ack.toNat recs).length ≤ rgnLen s ∧
    ∀ j, j < (pduBytes s.ctr.width ack.toNat recs).length →
      (rgnByte s j).toNat % (if j = 0 then 128 else 256) = (pduBytes s.ctr.width ack.toNat recs).getD j 0

/-- The state after a decode of that report: the container's CPT and ACK_SN overwritten, its records and packed size
extended (R191-R195). -/
def decoded (s : State) (ack : Word) (recs : List NackRec) : State :=
  let len := (pduBytes s.ctr.width ack.toNat recs).length
  finished { s with ctr := { s.ctr with
    cpt := 0
    ackSn := ack
    nacks := s.ctr.nacks ++ recs
    psize := s.ctr.psize + BitVec.ofNat 32 (len - 3) } } (BitVec.ofNat 32 len)

/-- The state of `s` with one more record in the container (R171). -/
def appended (s : State) (r : NackRec) : State :=
  { s with ctr := { s.ctr with
    nacks := s.ctr.nacks ++ [r]
    psize := s.ctr.psize + BitVec.ofNat 32 (contribution s.ctr.width r) } }

/-- `s` with `CTR_INFO.FAILED` set (R190). -/
def markFailed (s : State) : State := { s with ctr := { s.ctr with failed := true } }

/-- The offsets of the register map (10_state.md section 2). -/
def registerOffsets : List Nat :=
  [0x00, 0x04, 0x08, 0x0C, 0x10, 0x14, 0x18, 0x1C, 0x20, 0x24, 0x28, 0x2C, 0x40, 0x44, 0x48, 0x4C, 0x50, 0x60, 0x64, 0x68]

/-- The legal host accesses (R63), by width in bits and offset from `BASE`. -/
abbrev LegalAccess (p : Params) (width off : Nat) : Prop :=
  (width = 32 ∧ off % 4 = 0 ∧ (off ∈ registerOffsets ∨ 0x1000 ≤ off ∧ off ≤ 0x1000 + 16 * p.nackMax - 1)) ∨
    (width = 8 ∧ 0x10000 ≤ off ∧ off < 0x10000 + p.bufSize)

/-- `i` is written with the one word `m` (R82, and the `match` and `mask` of the command's own rule). -/
abbrev HasWord (i : Instr) (m : Word) : Prop := encode i = m ∧ ∀ c, decode c = .ok i ↔ c &&& 0xFFFFFFFF#32 = m

/-- A bit-field command's words: match `m` under the mask 0xFFFEC0FF, with W and R free (R82, R83). -/
abbrev HasFieldWords (i : Nat → Bool → Instr) (m : Word) : Prop :=
  ∀ c n r, decode c = .ok (i n r) ↔ c &&& 0xFFFEC0FF#32 = m ∧ n = (c >>> 8 &&& 0x3F#32).toNat ∧ r = c.getLsbD 16

/-- `t` is `s` but for the model's own three fields (log entries 1, 5, 6): nothing of the block differs. -/
def SameBlock (s t : State) : Prop := t = { s with inputs := t.inputs, response := t.response, freeCtr := t.freeCtr }

/-- The next event is the host's access `a`, with `rest` to come. -/
abbrev HostNext (s : State) (a : Access) (rest : List Event) : Prop := s.inputs = .access a :: rest

/-- `s` after a host access answered `r`, with `rest` to come and nothing of the block changed. -/
def answered (s : State) (rest : List Event) (r : Response) : State := { s with inputs := rest, response := r }

/-- The number of an error code (R260). -/
def codeNumber : ErrCode → Nat
  | .ok => 0
  | .cpt => 1
  | .reserved => 2
  | .truncated => 3
  | .snWidth => 4
  | .capacity => 5
  | .region => 6
  | .nackFull => 7
  | .illegal => 8
  | .arg => 9

/-- The register map of 10_state.md section 2 in numbers: each register's offset from `BASE`, and the word it holds, by the
field tables of R21-R39; a bit that no field has is 0 (R44). -/
def registerMap (s : State) : List (Nat × Nat) :=
  [ (0x00, 0x524C4601),
    (0x04, s.cmd.toNat),
    (0x08, s.busy.toNat + 2 * s.done.toNat + 4 * s.lost.toNat + 16 * codeNumber s.ecode),
    (0x0C, s.result.toNat),
    (0x10, s.snSize.toNat + 16 * s.soLegacy.toNat + 256 * s.irqEn.toNat),
    (0x14, s.rgnStart.toNat),
    (0x18, s.rgnEnd.toNat),
    (0x1C, s.addr.toNat),
    (0x20, s.bfData.toNat),
    (0x24, 16 * s.hdr.si.toNat + 64 * s.hdr.p.toNat + 128 * s.hdr.dc.toNat),
    (0x28, s.hdr.sn.toNat),
    (0x2C, s.hdr.so.toNat),
    (0x40, (if s.ctr.width = .w12 then 0 else 1) + 256 * s.ctr.failed.toNat),
    (0x44, s.ctr.cpt.toNat),
    (0x48, s.ctr.ackSn.toNat),
    (0x4C, s.ctr.nacks.length),
    (0x50, s.ctr.psize.toNat),
    (0x60, s.nk.sn.toNat),
    (0x64, s.nk.hasSo.toNat + 2 * s.nk.hasRange.toNat + 256 * s.nk.range.toNat),
    (0x68, 65536 * s.nk.soStart.toNat + s.nk.soEnd.toNat) ]

/-- The word that the register at an offset holds; `none` where the map has no register. -/
def wordAt (s : State) (off : Nat) : Option Nat := (registerMap s).lookup off

/-- The registers that a host write stores into, by offset, with the bits that are stored; the others read 0 (R25-R31, R34,
R37-R39, R44). `CMD` and `STATUS` are not among them: a write to them does something else. -/
def storedBits : List (Nat × Word) :=
  [ (0x10, 0x00000113), (0x14, 0xFFFFFFFF), (0x18, 0xFFFFFFFF), (0x1C, 0xFFFFFFFF), (0x20, 0xFFFFFFFF),
    (0x24, 0x000000F0), (0x28, 0xFFFFFFFF), (0x2C, 0x0000FFFF), (0x48, 0xFFFFFFFF), (0x60, 0xFFFFFFFF),
    (0x64, 0x0000FF03), (0x68, 0xFFFFFFFF) ]

/-- The offsets of the read-only registers (10_state.md section 2). -/
def readOnlyOffsets : List Nat := [0x00, 0x0C, 0x40, 0x44, 0x4C, 0x50]

/-- The register map right after reset (R301, and the column 'Reset' of 10_state.md section 2). -/
def resetMap : List (Nat × Nat) :=
  [ (0x00, 0x524C4601), (0x04, 0), (0x08, 0), (0x0C, 0), (0x10, 0), (0x14, 0), (0x18, 0), (0x1C, 0), (0x20, 0),
    (0x24, 0), (0x28, 0), (0x2C, 0), (0x40, 0), (0x44, 0), (0x48, 0xFFFFFFFF), (0x4C, 0), (0x50, 3), (0x60, 0),
    (0x64, 0), (0x68, 0) ]

/-- The codes a command can complete with (R260, the column "Raised by"). -/
def codesOf : Instr → List ErrCode
  | .nop => [.ok]
  | .hdrRd => [.ok, .reserved, .truncated, .snWidth, .region]
  | .hdrLen => [.ok, .snWidth]
  | .hdrWr => [.ok, .snWidth, .capacity]
  | .hdrWrp => [.ok, .snWidth, .capacity, .region]
  | .stsInit => [.ok, .snWidth]
  | .stsRst => [.ok]
  | .stsPush => [.ok, .nackFull]
  | .stsRefresh => [.ok]
  | .stsDec => [.ok, .cpt, .reserved, .truncated, .region, .nackFull]
  | .stsEnc => [.ok, .capacity, .region]
  | .bfGet _ _ => [.ok, .truncated, .region, .arg]
  | .bfPut _ _ => [.ok, .capacity, .region, .arg]

/-- The commands that write `BUF` (R83). -/
def writesBuf : Instr → Bool
  | .hdrWr | .hdrWrp | .stsEnc => true
  | .bfPut _ _ => true
  | _ => false

/-- The commands that write the container (R83). -/
def writesContainer : Instr → Bool
  | .stsInit | .stsRst | .stsPush | .stsRefresh | .stsDec => true
  | _ => false

end Sys2Proof.Claims

open Sys2Proof.Claims

/-! ### The command word -/

/-- Decoding the word of a well-formed command gives the command back, for all thirteen (R80-R83). -/
def Obligations.DecodeInvertsEncode : Prop :=
  ∀ i : Instr, i.wellFormed = true → decode (encode i) = .ok i

/-- A legal word is the word of the well-formed command it decodes to, so each command has exactly one word (R80-R83). -/
def Obligations.LegalWordsAreEncodings : Prop :=
  ∀ (c : Word) (i : Instr), decode c = .ok i → i.wellFormed = true ∧ encode i = c

/-- R82: the legal words are exactly those the match and mask columns describe; any other word is accepted by the handshake all
the same, and given to the engine it changes nothing except `STATUS` and `RESULT` and completes with `E_ILLEGAL`. -/
def Obligations.LegalWordsAreTheTables : Prop :=
  ∀ c : Word,
    (∀ p ∈ [(Instr.nop, 0x00#32), (.hdrRd, 0x01#32), (.hdrLen, 0x02#32), (.hdrWr, 0x03#32), (.hdrWrp, 0x04#32),
        (.stsInit, 0x10#32), (.stsRst, 0x11#32), (.stsPush, 0x12#32), (.stsRefresh, 0x13#32), (.stsDec, 0x14#32),
        (.stsEnc, 0x15#32)], HasWord p.1 p.2) ∧
    HasFieldWords .bfGet 0x20#32 ∧ HasFieldWords .bfPut 0x21#32 ∧
    ((∀ i, decode c ≠ .ok i) → ∀ s : State,
      (∀ rest, s.busy = false → HostNext s (.write 32 (s.params.base + 4) c) rest →
        ∃ t, step s = .next t ∧ SameBlock { s with cmd := c, done := false, busy := true } t) ∧
      (s.cmd = c → s.busy = true → engineTurn s = .next (failed s .illegal)))

/-- Words written out from the spec's programs and vectors (95_test_vectors.md) decode to the commands they stand for. -/
def Obligations.SpecWordsDecode : Prop :=
  decode 0x00000000 = .ok .nop ∧ decode 0x00000004 = .ok .hdrWrp ∧ decode 0x00000012 = .ok .stsPush ∧
    decode 0x00000014 = .ok .stsDec ∧ decode 0x00001221 = .ok (.bfPut 18 false) ∧
    decode 0x00012020 = .ok (.bfGet 32 true) ∧ decode 0x00000005 = .illegal (.unknownOpcode 0x05) ∧
    decode 0x00000114 = .illegal (.reservedBits 0x14) ∧ decode 0x00004820 = .illegal (.reservedBits 0x20)

/-! ### The life of a command -/

/-- R231: a step of a busy block, on the engine's turn, is exec of the decoded command; the engine of an idle block does
nothing, whatever word `CMD` still holds (R72). On a scripted turn the script's first event is used up. -/
def Obligations.StepRunsTheDecodedCommand : Prop :=
  ∀ s : State,
    (∀ i : Instr, s.busy = true → decode s.cmd = .ok i →
      (s.inputs = [] → step s = exec i s) ∧
      (∀ rest, s.inputs = .engine :: rest → step s = exec i { s with inputs := rest })) ∧
    (s.busy = false →
      (s.inputs = [] → step s = .next s) ∧
      (∀ rest, s.inputs = .engine :: rest → step s = .next { s with inputs := rest }))

/-- R263: an illegal word completes with `E_ILLEGAL` (8) and RESULT 0, and nothing else changes, on a silent host's turn and on
a scripted one. -/
def Obligations.IllegalWordCompletesIllegal : Prop :=
  ErrCode.illegal.code = 8 ∧
    ∀ (s : State) (why : IllegalWord), s.busy = true → decode s.cmd = .illegal why →
      (s.inputs = [] → step s = .next { s with result := 0, ecode := .illegal, busy := false, done := true }) ∧
      (∀ rest, s.inputs = .engine :: rest →
        step s = .next { s with inputs := rest, result := 0, ecode := .illegal, busy := false, done := true })

/-- R230: a 32-bit write to `CMD` starts a command when idle and is dropped, setting LOST, when busy; while busy a read of
`RESULT` is answered with some word, which nothing constrains, and changes nothing. -/
def Obligations.CommandStart : Prop :=
  ∀ (s : State) (c : Word) (rest : List Event),
    (HostNext s (.write 32 (s.params.base + 4) c) rest →
      (s.busy = false → ∃ t, step s = .next t ∧ SameBlock { s with cmd := c, done := false, busy := true } t) ∧
      (s.busy = true → ∃ t, step s = .next t ∧ SameBlock { s with lost := true } t)) ∧
    (HostNext s (.read 32 (s.params.base + 0xC)) rest → s.busy = true →
      ∃ t v, step s = .next t ∧ SameBlock s t ∧ t.response = .word v)

/-- R231, R232: every command, in every state with the invariant, runs to its completion: BUSY 0, DONE 1, and RESULT 0
with an error code. No access to a byte outside `BUF` and no endless loop stops it (R10, R193). -/
def Obligations.EveryCommandCompletes : Prop :=
  ∀ (i : Instr) (s : State), s.Inv →
    ∃ t, exec i s = .next t ∧ t.busy = false ∧ t.done = true ∧ (t.ecode ≠ .ok → t.result = 0)

/-- R233: `NOP`, word 0, finishes with 0 and changes nothing else. -/
def Obligations.NopFinishes : Prop :=
  HasWord .nop 0x00000000 ∧
  ∀ s : State, exec .nop s = .next { s with result := 0, ecode := .ok, busy := false, done := true }

/-- R260: the codes' numbers, none above 9, and which commands complete with which code; `E_ILLEGAL` comes from any illegal
word. -/
def Obligations.ErrorCodesOfEachCommand : Prop :=
  (ErrCode.ok.code = 0 ∧ ErrCode.cpt.code = 1 ∧ ErrCode.reserved.code = 2 ∧ ErrCode.truncated.code = 3 ∧
    ErrCode.snWidth.code = 4 ∧ ErrCode.capacity.code = 5 ∧ ErrCode.region.code = 6 ∧ ErrCode.nackFull.code = 7 ∧
    ErrCode.illegal.code = 8 ∧ ErrCode.arg.code = 9) ∧
    (∀ e : ErrCode, e.code.toNat ≤ 9) ∧
    (∀ (i : Instr) (s t : State), exec i s = .next t → t.ecode ∈ codesOf i) ∧
    (∀ (s t : State) (why : IllegalWord), s.busy = true → s.inputs = [] → decode s.cmd = .illegal why →
      step s = .next t → t.ecode = .illegal)

/-- R268: the interrupt is DONE and IRQ_EN; every completion, of a command or an illegal word, raises it when enabled; writing 1 to DONE, starting a command
and writing IRQ_EN 0 lower it, the last leaving DONE as it was. -/
def Obligations.CompletionInterrupt : Prop :=
  (∀ s : State, s.irq = true ↔ s.done = true ∧ s.irqEn = true) ∧
    (∀ s t : State, s.busy = true → engineTurn s = .next t → t.irqEn = s.irqEn ∧ t.irq = s.irqEn) ∧
    (∀ (s : State) (v : Word) (rest : List Event), s.busy = false → v.getLsbD 1 = true →
      HostNext s (.write 32 (s.params.base + 8) v) rest → ∃ t, step s = .next t ∧ t.irq = false) ∧
    (∀ (s : State) (c : Word) (rest : List Event), s.busy = false →
      HostNext s (.write 32 (s.params.base + 4) c) rest → ∃ t, step s = .next t ∧ t.irq = false) ∧
    (∀ (s : State) (v : Word) (rest : List Event), s.busy = false → v.getLsbD 8 = false →
      HostNext s (.write 32 (s.params.base + 0x10) v) rest → ∃ t, step s = .next t ∧ t.irq = false ∧ t.done = s.done)

/-! ### Reset and the invariant -/

/-- R300, R301: reset puts every register at its value, idles the engine, lowers the interrupt, empties the NACK table and
leaves each byte of `BUF` with some value, whatever was running; the container is as `STS_INIT` with the 12-bit width leaves it.
The parameters and the events still to come are no state of the block (log entries 1, 2) and stay. -/
def Obligations.ResetState : Prop :=
  ∀ (s : State) (rest : List Event), s.inputs = .reset :: rest →
    ∃ t, step s = .next t ∧ registerMap t = resetMap ∧ t.busy = false ∧ t.irq = false ∧
      (∀ entry word, readNack t entry word = 0) ∧
      (∀ a, (memRead t.buf a).isSome ↔ a < s.params.bufSize) ∧
      (∀ u v, u.snSize = 0 → exec .stsInit u = .next v → v.ctr = t.ctr) ∧
      t.params = s.params ∧ t.inputs = rest

/-- The invariant holds right after the first reset. -/
def Obligations.InvHoldsAtReset : Prop := State.reset.Inv

/-- Every step keeps the invariant: `BUF` in its canonical form, N within `NACK_MAX`, the cached packed size the recomputed
one (R45), records normal (R174), no command running and done at once (R230, R232), RESULT 0 after a failure (R24). -/
def Obligations.EveryStepKeepsInv : Prop :=
  ∀ s t : State, s.Inv → step s = .next t → t.Inv

/-- From a state with the invariant no step ends in a fault or a refusal: ordinary data, illegal words, illegal accesses and
reset all have a next state. -/
def Obligations.NoStepStops : Prop := ∀ s : State, s.Inv → s.Goes

/-- R231, R320: whatever the host does, once its script is used up one more step leaves the engine idle. -/
def Obligations.ScriptsEndIdle : Prop :=
  ∀ s : State, s.Inv → ∃ t : State,
    Host.Core.run core (s.inputs.length + 1) s = .next t ∧ t.inputs = [] ∧ t.busy = false

/-! ### The field codec -/

/-- R120: `GetBits` returns the unsigned n-bit value whose most significant bit is the one at position `p`. -/
def Obligations.GetBitsReadsMsbFirst : Prop :=
  ∀ (size : Nat) (m : List Host.Cell) (a0 p n : Nat), Memory.wf size m → 1 ≤ n → n ≤ 32 →
    a0 + (p + n - 1) / 8 < size →
    ∃ v, getBits m a0 p n = some v ∧ v < 2 ^ n ∧
      ∀ i b, i < n → memRead m (a0 + (p + i) / 8) = some b → v.testBit (n - 1 - i) = b.getLsbD (7 - (p + i) % 8)

/-- R121: `PutBits` stores the low n bits of `v` at positions `p .. p+n-1`, most significant first, and every other bit of
`BUF` keeps its value. -/
def Obligations.PutBitsWritesOnlyTheField : Prop :=
  ∀ (size : Nat) (m : List Host.Cell) (a0 p n : Nat) (v : Word), Memory.wf size m → 1 ≤ n → n ≤ 32 →
    a0 + (p + n - 1) / 8 < size →
    ∃ m', putBits m a0 p n v = some m' ∧ Memory.wf size m' ∧
      ∀ a b, memRead m a = some b → ∃ b', memRead m' a = some b' ∧
        ∀ j, j < 8 → b'.getLsbD (7 - j) =
          (if a0 ≤ a ∧ p ≤ 8 * (a - a0) + j ∧ 8 * (a - a0) + j < p + n
            then v.getLsbD (n - 1 - (8 * (a - a0) + j - p)) else b.getLsbD (7 - j))

/-- R122, first law: reading a field just written gives the value truncated to its width. -/
def Obligations.GetBitsAfterPutBits : Prop :=
  ∀ (size : Nat) (m m' : List Host.Cell) (a0 p n : Nat) (v : Word), Memory.wf size m → 1 ≤ n → n ≤ 32 →
    a0 + (p + n - 1) / 8 < size → putBits m a0 p n v = some m' →
    getBits m' a0 p n = some (v.toNat % 2 ^ n)

/-- R122, second and third laws: fields on disjoint positions neither see nor disturb each other. -/
def Obligations.DisjointFieldsAreIndependent : Prop :=
  ∀ (size : Nat) (m m' : List Host.Cell) (a0 p n q k : Nat) (v : Word), Memory.wf size m →
    1 ≤ n → n ≤ 32 → 1 ≤ k → k ≤ 32 → a0 + (p + n - 1) / 8 < size → a0 + (q + k - 1) / 8 < size →
    (p + n ≤ q ∨ q + k ≤ p) → putBits m a0 p n v = some m' →
    getBits m' a0 q k = getBits m a0 q k ∧
      ∀ w : Word, putBits m' a0 q k w = (putBits m a0 q k w).bind fun m'' => putBits m'' a0 p n v

/-- R122, fourth and fifth laws: an aligned 8-bit field is its byte, and a field's write touches only the bytes
`a0 + p div 8` to `a0 + (p + n - 1) div 8`. -/
def Obligations.FieldsAndBytes : Prop :=
  (∀ (m : List Host.Cell) (a0 p : Nat) (b : Byte), p % 8 = 0 → memRead m (a0 + p / 8) = some b →
    getBits m a0 p 8 = some b.toNat) ∧
  ∀ (m m' : List Host.Cell) (a0 p n a : Nat) (v : Word), 1 ≤ n → n ≤ 32 → putBits m a0 p n v = some m' →
    a < a0 + p / 8 ∨ a0 + (p + n - 1) / 8 < a → memRead m' a = memRead m a

/-- R123: `BF_GET`, whole: its three errors in their order, and on success the field's bits, most significant first, in
RESULT, with nothing else changed. -/
def Obligations.BfGetReadsTheField : Prop :=
  HasFieldWords .bfGet 0x00000020 ∧
  ∀ (s : State) (n : Nat) (r : Bool), s.Inv →
    let a0 := if r then s.rgnStart.toNat else 0
    let limit := if r then 8 * rgnLen s else 8 * s.params.bufSize
    (n < 1 ∨ 32 < n → exec (.bfGet n r) s = .next (failed s .arg)) ∧
    (1 ≤ n → n ≤ 32 → r = true → ¬ RegionOK s → exec (.bfGet n r) s = .next (failed s .region)) ∧
    (1 ≤ n → n ≤ 32 → (r = true → RegionOK s) →
      (limit < s.addr.toNat + n → exec (.bfGet n r) s = .next (failed s .truncated)) ∧
      (s.addr.toNat + n ≤ limit → ∃ v : Word, exec (.bfGet n r) s = .next (finished s v) ∧ v.toNat < 2 ^ n ∧
        ∀ i, i < n → v.getLsbD (n - 1 - i) =
          (bufByte s (a0 + (s.addr.toNat + i) / 8)).getLsbD (7 - (s.addr.toNat + i) % 8)))

/-- R124: `BF_PUT`, whole: its three errors in their order with nothing written, and on success the low n bits of `BF_DATA`
at the field's positions, every other bit of `BUF` kept, RESULT 0. -/
def Obligations.BfPutWritesTheField : Prop :=
  HasFieldWords .bfPut 0x00000021 ∧
  ∀ (s : State) (n : Nat) (r : Bool), s.Inv →
    let a0 := if r then s.rgnStart.toNat else 0
    let limit := if r then 8 * rgnLen s else 8 * s.params.bufSize
    (n < 1 ∨ 32 < n → exec (.bfPut n r) s = .next (failed s .arg)) ∧
    (1 ≤ n → n ≤ 32 → r = true → ¬ RegionOK s → exec (.bfPut n r) s = .next (failed s .region)) ∧
    (1 ≤ n → n ≤ 32 → (r = true → RegionOK s) →
      (limit < s.addr.toNat + n → exec (.bfPut n r) s = .next (failed s .capacity)) ∧
      (s.addr.toNat + n ≤ limit → ∃ m, exec (.bfPut n r) s = .next (finished { s with buf := m } 0) ∧
        Memory.wf s.params.bufSize m ∧ ∀ a b, memRead s.buf a = some b → ∃ b', memRead m a = some b' ∧
          ∀ j, j < 8 → b'.getLsbD (7 - j) =
            (if a0 ≤ a ∧ s.addr.toNat ≤ 8 * (a - a0) + j ∧ 8 * (a - a0) + j < s.addr.toNat + n
              then s.bfData.getLsbD (n - 1 - (8 * (a - a0) + j - s.addr.toNat)) else b.getLsbD (7 - j))))

/-! ### The data-PDU header -/

/-- R141: `HDR_LEN`, whole: the length by SI and width alone, or `E_SN_WIDTH`. -/
def Obligations.HdrLenResult : Prop :=
  HasWord .hdrLen 0x00000002 ∧
  ∀ s : State,
    (s.snSize = 0 → exec .hdrLen s = .next (finished s (if s.hdr.si = 2 ∨ s.hdr.si = 3 then 4 else 2))) ∧
    (s.snSize = 1 → exec .hdrLen s = .next (finished s (if s.hdr.si = 2 ∨ s.hdr.si = 3 then 5 else 3))) ∧
    (Unsupported s → exec .hdrLen s = .next (failed s .snWidth))

/-- R144: `HDR_RD`, whole, in the region's bytes: the errors in their order with the header registers kept, and on success
the registers of both formats with and without SO. -/
def Obligations.HdrRdParsesTheHeader : Prop :=
  HasWord .hdrRd 0x00000001 ∧
  ∀ s : State, s.Inv →
    let b := rgnByte s
    let si := (b 0).extractLsb' 4 2
    let parsed (sn : Word) (so : BitVec 16) : State :=
      { s with hdr := { dc := (b 0).getLsbD 7, p := (b 0).getLsbD 6, si := si, sn := sn, so := so } }
    let sn12 : Word := 0#20 ++ (b 0).extractLsb' 0 4 ++ b 1
    let sn18 : Word := 0#14 ++ (b 0).extractLsb' 0 2 ++ b 1 ++ b 2
    (Unsupported s → exec .hdrRd s = .next (failed s .snWidth)) ∧
    (Supported s → ¬ RegionOK s → exec .hdrRd s = .next (failed s .region)) ∧
    (Supported s → RegionOK s → rgnLen s = 0 → exec .hdrRd s = .next (failed s .truncated)) ∧
    (s.snSize = 0 → RegionOK s → 1 ≤ rgnLen s →
      (rgnLen s < 2 → exec .hdrRd s = .next (failed s .truncated)) ∧
      (2 ≤ rgnLen s → ¬ Segmented si → exec .hdrRd s = .next (finished (parsed sn12 0) 2)) ∧
      (2 ≤ rgnLen s → rgnLen s < 4 → Segmented si → exec .hdrRd s = .next (failed s .truncated)) ∧
      (4 ≤ rgnLen s → Segmented si → exec .hdrRd s = .next (finished (parsed sn12 (b 2 ++ b 3)) 4))) ∧
    (s.snSize = 1 → RegionOK s → 1 ≤ rgnLen s →
      ((b 0).extractLsb' 2 2 ≠ 0 → exec .hdrRd s = .next (failed s .reserved)) ∧
      ((b 0).extractLsb' 2 2 = 0 →
        (rgnLen s < 3 → exec .hdrRd s = .next (failed s .truncated)) ∧
        (3 ≤ rgnLen s → ¬ Segmented si → exec .hdrRd s = .next (finished (parsed sn18 0) 3)) ∧
        (3 ≤ rgnLen s → rgnLen s < 5 → Segmented si → exec .hdrRd s = .next (failed s .truncated)) ∧
        (5 ≤ rgnLen s → Segmented si → exec .hdrRd s = .next (finished (parsed sn18 (b 3 ++ b 4)) 5))))

/-- R145: `HDR_WR`, whole: the image of R142 and R143 at `ADDR`, RESULT `HdrLen`, every other byte kept; or `E_SN_WIDTH`, then
`E_CAPACITY`, with nothing written. -/
def Obligations.HdrWrWritesTheImage : Prop :=
  HasWord .hdrWr 0x00000003 ∧
  ∀ s : State, s.Inv →
    let len := (headerBytes s).length
    (Unsupported s → exec .hdrWr s = .next (failed s .snWidth)) ∧
    (Supported s → s.params.bufSize < s.addr.toNat + len → exec .hdrWr s = .next (failed s .capacity)) ∧
    (Supported s → s.addr.toNat + len ≤ s.params.bufSize →
      ∃ m, exec .hdrWr s = .next (finished { s with buf := m } (BitVec.ofNat 32 (headerLen s))) ∧
        Stored m s.addr.toNat (headerBytes s) ∧ SameOutside s.buf m s.addr.toNat len)

/-- R146: `HDR_WRP`, whole: the image in front of the region, `RGN_START` lower by `HdrLen`, every byte outside the image kept,
so the payload too in the default mode; or its errors in their order, with nothing written. -/
def Obligations.HdrWrpPrependsTheImage : Prop :=
  HasWord .hdrWrp 0x00000004 ∧
  ∀ s : State, s.Inv →
    let len := headerLen s
    let start := s.rgnStart.toNat - len
    let m := (headerBytes s).length
    (Unsupported s → exec .hdrWrp s = .next (failed s .snWidth)) ∧
    (Supported s → ¬ RegionOK s → exec .hdrWrp s = .next (failed s .region)) ∧
    (Supported s → RegionOK s → s.rgnStart.toNat < len → exec .hdrWrp s = .next (failed s .capacity)) ∧
    (Supported s → RegionOK s → len ≤ s.rgnStart.toNat → s.params.bufSize < start + m →
      exec .hdrWrp s = .next (failed s .capacity)) ∧
    (Supported s → RegionOK s → len ≤ s.rgnStart.toNat → start + m ≤ s.params.bufSize →
      ∃ buf, exec .hdrWrp s = .next (finished
          { s with buf := buf, rgnStart := BitVec.ofNat 32 start } (BitVec.ofNat 32 len)) ∧
        Stored buf start (headerBytes s) ∧ SameOutside s.buf buf start m ∧
        (s.soLegacy = false → ∀ a, s.rgnStart.toNat ≤ a → memRead buf a = memRead s.buf a))

/-- R147: a valid header written by `HDR_WR` or `HDR_WRP` and read back by `HDR_RD` restores the header registers, whatever they
held meanwhile, and RESULT is its length. In legacy mode this needs HDR_SO nonzero exactly when SI calls for an SO. -/
def Obligations.HeaderRoundTrip : Prop :=
  ∀ s : State, s.Inv → s.hdr.dc = true →
    (s.snSize = 0 ∧ s.hdr.sn.toNat < 2 ^ 12 ∨ s.snSize = 1 ∧ s.hdr.sn.toNat < 2 ^ 18) →
    (¬ Segmented s.hdr.si → s.hdr.so = 0) →
    (s.soLegacy = true → Segmented s.hdr.si → s.hdr.so ≠ 0) →
    (s.addr.toNat + headerLen s ≤ s.params.bufSize →
      ∃ t, exec .hdrWr s = .next t ∧
        ∀ (h : HeaderRegs) (e : Word), s.addr.toNat + headerLen s ≤ e.toNat → e.toNat ≤ s.params.bufSize →
          ∃ v, exec .hdrRd { t with rgnStart := s.addr, rgnEnd := e, hdr := h } = .next v ∧
            v.hdr = s.hdr ∧ v.ecode = .ok ∧ v.result = BitVec.ofNat 32 (headerLen s)) ∧
    (RegionOK s → headerLen s ≤ s.rgnStart.toNat →
      ∃ t, exec .hdrWrp s = .next t ∧
        ∀ (h : HeaderRegs) (e : Word), s.rgnStart.toNat ≤ e.toNat → e.toNat ≤ s.params.bufSize →
          ∃ v, exec .hdrRd { t with rgnEnd := e, hdr := h } = .next v ∧
            v.hdr = s.hdr ∧ v.ecode = .ok ∧ v.result = BitVec.ofNat 32 (headerLen s))

/-! ### The Status-PDU container -/

/-- R172: `STS_INIT`, whole: the constructed container with the width of `CFG.SN_SIZE`, or `E_SN_WIDTH` with nothing changed. -/
def Obligations.StsInitConstructs : Prop :=
  HasWord .stsInit 0x00000010 ∧
  ∀ s : State,
    let fresh (w : SnWidth) : Container :=
      { width := w, failed := false, cpt := 0, ackSn := 0xFFFFFFFF, nacks := [], psize := 3 }
    (s.snSize = 0 → exec .stsInit s = .next (finished { s with ctr := fresh .w12 } 0)) ∧
    (s.snSize = 1 → exec .stsInit s = .next (finished { s with ctr := fresh .w18 } 0)) ∧
    (Unsupported s → exec .stsInit s = .next (failed s .snWidth))

/-- R173: `STS_RST`: the just-constructed container with its width kept. -/
def Obligations.StsRstEmptiesTheContainer : Prop :=
  HasWord .stsRst 0x00000011 ∧
  ∀ s : State, exec .stsRst s = .next (finished { s with ctr := { s.ctr with
    failed := false, cpt := 0, ackSn := 0xFFFFFFFF, nacks := [], psize := 3 } } 0)

/-- R171, R174: `STS_PUSH` appends the staged record, absent sub-fields 0, and RESULT is the new packed size, the old one plus
the contribution without wrapping; with the table full it raises `E_NACK_FULL` and nothing changes. -/
def Obligations.StsPushAppends : Prop :=
  HasWord .stsPush 0x00000012 ∧
  ∀ s : State,
    let r : NackRec :=
      { sn := s.nk.sn
        hasSo := s.nk.hasSo
        soStart := if s.nk.hasSo then s.nk.soStart else 0
        soEnd := if s.nk.hasSo then s.nk.soEnd else 0
        hasRange := s.nk.hasRange
        range := if s.nk.hasRange then s.nk.range else 0 }
    (s.ctr.nacks.length = s.params.nackMax → exec .stsPush s = .next (failed s .nackFull)) ∧
    (s.Inv → s.ctr.nacks.length < s.params.nackMax →
      exec .stsPush s = .next (finished (appended s r) (appended s r).ctr.psize) ∧
        (appended s r).ctr.psize.toNat = s.ctr.psize.toNat + contribution s.ctr.width r)

/-- R175: `STS_REFRESH` sets the packed size to 3 plus the records' contributions; where the container's invariant holds, that
leaves all but `STATUS` and `RESULT` unchanged. -/
def Obligations.StsRefreshRecomputes : Prop :=
  HasWord .stsRefresh 0x00000013 ∧
  ∀ s : State,
    let size := BitVec.ofNat 32 (3 + (s.ctr.nacks.map (contribution s.ctr.width)).sum)
    exec .stsRefresh s = .next (finished { s with ctr := { s.ctr with psize := size } } size) ∧
    (s.Inv → exec .stsRefresh s = .next (finished s s.ctr.psize) ∧
      s.ctr.psize.toNat = 3 + (s.ctr.nacks.map (contribution s.ctr.width)).sum)

/-- R176: the packed size is between 3 and 3 + 8 * NACK_MAX, which is at most 30723; a record contributes at most 7 bytes with
the 12-bit width and 8 with the 18-bit width. -/
def Obligations.PackedSizeBound : Prop :=
  (∀ s : State, s.Inv →
    3 ≤ s.ctr.psize.toNat ∧ s.ctr.psize.toNat ≤ 3 + 8 * s.params.nackMax ∧ 3 + 8 * s.params.nackMax ≤ 30723) ∧
  ∀ r : NackRec, contrib .w12 r ≤ 7 ∧ contrib .w18 r ≤ 8

/-- R35, R40: a command leaves the NACK list as it is, empties it (`STS_INIT`, `STS_RST` only) or appends to it (`STS_PUSH`
one record, `STS_DEC` any number); no command deletes or changes a record. -/
def Obligations.NackListOnlyGrowsOrClears : Prop :=
  ∀ (i : Instr) (s t : State), exec i s = .next t →
    (t.ctr.nacks = [] ∧ (i = .stsInit ∨ i = .stsRst)) ∨
    (∃ new, t.ctr.nacks = s.ctr.nacks ++ new ∧ (i = .stsDec ∨ i = .stsPush ∧ new.length ≤ 1 ∨ new = []))

/-! ### The Status-PDU codec -/

/-- R200-R202: `STS_ENC`, whole: the PDU's bytes at `RGN_START`, exactly `CTR_PSIZE` of them, `RGN_END` after them, RESULT their
number, every other byte kept; or `E_REGION`, then `E_CAPACITY`, with nothing written. -/
def Obligations.StsEncWritesThePdu : Prop :=
  HasWord .stsEnc 0x00000015 ∧
  ∀ s : State, s.Inv →
    let pdu := pduBytes s.ctr.width s.ctr.ackSn.toNat s.ctr.nacks
    (¬ RegionOK s → exec .stsEnc s = .next (failed s .region)) ∧
    (RegionOK s → s.params.bufSize < s.rgnStart.toNat + s.ctr.psize.toNat →
      exec .stsEnc s = .next (failed s .capacity)) ∧
    (RegionOK s → s.rgnStart.toNat + s.ctr.psize.toNat ≤ s.params.bufSize →
      pdu.length = s.ctr.psize.toNat ∧
      ∃ m, exec .stsEnc s = .next (finished
          { s with buf := m, rgnEnd := s.rgnStart + s.ctr.psize } s.ctr.psize) ∧
        Stored m s.rgnStart.toNat pdu ∧ SameOutside s.buf m s.rgnStart.toNat pdu.length)

/-- R191: the region check and the fixed part of `STS_DEC`, in the region's bytes: what is committed at each point and how each
check fails; with E1 = 1 the NACK loop goes on from byte 3. -/
def Obligations.StsDecFixedPart : Prop :=
  ∀ s : State, s.Inv →
    let b := rgnByte s
    let cpt := (b 0).extractLsb' 4 3
    let s1 : State := { s with ctr := { s.ctr with cpt := cpt } }
    let acked (ack : Word) : State := { s with ctr := { s.ctr with cpt := 0, ackSn := ack } }
    let s12 := acked (0#20 ++ (b 0).extractLsb' 0 4 ++ b 1)
    let s18 := acked (0#14 ++ (b 0).extractLsb' 0 4 ++ b 1 ++ (b 2).extractLsb' 2 6)
    (¬ RegionOK s → exec .stsDec s = .next (failed s .region)) ∧
    (RegionOK s → rgnLen s = 0 → exec .stsDec s = .next (failed (markFailed s) .truncated)) ∧
    (RegionOK s → 1 ≤ rgnLen s → cpt ≠ 0 → exec .stsDec s = .next (failed (markFailed s1) .cpt)) ∧
    (RegionOK s → 1 ≤ rgnLen s → cpt = 0 → s.ctr.width = .w12 →
      (rgnLen s < 2 → exec .stsDec s = .next (failed (markFailed s1) .truncated)) ∧
      (rgnLen s = 2 → exec .stsDec s = .next (failed (markFailed s12) .truncated)) ∧
      (3 ≤ rgnLen s → (b 2).extractLsb' 0 7 ≠ 0 → exec .stsDec s = .next (failed (markFailed s12) .reserved)) ∧
      (3 ≤ rgnLen s → b 2 = 0x00 → exec .stsDec s = .next (finished s12 3)) ∧
      (3 ≤ rgnLen s → b 2 = 0x80 → exec .stsDec s = decLoop (rgnLen s) 3 s12)) ∧
    (RegionOK s → 1 ≤ rgnLen s → cpt = 0 → s.ctr.width = .w18 →
      (rgnLen s < 3 → exec .stsDec s = .next (failed (markFailed s1) .truncated)) ∧
      (3 ≤ rgnLen s → (b 2).getLsbD 0 = true → exec .stsDec s = .next (failed (markFailed s18) .reserved)) ∧
      (3 ≤ rgnLen s → (b 2).extractLsb' 0 2 = 0 → exec .stsDec s = .next (finished s18 3)) ∧
      (3 ≤ rgnLen s → (b 2).extractLsb' 0 2 = 2 → exec .stsDec s = decLoop (rgnLen s) 3 s18))

/-- R192: one turn of the NACK loop at byte offset `q`, in the region's bytes, for both widths: the mandatory part, the reserved
bits, the optional fields, the append, and going on with E1'. -/
def Obligations.StsDecNackElement : Prop :=
  ∀ (s : State) (q fuel : Nat), s.Inv → RegionOK s →
    let b := rgnByte s
    let n := s.ctr.width.nackBytes
    let trailer := b (q + n - 1)
    let low := if s.ctr.width = .w12 then 0 else 2
    let reserved := if s.ctr.width = .w12 then trailer.extractLsb' 0 1 ≠ 0 else trailer.extractLsb' 0 3 ≠ 0
    let more := trailer.getLsbD (low + 3)
    let hasSo := trailer.getLsbD (low + 2)
    let hasRange := trailer.getLsbD (low + 1)
    let sn : Word := if s.ctr.width = .w12 then 0#20 ++ b q ++ trailer.extractLsb' 4 4
      else 0#14 ++ b q ++ b (q + 1) ++ trailer.extractLsb' 6 2
    let r := q + n
    let r' := r + 4 * hasSo.toNat
    let k := r' + hasRange.toNat
    let record : NackRec :=
      { sn := sn
        hasSo := hasSo
        soStart := if hasSo then b r ++ b (r + 1) else 0
        soEnd := if hasSo then b (r + 2) ++ b (r + 3) else 0
        hasRange := hasRange
        range := if hasRange then b r' else 0 }
    (rgnLen s < q + n → decLoop (fuel + 1) q s = .next (failed (markFailed s) .truncated)) ∧
    (q + n ≤ rgnLen s → reserved → decLoop (fuel + 1) q s = .next (failed (markFailed s) .reserved)) ∧
    (q + n ≤ rgnLen s → ¬ reserved → rgnLen s < k →
      decLoop (fuel + 1) q s = .next (failed (markFailed s) .truncated)) ∧
    (k ≤ rgnLen s → ¬ reserved → s.ctr.nacks.length = s.params.nackMax →
      decLoop (fuel + 1) q s = .next (failed (markFailed s) .nackFull)) ∧
    (k ≤ rgnLen s → ¬ reserved → s.ctr.nacks.length < s.params.nackMax →
      decLoop (fuel + 1) q s =
        if more then decLoop fuel k (appended s record) else .next (finished (appended s record) (BitVec.ofNat 32 k)))

/-- R191-R195: a region that starts with the PDU of a report decodes to that report, appended to the container, with RESULT the
PDU's length, for both widths, any number of records that fit, any D/C bit and any bytes after it. -/
def Obligations.StsDecReadsEveryReport : Prop :=
  ∀ (s : State) (ack : Word) (recs : List NackRec), s.Inv → RegionOK s → InWidth s.ctr.width ack recs →
    s.ctr.nacks.length + recs.length ≤ s.params.nackMax → RegionHolds s ack recs →
    exec .stsDec s = .next (decoded s ack recs)

/-- R191-R195: the other way: whatever `STS_DEC` completes without error is the PDU of a report, and the state after it is that
report's. Nothing malformed is accepted, and no bit but D/C is ignored. -/
def Obligations.StsDecAcceptsOnlyReports : Prop :=
  ∀ s t : State, s.Inv → exec .stsDec s = .next t → t.ecode = .ok →
    RegionOK s ∧ ∃ (ack : Word) (recs : List NackRec), InWidth s.ctr.width ack recs ∧
      s.ctr.nacks.length + recs.length ≤ s.params.nackMax ∧ RegionHolds s ack recs ∧ t = decoded s ack recs

/-- R190, R193, R194: a failing `STS_DEC` leaves what it committed: its records stay, FAILED is set unless the region check
failed, RESULT is 0, and nothing but the container and the completion changes. -/
def Obligations.StsDecFailureKeepsPartialReport : Prop :=
  ∀ s t : State, s.Inv → exec .stsDec s = .next t → t.ecode ≠ .ok →
    (¬ RegionOK s → t = failed s .region) ∧
    (RegionOK s → t.ctr.failed = true ∧ t.result = 0 ∧ t.ecode ∈ [.cpt, .truncated, .reserved, .nackFull] ∧
      (∃ new, t.ctr.nacks = s.ctr.nacks ++ new) ∧ t.ctr.width = s.ctr.width ∧
      t = failed { s with ctr := t.ctr } t.ecode)

/-- R203 (a), (b): encode, `STS_RST`, decode gives back the report: RESULT is the packed size both times, and ACK_SN, the records
and CTR_PSIZE are the same. -/
def Obligations.StatusRoundTrip : Prop :=
  ∀ s : State, s.Inv → RegionOK s → s.rgnStart.toNat + s.ctr.psize.toNat ≤ s.params.bufSize →
    InWidth s.ctr.width s.ctr.ackSn s.ctr.nacks →
    ∃ t u v, exec .stsEnc s = .next t ∧ t.result = s.ctr.psize ∧
      exec .stsRst t = .next u ∧ exec .stsDec u = .next v ∧ v.ecode = .ok ∧ v.result = s.ctr.psize ∧
      v.ctr.ackSn = s.ctr.ackSn ∧ v.ctr.nacks = s.ctr.nacks ∧ v.ctr.psize = s.ctr.psize

/-- R45: from reset, with any valid parameters and any script of host accesses, engine turns and resets, the cached packed size
is 3 plus the contributions of the records in every state the block reaches. -/
def Obligations.PackedSizeInEveryReachableState : Prop :=
  ∀ (p : Params) (n k : Nat) (script : List Event) (t : State), p.Valid →
    Host.Core.run core k (State.resetWith p n script) = .next t →
    t.ctr.psize.toNat = 3 + (t.ctr.nacks.map (contribution t.ctr.width)).sum

/-! ### What no command does -/

/-- R22, R25, R27, R28, R37-R39, R302: no command writes `CMD`, LOST, `CFG`, `ADDR`, `BF_DATA` or the staging registers. -/
def Obligations.CommandsKeepHostRegisters : Prop :=
  ∀ (i : Instr) (s t : State), exec i s = .next t →
    t.params = s.params ∧ t.cmd = s.cmd ∧ t.lost = s.lost ∧ t.snSize = s.snSize ∧ t.soLegacy = s.soLegacy ∧
      t.irqEn = s.irqEn ∧ t.addr = s.addr ∧ t.bfData = s.bfData ∧ t.nk = s.nk ∧ t.inputs = s.inputs ∧
      t.response = s.response ∧ t.freeCtr = s.freeCtr

/-- R83: `BUF`, `RGN_START`, `RGN_END`, the header registers, the container and its width are written only by the commands the
table names; whatever else a command is given, they keep their values. -/
def Obligations.OnlyNamedCommandsWrite : Prop :=
  ∀ (i : Instr) (s t : State), exec i s = .next t →
    (writesBuf i = false → t.buf = s.buf) ∧ (i ≠ .hdrWrp → t.rgnStart = s.rgnStart) ∧
    (i ≠ .stsEnc → t.rgnEnd = s.rgnEnd) ∧ (i ≠ .hdrRd → t.hdr = s.hdr) ∧
    (writesContainer i = false → t.ctr = s.ctr) ∧ (i ≠ .stsInit → t.ctr.width = s.ctr.width)

/-- R232: a command that completes with an error has written nothing but the completion, except `STS_DEC`. -/
def Obligations.ErrorsWriteNothing : Prop :=
  ∀ (i : Instr) (s t : State), exec i s = .next t → t.ecode ≠ .ok → i ≠ .stsDec → t = failed s t.ecode

/-! ### The host bus -/

/-- R63, R267: an access inside the block's window that is not one of the three legal kinds is a bus error and changes no state,
busy or idle; a legal one is no bus error. -/
def Obligations.BusErrorsChangeNothing : Prop :=
  ∀ (s : State) (width off : Nat) (v : Word) (rest : List Event) (a : Access), s.Inv → off < 0x20000 →
    (a = .read width (s.params.base + off) ∨ a = .write width (s.params.base + off) v) → HostNext s a rest →
    (¬ LegalAccess s.params width off → step s = .next (answered s rest .busError)) ∧
    (LegalAccess s.params width off → ∃ t, step s = .next t ∧ t.response ≠ .busError)

/-- R21-R39, R41, R62, R65: a legal read of an idle block returns the word of the register at its offset in the map, the
record's word (0 at or beyond N) or the byte, and has no side effect. -/
def Obligations.IdleReads : Prop :=
  ∀ (s : State) (rest : List Event), s.Inv → s.busy = false →
    (∀ e ∈ registerMap s, HostNext s (.read 32 (s.params.base + e.1)) rest →
      step s = .next (answered s rest (.word (BitVec.ofNat 32 e.2)))) ∧
    (∀ (entry word : Nat), entry < s.params.nackMax → word < 4 →
      HostNext s (.read 32 (s.params.base + 0x1000 + 16 * entry + 4 * word)) rest →
      step s = .next (answered s rest (.word (match s.ctr.nacks[entry]?, word with
        | some r, 0 => r.sn
        | some r, 1 => 0#16 ++ r.range ++ 0#6 ++ BitVec.ofBool r.hasRange ++ BitVec.ofBool r.hasSo
        | some r, 2 => r.soStart ++ r.soEnd
        | _, _ => 0)))) ∧
    (∀ (a : Nat), a < s.params.bufSize → HostNext s (.read 8 (s.params.base + 0x10000 + a)) rest →
      step s = .next (answered s rest (.byte (bufByte s a))))

/-- R44, R65 and the field tables of R21-R39: after a write to an idle block, the host-writable register at the offset holds the
written value in its stored bits and 0 in the others, and every other register, `BUF` and the NACK records are as before; a
write to a read-only register or to the NACK window changes nothing. -/
def Obligations.IdleRegisterWrites : Prop :=
  ∀ (s : State) (v : Word) (rest : List Event), s.Inv → s.busy = false →
    (∀ e ∈ storedBits, HostNext s (.write 32 (s.params.base + e.1) v) rest →
      ∃ t, step s = .next t ∧ wordAt t e.1 = some (v &&& e.2).toNat ∧
        (∀ off, off ≠ e.1 → wordAt t off = wordAt s off) ∧ t.buf = s.buf ∧ t.ctr.nacks = s.ctr.nacks ∧
        t.params = s.params ∧ t.inputs = rest ∧ t.response = .accepted) ∧
    (∀ off ∈ readOnlyOffsets, HostNext s (.write 32 (s.params.base + off) v) rest →
      step s = .next (answered s rest .accepted)) ∧
    (∀ off, 0x1000 ≤ off → off < 0x1000 + 16 * s.params.nackMax → off % 4 = 0 →
      HostNext s (.write 32 (s.params.base + off) v) rest → step s = .next (answered s rest .accepted))

/-- R62: an 8-bit write of an idle block's BUF window stores the byte, and every other byte and register stays. -/
def Obligations.IdleBufWrite : Prop :=
  ∀ (s : State) (a : Nat) (v : Word) (rest : List Event), s.Inv → s.busy = false → a < s.params.bufSize →
    HostNext s (.write 8 (s.params.base + 0x10000 + a) v) rest →
    ∃ m, step s = .next { answered s rest .accepted with buf := m } ∧
      memRead m a = some (v.extractLsb' 0 8) ∧ SameOutside s.buf m a 1

/-- R23: a write to `STATUS`, busy or not, clears exactly the sticky bits written with 1. -/
def Obligations.StatusWriteClearsStickyBits : Prop :=
  ∀ (s : State) (v : Word) (rest : List Event), HostNext s (.write 32 (s.params.base + 8) v) rest →
    step s = .next { answered s rest .accepted with
      done := if v.getLsbD 1 then false else s.done, lost := if v.getLsbD 2 then false else s.lost }

/-- R66: while the engine is busy, a legal write to anything but `STATUS` changes nothing except LOST; `ID`, `STATUS` and `CMD`
read as the map says; any other legal read returns a freely drawn value; a bus error is one as when idle. That the ECODE bits of
`STATUS` read as the code of the last completed command is the model's choice (log entry 20); so are the answer `accepted` (log
entry 8) and the free draws' form (log entries 4, 5). -/
def Obligations.BusyAccesses : Prop :=
  ∀ (s : State) (off : Nat) (rest : List Event), s.params.Valid → s.busy = true →
    (∀ (width : Nat) (v : Word), LegalAccess s.params width off → off ≠ 8 →
      HostNext s (.write width (s.params.base + off) v) rest →
      step s = .next { answered s rest .accepted with lost := true }) ∧
    (∀ v : Word, off = 8 → HostNext s (.write 32 (s.params.base + off) v) rest →
      step s = .next { answered s rest .accepted with
        done := s.done && !v.getLsbD 1, lost := s.lost && !v.getLsbD 2 }) ∧
    (∀ e ∈ registerMap s, e.1 ∈ [0x00, 0x04, 0x08] → HostNext s (.read 32 (s.params.base + e.1)) rest →
      step s = .next (answered s rest (.word (BitVec.ofNat 32 e.2)))) ∧
    (LegalAccess s.params 32 off → off ≠ 0 → off ≠ 4 → off ≠ 8 →
      HostNext s (.read 32 (s.params.base + off)) rest →
      step s = .next { answered s rest (.word (Config.busyWord s.freeCtr)) with freeCtr := s.freeCtr + 1 }) ∧
    (LegalAccess s.params 8 off → HostNext s (.read 8 (s.params.base + off)) rest →
      step s = .next { answered s rest (.byte (Config.busyByte s.freeCtr)) with freeCtr := s.freeCtr + 1 }) ∧
    (∀ (width : Nat) (v : Word) (a : Access), off < 0x20000 → ¬ LegalAccess s.params width off →
      (a = .read width (s.params.base + off) ∨ a = .write width (s.params.base + off) v) → HostNext s a rest →
      step s = .next (answered s rest .busError))
end

