-- ==== Sys2Proof/Laws/Memory.lean ====
section
/-! SUPPORT. The laws of `BUF`: read after write, the canonical form, what writing a run of bytes does. -/

namespace Sys2Proof.Machine

theorem memRead_isSome_iff (m : List Host.Cell) (a : Nat) : (memRead m a).isSome ↔ a ∈ m.map Prod.fst := by
  induction m with
  | nil => simp [memRead]
  | cons c t ih =>
    obtain ⟨k, v⟩ := c
    by_cases h : k = a
    · simp [memRead, h]
    · simp [memRead, h, ih, Ne.symm h]

theorem memWrite_isSome_iff (m : List Host.Cell) (a : Nat) (v : Byte) :
    (memWrite m a v).isSome ↔ a ∈ m.map Prod.fst := by
  induction m with
  | nil => simp [memWrite]
  | cons c t ih =>
    obtain ⟨k, w⟩ := c
    by_cases h : k = a
    · simp [memWrite, h]
    · simp [memWrite, h, ih, Ne.symm h]

/-- What a byte write can do: the addresses stay, and exactly the byte at `a` becomes `v`. -/
theorem memWrite_spec {m m' : List Host.Cell} {a : Nat} {v : Byte} (h : memWrite m a v = some m') :
    m'.map Prod.fst = m.map Prod.fst ∧ ∀ b, memRead m' b = if b = a then some v else memRead m b := by
  induction m generalizing m' with
  | nil => simp [memWrite] at h
  | cons c t ih =>
    obtain ⟨k, w⟩ := c
    by_cases hk : k = a
    · simp only [memWrite, hk, if_true, Option.some.injEq] at h
      subst h hk
      refine ⟨rfl, fun b => ?_⟩
      by_cases hb : b = k
      · simp [memRead, hb]
      · simp [memRead, hb, Ne.symm hb]
    · simp only [memWrite, hk, if_false, Option.map_eq_some_iff] at h
      obtain ⟨t', ht, rfl⟩ := h
      obtain ⟨hkeys, hread⟩ := ih ht
      refine ⟨by simp [hkeys], fun b => ?_⟩
      by_cases hb : k = b
      · subst hb; simp [memRead, hk]
      · simp [memRead, hb, hread]

theorem memRead_memWrite_same {m m' : List Host.Cell} {a : Nat} {v : Byte} (h : memWrite m a v = some m') :
    memRead m' a = some v := by simp [(memWrite_spec h).2]

theorem memRead_memWrite_other {m m' : List Host.Cell} {a b : Nat} {v : Byte} (h : memWrite m a v = some m')
    (hb : b ≠ a) : memRead m' b = memRead m b := by simp [(memWrite_spec h).2, hb]

theorem memWrite_keeps_wf {size : Nat} {m m' : List Host.Cell} {a : Nat} {v : Byte} (hm : Memory.wf size m)
    (h : memWrite m a v = some m') : Memory.wf size m' := (memWrite_spec h).1.trans hm

theorem memRead_isSome_of_wf {size : Nat} {m : List Host.Cell} (hm : Memory.wf size m) (a : Nat) :
    (memRead m a).isSome ↔ a < size := by rw [memRead_isSome_iff, hm, List.mem_range]

/-- In the canonical form every address below the size has a byte … -/
theorem memRead_of_lt {size : Nat} {m : List Host.Cell} (hm : Memory.wf size m) {a : Nat} (h : a < size) :
    ∃ b, memRead m a = some b := Option.isSome_iff_exists.1 ((memRead_isSome_of_wf hm a).2 h)

/-- … and no other address has one. -/
theorem memRead_of_ge {size : Nat} {m : List Host.Cell} (hm : Memory.wf size m) {a : Nat} (h : size ≤ a) :
    memRead m a = none := by
  rw [← Option.not_isSome_iff_eq_none, memRead_isSome_of_wf hm]; omega

theorem memWrite_of_lt {size : Nat} {m : List Host.Cell} (hm : Memory.wf size m) {a : Nat} (h : a < size) (v : Byte) :
    ∃ m', memWrite m a v = some m' := by
  refine Option.isSome_iff_exists.1 ((memWrite_isSome_iff m a v).2 ?_)
  rw [hm, List.mem_range]; exact h

/-- Memories in the canonical form that read alike are equal data. -/
theorem memory_ext {size : Nat} {m m' : List Host.Cell} (hm : Memory.wf size m) (hm' : Memory.wf size m')
    (h : ∀ a, memRead m a = memRead m' a) : m = m' := by
  have hnodup : (m.map Prod.fst).Nodup := by rw [hm]; exact List.nodup_range
  have hkeys : m.map Prod.fst = m'.map Prod.fst := hm.trans hm'.symm
  clear hm hm'
  induction m generalizing m' with
  | nil => simpa using hkeys.symm
  | cons c t ih =>
    obtain ⟨k, v⟩ := c
    match m', hkeys, h with
    | (k', v') :: t', hkeys, h =>
      simp only [List.map_cons, List.cons.injEq] at hkeys
      obtain ⟨rfl, htail⟩ := hkeys
      simp only [List.map_cons, List.nodup_cons] at hnodup
      have hv : v = v' := by simpa [memRead] using h k
      subst hv
      rw [ih (fun a => ?_) hnodup.2 htail]
      by_cases ha : k = a
      · subst ha
        have h1 : memRead t k = none := by
          rw [← Option.not_isSome_iff_eq_none, memRead_isSome_iff]; exact hnodup.1
        have h2 : memRead t' k = none := by
          rw [← Option.not_isSome_iff_eq_none, memRead_isSome_iff, ← htail]; exact hnodup.1
        rw [h1, h2]
      · simpa [memRead, ha] using h a

theorem freshBuf_wf (size n : Nat) : Memory.wf size (freshBuf size n) := by
  simp [Memory.wf, freshBuf, Function.comp_def]

/-- What writing a run of bytes can do: the addresses stay, and exactly the run's bytes are stored. -/
theorem writeBytes_spec {m m' : List Host.Cell} {a : Nat} {bytes : List Byte} (h : writeBytes m a bytes = some m') :
    m'.map Prod.fst = m.map Prod.fst ∧
      ∀ b, memRead m' b = if a ≤ b ∧ b < a + bytes.length then bytes[b - a]? else memRead m b := by
  induction bytes generalizing m a with
  | nil =>
    simp only [writeBytes, Option.some.injEq] at h
    subst h
    exact ⟨rfl, fun b => by rw [if_neg (by simp)]⟩
  | cons x t ih =>
    rw [writeBytes] at h
    split at h
    · next m1 h1 =>
      obtain ⟨hkeys, hread⟩ := ih h
      obtain ⟨hkeys1, hread1⟩ := memWrite_spec h1
      refine ⟨hkeys.trans hkeys1, fun b => ?_⟩
      rw [hread, hread1]
      by_cases hb : b = a
      · subst hb
        simp
      · by_cases hin : a ≤ b ∧ b < a + (x :: t).length
        · simp only [List.length_cons] at hin
          have : b - a = (b - (a + 1)) + 1 := by omega
          rw [if_pos (by omega), if_pos (by simpa using hin), this, List.getElem?_cons_succ]
        · simp only [List.length_cons] at hin
          rw [if_neg (by omega), if_neg hb, if_neg (by simpa using hin)]
    · cases h

theorem writeBytes_keeps_wf {size : Nat} {m m' : List Host.Cell} {a : Nat} {bytes : List Byte} (hm : Memory.wf size m)
    (h : writeBytes m a bytes = some m') : Memory.wf size m' := (writeBytes_spec h).1.trans hm

/-- A run that fits can be written. -/
theorem writeBytes_of_le {size : Nat} {m : List Host.Cell} (hm : Memory.wf size m) {a : Nat} {bytes : List Byte}
    (h : a + bytes.length ≤ size) : ∃ m', writeBytes m a bytes = some m' := by
  induction bytes generalizing m a with
  | nil => exact ⟨m, rfl⟩
  | cons x t ih =>
    simp only [List.length_cons] at h
    obtain ⟨m1, h1⟩ := memWrite_of_lt hm (a := a) (by omega) x
    obtain ⟨m2, h2⟩ := ih (memWrite_keeps_wf hm h1) (a := a + 1) (by omega)
    exact ⟨m2, by simp [writeBytes, h1, h2]⟩

end Sys2Proof.Machine
end

