-- ==== Sys2Proof/Laws/Bits.lean ====
section
/-! SUPPORT. The small lemmas of the bit-field primitives: one bit of a byte, when `GetBits` and `PutBits` answer, and that
`PutBits` keeps the canonical form. -/

namespace Sys2Proof.Machine

/-- Reading a bit of a byte after setting one: the bit set, if it is the same, else the old bit. -/
theorem bitAt_setBitAt (b : Byte) (q r : Nat) (x : Bool) :
    bitAt (setBitAt b q x) r = if r % 8 = q % 8 then x else bitAt b r := by
  have hq : q % 8 < 8 := Nat.mod_lt _ (by decide)
  have hr : r % 8 < 8 := Nat.mod_lt _ (by decide)
  unfold bitAt setBitAt
  generalize q % 8 = i at hq ⊢
  generalize r % 8 = j at hr ⊢
  by_cases hij : j = i
  · subst hij
    (cases x <;> simp [BitVec.getLsbD_or, BitVec.getLsbD_and, BitVec.getLsbD_shiftLeft]); omega
  · have hne : 7 - j ≠ 7 - i := by omega
    cases x <;> simp [hij, BitVec.getLsbD_or, BitVec.getLsbD_and, BitVec.getLsbD_shiftLeft]
    · intro _; omega
    · intro h1 h2; omega

theorem getBitsLoop_of_lt {size : Nat} {m : List Host.Cell} (hm : Memory.wf size m) {a0 : Nat} (n q v : Nat)
    (h : n = 0 ∨ a0 + (q + n - 1) / 8 < size) : ∃ r, getBitsLoop m a0 q n v = some r := by
  induction n generalizing q v with
  | zero => exact ⟨v, rfl⟩
  | succ n ih =>
    obtain ⟨b, hb⟩ := memRead_of_lt hm (a := a0 + q / 8) (by omega)
    obtain ⟨r, hr⟩ := ih (q + 1) (2 * v + (bitAt b q).toNat) (by omega)
    exact ⟨r, by rw [getBitsLoop, hb]; exact hr⟩

/-- `GetBits` answers wherever the field lies inside `BUF` (R120). -/
theorem getBits_of_lt {size : Nat} {m : List Host.Cell} (hm : Memory.wf size m) {a0 p n : Nat}
    (h : n = 0 ∨ a0 + (p + n - 1) / 8 < size) : ∃ r, getBits m a0 p n = some r := getBitsLoop_of_lt hm n p 0 h

/-- `PutBits` keeps the addresses. -/
theorem putBits_keys {m m' : List Host.Cell} {a0 : Nat} {v : Word} (n q : Nat) (h : putBits m a0 q n v = some m') :
    m'.map Prod.fst = m.map Prod.fst := by
  induction n generalizing m q with
  | zero =>
    simp only [putBits, Option.some.injEq] at h
    rw [h]
  | succ n ih =>
    rw [putBits] at h
    split at h
    · split at h
      · next m1 h1 => exact (ih (q + 1) h).trans (memWrite_spec h1).1
      · cases h
    · cases h

theorem putBits_keeps_wf {size : Nat} {m m' : List Host.Cell} {a0 p n : Nat} {v : Word} (hm : Memory.wf size m)
    (h : putBits m a0 p n v = some m') : Memory.wf size m' := (putBits_keys n p h).trans hm

/-- `PutBits` answers wherever the field lies inside `BUF` (R121). -/
theorem putBits_of_lt {size : Nat} {m : List Host.Cell} (hm : Memory.wf size m) {a0 : Nat} {v : Word} (n q : Nat)
    (h : n = 0 ∨ a0 + (q + n - 1) / 8 < size) : ∃ m', putBits m a0 q n v = some m' := by
  induction n generalizing m q with
  | zero => exact ⟨m, rfl⟩
  | succ n ih =>
    obtain ⟨b, hb⟩ := memRead_of_lt hm (a := a0 + q / 8) (by omega)
    obtain ⟨m1, h1⟩ := memWrite_of_lt hm (a := a0 + q / 8) (by omega) (setBitAt b q (v.getLsbD n))
    obtain ⟨m2, h2⟩ := ih (memWrite_keeps_wf hm h1) (q + 1) (by omega)
    exact ⟨m2, by rw [putBits, hb]; simp only [h1]; exact h2⟩

end Sys2Proof.Machine
end

