-- ==== Sys2Proof/Laws/State.lean ====
section
/-! SUPPORT. One lemma per field per named update of State, true by rfl, so that no later proof unfolds an update. -/

namespace Sys2Proof.Machine

variable (s : State)

/-! ### `State.complete` -/

@[simp] theorem State.complete_params (e : ErrCode) (v : Word) : (s.complete e v).params = s.params := rfl
@[simp] theorem State.complete_buf (e : ErrCode) (v : Word) : (s.complete e v).buf = s.buf := rfl
@[simp] theorem State.complete_cmd (e : ErrCode) (v : Word) : (s.complete e v).cmd = s.cmd := rfl
@[simp] theorem State.complete_busy (e : ErrCode) (v : Word) : (s.complete e v).busy = false := rfl
@[simp] theorem State.complete_done (e : ErrCode) (v : Word) : (s.complete e v).done = true := rfl
@[simp] theorem State.complete_lost (e : ErrCode) (v : Word) : (s.complete e v).lost = s.lost := rfl
@[simp] theorem State.complete_ecode (e : ErrCode) (v : Word) : (s.complete e v).ecode = e := rfl
@[simp] theorem State.complete_result (e : ErrCode) (v : Word) : (s.complete e v).result = v := rfl
@[simp] theorem State.complete_snSize (e : ErrCode) (v : Word) : (s.complete e v).snSize = s.snSize := rfl
@[simp] theorem State.complete_soLegacy (e : ErrCode) (v : Word) : (s.complete e v).soLegacy = s.soLegacy := rfl
@[simp] theorem State.complete_irqEn (e : ErrCode) (v : Word) : (s.complete e v).irqEn = s.irqEn := rfl
@[simp] theorem State.complete_rgnStart (e : ErrCode) (v : Word) : (s.complete e v).rgnStart = s.rgnStart := rfl
@[simp] theorem State.complete_rgnEnd (e : ErrCode) (v : Word) : (s.complete e v).rgnEnd = s.rgnEnd := rfl
@[simp] theorem State.complete_addr (e : ErrCode) (v : Word) : (s.complete e v).addr = s.addr := rfl
@[simp] theorem State.complete_bfData (e : ErrCode) (v : Word) : (s.complete e v).bfData = s.bfData := rfl
@[simp] theorem State.complete_hdr (e : ErrCode) (v : Word) : (s.complete e v).hdr = s.hdr := rfl
@[simp] theorem State.complete_ctr (e : ErrCode) (v : Word) : (s.complete e v).ctr = s.ctr := rfl
@[simp] theorem State.complete_nk (e : ErrCode) (v : Word) : (s.complete e v).nk = s.nk := rfl
@[simp] theorem State.complete_inputs (e : ErrCode) (v : Word) : (s.complete e v).inputs = s.inputs := rfl
@[simp] theorem State.complete_response (e : ErrCode) (v : Word) : (s.complete e v).response = s.response := rfl
@[simp] theorem State.complete_freeCtr (e : ErrCode) (v : Word) : (s.complete e v).freeCtr = s.freeCtr := rfl

/-! ### `State.startCommand` -/

@[simp] theorem State.startCommand_params (c : Word) : (s.startCommand c).params = s.params := rfl
@[simp] theorem State.startCommand_buf (c : Word) : (s.startCommand c).buf = s.buf := rfl
@[simp] theorem State.startCommand_cmd (c : Word) : (s.startCommand c).cmd = c := rfl
@[simp] theorem State.startCommand_busy (c : Word) : (s.startCommand c).busy = true := rfl
@[simp] theorem State.startCommand_done (c : Word) : (s.startCommand c).done = false := rfl
@[simp] theorem State.startCommand_lost (c : Word) : (s.startCommand c).lost = s.lost := rfl
@[simp] theorem State.startCommand_ecode (c : Word) : (s.startCommand c).ecode = s.ecode := rfl
@[simp] theorem State.startCommand_result (c : Word) : (s.startCommand c).result = s.result := rfl
@[simp] theorem State.startCommand_snSize (c : Word) : (s.startCommand c).snSize = s.snSize := rfl
@[simp] theorem State.startCommand_soLegacy (c : Word) : (s.startCommand c).soLegacy = s.soLegacy := rfl
@[simp] theorem State.startCommand_irqEn (c : Word) : (s.startCommand c).irqEn = s.irqEn := rfl
@[simp] theorem State.startCommand_rgnStart (c : Word) : (s.startCommand c).rgnStart = s.rgnStart := rfl
@[simp] theorem State.startCommand_rgnEnd (c : Word) : (s.startCommand c).rgnEnd = s.rgnEnd := rfl
@[simp] theorem State.startCommand_addr (c : Word) : (s.startCommand c).addr = s.addr := rfl
@[simp] theorem State.startCommand_bfData (c : Word) : (s.startCommand c).bfData = s.bfData := rfl
@[simp] theorem State.startCommand_hdr (c : Word) : (s.startCommand c).hdr = s.hdr := rfl
@[simp] theorem State.startCommand_ctr (c : Word) : (s.startCommand c).ctr = s.ctr := rfl
@[simp] theorem State.startCommand_nk (c : Word) : (s.startCommand c).nk = s.nk := rfl
@[simp] theorem State.startCommand_inputs (c : Word) : (s.startCommand c).inputs = s.inputs := rfl
@[simp] theorem State.startCommand_response (c : Word) : (s.startCommand c).response = s.response := rfl
@[simp] theorem State.startCommand_freeCtr (c : Word) : (s.startCommand c).freeCtr = s.freeCtr := rfl

/-! ### `State.clearSticky` -/

@[simp] theorem State.clearSticky_params (v : Word) : (s.clearSticky v).params = s.params := rfl
@[simp] theorem State.clearSticky_buf (v : Word) : (s.clearSticky v).buf = s.buf := rfl
@[simp] theorem State.clearSticky_cmd (v : Word) : (s.clearSticky v).cmd = s.cmd := rfl
@[simp] theorem State.clearSticky_busy (v : Word) : (s.clearSticky v).busy = s.busy := rfl
@[simp] theorem State.clearSticky_done (v : Word) : (s.clearSticky v).done = (s.done && !v.getLsbD 1) := rfl
@[simp] theorem State.clearSticky_lost (v : Word) : (s.clearSticky v).lost = (s.lost && !v.getLsbD 2) := rfl
@[simp] theorem State.clearSticky_ecode (v : Word) : (s.clearSticky v).ecode = s.ecode := rfl
@[simp] theorem State.clearSticky_result (v : Word) : (s.clearSticky v).result = s.result := rfl
@[simp] theorem State.clearSticky_snSize (v : Word) : (s.clearSticky v).snSize = s.snSize := rfl
@[simp] theorem State.clearSticky_soLegacy (v : Word) : (s.clearSticky v).soLegacy = s.soLegacy := rfl
@[simp] theorem State.clearSticky_irqEn (v : Word) : (s.clearSticky v).irqEn = s.irqEn := rfl
@[simp] theorem State.clearSticky_rgnStart (v : Word) : (s.clearSticky v).rgnStart = s.rgnStart := rfl
@[simp] theorem State.clearSticky_rgnEnd (v : Word) : (s.clearSticky v).rgnEnd = s.rgnEnd := rfl
@[simp] theorem State.clearSticky_addr (v : Word) : (s.clearSticky v).addr = s.addr := rfl
@[simp] theorem State.clearSticky_bfData (v : Word) : (s.clearSticky v).bfData = s.bfData := rfl
@[simp] theorem State.clearSticky_hdr (v : Word) : (s.clearSticky v).hdr = s.hdr := rfl
@[simp] theorem State.clearSticky_ctr (v : Word) : (s.clearSticky v).ctr = s.ctr := rfl
@[simp] theorem State.clearSticky_nk (v : Word) : (s.clearSticky v).nk = s.nk := rfl
@[simp] theorem State.clearSticky_inputs (v : Word) : (s.clearSticky v).inputs = s.inputs := rfl
@[simp] theorem State.clearSticky_response (v : Word) : (s.clearSticky v).response = s.response := rfl
@[simp] theorem State.clearSticky_freeCtr (v : Word) : (s.clearSticky v).freeCtr = s.freeCtr := rfl

/-! ### `State.dropWrite` -/

@[simp] theorem State.dropWrite_params : (s.dropWrite).params = s.params := rfl
@[simp] theorem State.dropWrite_buf : (s.dropWrite).buf = s.buf := rfl
@[simp] theorem State.dropWrite_cmd : (s.dropWrite).cmd = s.cmd := rfl
@[simp] theorem State.dropWrite_busy : (s.dropWrite).busy = s.busy := rfl
@[simp] theorem State.dropWrite_done : (s.dropWrite).done = s.done := rfl
@[simp] theorem State.dropWrite_lost : (s.dropWrite).lost = true := rfl
@[simp] theorem State.dropWrite_ecode : (s.dropWrite).ecode = s.ecode := rfl
@[simp] theorem State.dropWrite_result : (s.dropWrite).result = s.result := rfl
@[simp] theorem State.dropWrite_snSize : (s.dropWrite).snSize = s.snSize := rfl
@[simp] theorem State.dropWrite_soLegacy : (s.dropWrite).soLegacy = s.soLegacy := rfl
@[simp] theorem State.dropWrite_irqEn : (s.dropWrite).irqEn = s.irqEn := rfl
@[simp] theorem State.dropWrite_rgnStart : (s.dropWrite).rgnStart = s.rgnStart := rfl
@[simp] theorem State.dropWrite_rgnEnd : (s.dropWrite).rgnEnd = s.rgnEnd := rfl
@[simp] theorem State.dropWrite_addr : (s.dropWrite).addr = s.addr := rfl
@[simp] theorem State.dropWrite_bfData : (s.dropWrite).bfData = s.bfData := rfl
@[simp] theorem State.dropWrite_hdr : (s.dropWrite).hdr = s.hdr := rfl
@[simp] theorem State.dropWrite_ctr : (s.dropWrite).ctr = s.ctr := rfl
@[simp] theorem State.dropWrite_nk : (s.dropWrite).nk = s.nk := rfl
@[simp] theorem State.dropWrite_inputs : (s.dropWrite).inputs = s.inputs := rfl
@[simp] theorem State.dropWrite_response : (s.dropWrite).response = s.response := rfl
@[simp] theorem State.dropWrite_freeCtr : (s.dropWrite).freeCtr = s.freeCtr := rfl

/-! ### `State.withBuf` -/

@[simp] theorem State.withBuf_params (m : List Host.Cell) : (s.withBuf m).params = s.params := rfl
@[simp] theorem State.withBuf_buf (m : List Host.Cell) : (s.withBuf m).buf = m := rfl
@[simp] theorem State.withBuf_cmd (m : List Host.Cell) : (s.withBuf m).cmd = s.cmd := rfl
@[simp] theorem State.withBuf_busy (m : List Host.Cell) : (s.withBuf m).busy = s.busy := rfl
@[simp] theorem State.withBuf_done (m : List Host.Cell) : (s.withBuf m).done = s.done := rfl
@[simp] theorem State.withBuf_lost (m : List Host.Cell) : (s.withBuf m).lost = s.lost := rfl
@[simp] theorem State.withBuf_ecode (m : List Host.Cell) : (s.withBuf m).ecode = s.ecode := rfl
@[simp] theorem State.withBuf_result (m : List Host.Cell) : (s.withBuf m).result = s.result := rfl
@[simp] theorem State.withBuf_snSize (m : List Host.Cell) : (s.withBuf m).snSize = s.snSize := rfl
@[simp] theorem State.withBuf_soLegacy (m : List Host.Cell) : (s.withBuf m).soLegacy = s.soLegacy := rfl
@[simp] theorem State.withBuf_irqEn (m : List Host.Cell) : (s.withBuf m).irqEn = s.irqEn := rfl
@[simp] theorem State.withBuf_rgnStart (m : List Host.Cell) : (s.withBuf m).rgnStart = s.rgnStart := rfl
@[simp] theorem State.withBuf_rgnEnd (m : List Host.Cell) : (s.withBuf m).rgnEnd = s.rgnEnd := rfl
@[simp] theorem State.withBuf_addr (m : List Host.Cell) : (s.withBuf m).addr = s.addr := rfl
@[simp] theorem State.withBuf_bfData (m : List Host.Cell) : (s.withBuf m).bfData = s.bfData := rfl
@[simp] theorem State.withBuf_hdr (m : List Host.Cell) : (s.withBuf m).hdr = s.hdr := rfl
@[simp] theorem State.withBuf_ctr (m : List Host.Cell) : (s.withBuf m).ctr = s.ctr := rfl
@[simp] theorem State.withBuf_nk (m : List Host.Cell) : (s.withBuf m).nk = s.nk := rfl
@[simp] theorem State.withBuf_inputs (m : List Host.Cell) : (s.withBuf m).inputs = s.inputs := rfl
@[simp] theorem State.withBuf_response (m : List Host.Cell) : (s.withBuf m).response = s.response := rfl
@[simp] theorem State.withBuf_freeCtr (m : List Host.Cell) : (s.withBuf m).freeCtr = s.freeCtr := rfl

/-! ### `State.withCtr` -/

@[simp] theorem State.withCtr_params (c : Container) : (s.withCtr c).params = s.params := rfl
@[simp] theorem State.withCtr_buf (c : Container) : (s.withCtr c).buf = s.buf := rfl
@[simp] theorem State.withCtr_cmd (c : Container) : (s.withCtr c).cmd = s.cmd := rfl
@[simp] theorem State.withCtr_busy (c : Container) : (s.withCtr c).busy = s.busy := rfl
@[simp] theorem State.withCtr_done (c : Container) : (s.withCtr c).done = s.done := rfl
@[simp] theorem State.withCtr_lost (c : Container) : (s.withCtr c).lost = s.lost := rfl
@[simp] theorem State.withCtr_ecode (c : Container) : (s.withCtr c).ecode = s.ecode := rfl
@[simp] theorem State.withCtr_result (c : Container) : (s.withCtr c).result = s.result := rfl
@[simp] theorem State.withCtr_snSize (c : Container) : (s.withCtr c).snSize = s.snSize := rfl
@[simp] theorem State.withCtr_soLegacy (c : Container) : (s.withCtr c).soLegacy = s.soLegacy := rfl
@[simp] theorem State.withCtr_irqEn (c : Container) : (s.withCtr c).irqEn = s.irqEn := rfl
@[simp] theorem State.withCtr_rgnStart (c : Container) : (s.withCtr c).rgnStart = s.rgnStart := rfl
@[simp] theorem State.withCtr_rgnEnd (c : Container) : (s.withCtr c).rgnEnd = s.rgnEnd := rfl
@[simp] theorem State.withCtr_addr (c : Container) : (s.withCtr c).addr = s.addr := rfl
@[simp] theorem State.withCtr_bfData (c : Container) : (s.withCtr c).bfData = s.bfData := rfl
@[simp] theorem State.withCtr_hdr (c : Container) : (s.withCtr c).hdr = s.hdr := rfl
@[simp] theorem State.withCtr_ctr (c : Container) : (s.withCtr c).ctr = c := rfl
@[simp] theorem State.withCtr_nk (c : Container) : (s.withCtr c).nk = s.nk := rfl
@[simp] theorem State.withCtr_inputs (c : Container) : (s.withCtr c).inputs = s.inputs := rfl
@[simp] theorem State.withCtr_response (c : Container) : (s.withCtr c).response = s.response := rfl
@[simp] theorem State.withCtr_freeCtr (c : Container) : (s.withCtr c).freeCtr = s.freeCtr := rfl

/-! ### `State.withHdr` -/

@[simp] theorem State.withHdr_params (h : HeaderRegs) : (s.withHdr h).params = s.params := rfl
@[simp] theorem State.withHdr_buf (h : HeaderRegs) : (s.withHdr h).buf = s.buf := rfl
@[simp] theorem State.withHdr_cmd (h : HeaderRegs) : (s.withHdr h).cmd = s.cmd := rfl
@[simp] theorem State.withHdr_busy (h : HeaderRegs) : (s.withHdr h).busy = s.busy := rfl
@[simp] theorem State.withHdr_done (h : HeaderRegs) : (s.withHdr h).done = s.done := rfl
@[simp] theorem State.withHdr_lost (h : HeaderRegs) : (s.withHdr h).lost = s.lost := rfl
@[simp] theorem State.withHdr_ecode (h : HeaderRegs) : (s.withHdr h).ecode = s.ecode := rfl
@[simp] theorem State.withHdr_result (h : HeaderRegs) : (s.withHdr h).result = s.result := rfl
@[simp] theorem State.withHdr_snSize (h : HeaderRegs) : (s.withHdr h).snSize = s.snSize := rfl
@[simp] theorem State.withHdr_soLegacy (h : HeaderRegs) : (s.withHdr h).soLegacy = s.soLegacy := rfl
@[simp] theorem State.withHdr_irqEn (h : HeaderRegs) : (s.withHdr h).irqEn = s.irqEn := rfl
@[simp] theorem State.withHdr_rgnStart (h : HeaderRegs) : (s.withHdr h).rgnStart = s.rgnStart := rfl
@[simp] theorem State.withHdr_rgnEnd (h : HeaderRegs) : (s.withHdr h).rgnEnd = s.rgnEnd := rfl
@[simp] theorem State.withHdr_addr (h : HeaderRegs) : (s.withHdr h).addr = s.addr := rfl
@[simp] theorem State.withHdr_bfData (h : HeaderRegs) : (s.withHdr h).bfData = s.bfData := rfl
@[simp] theorem State.withHdr_hdr (h : HeaderRegs) : (s.withHdr h).hdr = h := rfl
@[simp] theorem State.withHdr_ctr (h : HeaderRegs) : (s.withHdr h).ctr = s.ctr := rfl
@[simp] theorem State.withHdr_nk (h : HeaderRegs) : (s.withHdr h).nk = s.nk := rfl
@[simp] theorem State.withHdr_inputs (h : HeaderRegs) : (s.withHdr h).inputs = s.inputs := rfl
@[simp] theorem State.withHdr_response (h : HeaderRegs) : (s.withHdr h).response = s.response := rfl
@[simp] theorem State.withHdr_freeCtr (h : HeaderRegs) : (s.withHdr h).freeCtr = s.freeCtr := rfl

/-! ### `State.withRegion` -/

@[simp] theorem State.withRegion_params (lo hi : Word) : (s.withRegion lo hi).params = s.params := rfl
@[simp] theorem State.withRegion_buf (lo hi : Word) : (s.withRegion lo hi).buf = s.buf := rfl
@[simp] theorem State.withRegion_cmd (lo hi : Word) : (s.withRegion lo hi).cmd = s.cmd := rfl
@[simp] theorem State.withRegion_busy (lo hi : Word) : (s.withRegion lo hi).busy = s.busy := rfl
@[simp] theorem State.withRegion_done (lo hi : Word) : (s.withRegion lo hi).done = s.done := rfl
@[simp] theorem State.withRegion_lost (lo hi : Word) : (s.withRegion lo hi).lost = s.lost := rfl
@[simp] theorem State.withRegion_ecode (lo hi : Word) : (s.withRegion lo hi).ecode = s.ecode := rfl
@[simp] theorem State.withRegion_result (lo hi : Word) : (s.withRegion lo hi).result = s.result := rfl
@[simp] theorem State.withRegion_snSize (lo hi : Word) : (s.withRegion lo hi).snSize = s.snSize := rfl
@[simp] theorem State.withRegion_soLegacy (lo hi : Word) : (s.withRegion lo hi).soLegacy = s.soLegacy := rfl
@[simp] theorem State.withRegion_irqEn (lo hi : Word) : (s.withRegion lo hi).irqEn = s.irqEn := rfl
@[simp] theorem State.withRegion_rgnStart (lo hi : Word) : (s.withRegion lo hi).rgnStart = lo := rfl
@[simp] theorem State.withRegion_rgnEnd (lo hi : Word) : (s.withRegion lo hi).rgnEnd = hi := rfl
@[simp] theorem State.withRegion_addr (lo hi : Word) : (s.withRegion lo hi).addr = s.addr := rfl
@[simp] theorem State.withRegion_bfData (lo hi : Word) : (s.withRegion lo hi).bfData = s.bfData := rfl
@[simp] theorem State.withRegion_hdr (lo hi : Word) : (s.withRegion lo hi).hdr = s.hdr := rfl
@[simp] theorem State.withRegion_ctr (lo hi : Word) : (s.withRegion lo hi).ctr = s.ctr := rfl
@[simp] theorem State.withRegion_nk (lo hi : Word) : (s.withRegion lo hi).nk = s.nk := rfl
@[simp] theorem State.withRegion_inputs (lo hi : Word) : (s.withRegion lo hi).inputs = s.inputs := rfl
@[simp] theorem State.withRegion_response (lo hi : Word) : (s.withRegion lo hi).response = s.response := rfl
@[simp] theorem State.withRegion_freeCtr (lo hi : Word) : (s.withRegion lo hi).freeCtr = s.freeCtr := rfl

/-! ### `State.withCommand` -/

@[simp] theorem State.withCommand_params (c : Word) : (s.withCommand c).params = s.params := rfl
@[simp] theorem State.withCommand_buf (c : Word) : (s.withCommand c).buf = s.buf := rfl
@[simp] theorem State.withCommand_cmd (c : Word) : (s.withCommand c).cmd = c := rfl
@[simp] theorem State.withCommand_busy (c : Word) : (s.withCommand c).busy = true := rfl
@[simp] theorem State.withCommand_done (c : Word) : (s.withCommand c).done = false := rfl
@[simp] theorem State.withCommand_lost (c : Word) : (s.withCommand c).lost = s.lost := rfl
@[simp] theorem State.withCommand_ecode (c : Word) : (s.withCommand c).ecode = s.ecode := rfl
@[simp] theorem State.withCommand_result (c : Word) : (s.withCommand c).result = s.result := rfl
@[simp] theorem State.withCommand_snSize (c : Word) : (s.withCommand c).snSize = s.snSize := rfl
@[simp] theorem State.withCommand_soLegacy (c : Word) : (s.withCommand c).soLegacy = s.soLegacy := rfl
@[simp] theorem State.withCommand_irqEn (c : Word) : (s.withCommand c).irqEn = s.irqEn := rfl
@[simp] theorem State.withCommand_rgnStart (c : Word) : (s.withCommand c).rgnStart = s.rgnStart := rfl
@[simp] theorem State.withCommand_rgnEnd (c : Word) : (s.withCommand c).rgnEnd = s.rgnEnd := rfl
@[simp] theorem State.withCommand_addr (c : Word) : (s.withCommand c).addr = s.addr := rfl
@[simp] theorem State.withCommand_bfData (c : Word) : (s.withCommand c).bfData = s.bfData := rfl
@[simp] theorem State.withCommand_hdr (c : Word) : (s.withCommand c).hdr = s.hdr := rfl
@[simp] theorem State.withCommand_ctr (c : Word) : (s.withCommand c).ctr = s.ctr := rfl
@[simp] theorem State.withCommand_nk (c : Word) : (s.withCommand c).nk = s.nk := rfl
@[simp] theorem State.withCommand_inputs (c : Word) : (s.withCommand c).inputs = [] := rfl
@[simp] theorem State.withCommand_response (c : Word) : (s.withCommand c).response = s.response := rfl
@[simp] theorem State.withCommand_freeCtr (c : Word) : (s.withCommand c).freeCtr = s.freeCtr := rfl

/-! ### `State.withInputs` -/

@[simp] theorem State.withInputs_params (rest : List Event) : (s.withInputs rest).params = s.params := rfl
@[simp] theorem State.withInputs_buf (rest : List Event) : (s.withInputs rest).buf = s.buf := rfl
@[simp] theorem State.withInputs_cmd (rest : List Event) : (s.withInputs rest).cmd = s.cmd := rfl
@[simp] theorem State.withInputs_busy (rest : List Event) : (s.withInputs rest).busy = s.busy := rfl
@[simp] theorem State.withInputs_done (rest : List Event) : (s.withInputs rest).done = s.done := rfl
@[simp] theorem State.withInputs_lost (rest : List Event) : (s.withInputs rest).lost = s.lost := rfl
@[simp] theorem State.withInputs_ecode (rest : List Event) : (s.withInputs rest).ecode = s.ecode := rfl
@[simp] theorem State.withInputs_result (rest : List Event) : (s.withInputs rest).result = s.result := rfl
@[simp] theorem State.withInputs_snSize (rest : List Event) : (s.withInputs rest).snSize = s.snSize := rfl
@[simp] theorem State.withInputs_soLegacy (rest : List Event) : (s.withInputs rest).soLegacy = s.soLegacy := rfl
@[simp] theorem State.withInputs_irqEn (rest : List Event) : (s.withInputs rest).irqEn = s.irqEn := rfl
@[simp] theorem State.withInputs_rgnStart (rest : List Event) : (s.withInputs rest).rgnStart = s.rgnStart := rfl
@[simp] theorem State.withInputs_rgnEnd (rest : List Event) : (s.withInputs rest).rgnEnd = s.rgnEnd := rfl
@[simp] theorem State.withInputs_addr (rest : List Event) : (s.withInputs rest).addr = s.addr := rfl
@[simp] theorem State.withInputs_bfData (rest : List Event) : (s.withInputs rest).bfData = s.bfData := rfl
@[simp] theorem State.withInputs_hdr (rest : List Event) : (s.withInputs rest).hdr = s.hdr := rfl
@[simp] theorem State.withInputs_ctr (rest : List Event) : (s.withInputs rest).ctr = s.ctr := rfl
@[simp] theorem State.withInputs_nk (rest : List Event) : (s.withInputs rest).nk = s.nk := rfl
@[simp] theorem State.withInputs_inputs (rest : List Event) : (s.withInputs rest).inputs = rest := rfl
@[simp] theorem State.withInputs_response (rest : List Event) : (s.withInputs rest).response = s.response := rfl
@[simp] theorem State.withInputs_freeCtr (rest : List Event) : (s.withInputs rest).freeCtr = s.freeCtr := rfl

/-! ### `State.withResponse` -/

@[simp] theorem State.withResponse_params (r : Response) : (s.withResponse r).params = s.params := rfl
@[simp] theorem State.withResponse_buf (r : Response) : (s.withResponse r).buf = s.buf := rfl
@[simp] theorem State.withResponse_cmd (r : Response) : (s.withResponse r).cmd = s.cmd := rfl
@[simp] theorem State.withResponse_busy (r : Response) : (s.withResponse r).busy = s.busy := rfl
@[simp] theorem State.withResponse_done (r : Response) : (s.withResponse r).done = s.done := rfl
@[simp] theorem State.withResponse_lost (r : Response) : (s.withResponse r).lost = s.lost := rfl
@[simp] theorem State.withResponse_ecode (r : Response) : (s.withResponse r).ecode = s.ecode := rfl
@[simp] theorem State.withResponse_result (r : Response) : (s.withResponse r).result = s.result := rfl
@[simp] theorem State.withResponse_snSize (r : Response) : (s.withResponse r).snSize = s.snSize := rfl
@[simp] theorem State.withResponse_soLegacy (r : Response) : (s.withResponse r).soLegacy = s.soLegacy := rfl
@[simp] theorem State.withResponse_irqEn (r : Response) : (s.withResponse r).irqEn = s.irqEn := rfl
@[simp] theorem State.withResponse_rgnStart (r : Response) : (s.withResponse r).rgnStart = s.rgnStart := rfl
@[simp] theorem State.withResponse_rgnEnd (r : Response) : (s.withResponse r).rgnEnd = s.rgnEnd := rfl
@[simp] theorem State.withResponse_addr (r : Response) : (s.withResponse r).addr = s.addr := rfl
@[simp] theorem State.withResponse_bfData (r : Response) : (s.withResponse r).bfData = s.bfData := rfl
@[simp] theorem State.withResponse_hdr (r : Response) : (s.withResponse r).hdr = s.hdr := rfl
@[simp] theorem State.withResponse_ctr (r : Response) : (s.withResponse r).ctr = s.ctr := rfl
@[simp] theorem State.withResponse_nk (r : Response) : (s.withResponse r).nk = s.nk := rfl
@[simp] theorem State.withResponse_inputs (r : Response) : (s.withResponse r).inputs = s.inputs := rfl
@[simp] theorem State.withResponse_response (r : Response) : (s.withResponse r).response = r := rfl
@[simp] theorem State.withResponse_freeCtr (r : Response) : (s.withResponse r).freeCtr = s.freeCtr := rfl

/-! ### `State.drawn` -/

@[simp] theorem State.drawn_params : (s.drawn).params = s.params := rfl
@[simp] theorem State.drawn_buf : (s.drawn).buf = s.buf := rfl
@[simp] theorem State.drawn_cmd : (s.drawn).cmd = s.cmd := rfl
@[simp] theorem State.drawn_busy : (s.drawn).busy = s.busy := rfl
@[simp] theorem State.drawn_done : (s.drawn).done = s.done := rfl
@[simp] theorem State.drawn_lost : (s.drawn).lost = s.lost := rfl
@[simp] theorem State.drawn_ecode : (s.drawn).ecode = s.ecode := rfl
@[simp] theorem State.drawn_result : (s.drawn).result = s.result := rfl
@[simp] theorem State.drawn_snSize : (s.drawn).snSize = s.snSize := rfl
@[simp] theorem State.drawn_soLegacy : (s.drawn).soLegacy = s.soLegacy := rfl
@[simp] theorem State.drawn_irqEn : (s.drawn).irqEn = s.irqEn := rfl
@[simp] theorem State.drawn_rgnStart : (s.drawn).rgnStart = s.rgnStart := rfl
@[simp] theorem State.drawn_rgnEnd : (s.drawn).rgnEnd = s.rgnEnd := rfl
@[simp] theorem State.drawn_addr : (s.drawn).addr = s.addr := rfl
@[simp] theorem State.drawn_bfData : (s.drawn).bfData = s.bfData := rfl
@[simp] theorem State.drawn_hdr : (s.drawn).hdr = s.hdr := rfl
@[simp] theorem State.drawn_ctr : (s.drawn).ctr = s.ctr := rfl
@[simp] theorem State.drawn_nk : (s.drawn).nk = s.nk := rfl
@[simp] theorem State.drawn_inputs : (s.drawn).inputs = s.inputs := rfl
@[simp] theorem State.drawn_response : (s.drawn).response = s.response := rfl
@[simp] theorem State.drawn_freeCtr : (s.drawn).freeCtr = s.freeCtr + 1 := rfl

/-! ### `Container.push` and `Container.fresh` -/

@[simp] theorem Container.push_width (c : Container) (r : NackRec) : (c.push r).width = c.width := rfl
@[simp] theorem Container.push_failed (c : Container) (r : NackRec) : (c.push r).failed = c.failed := rfl
@[simp] theorem Container.push_cpt (c : Container) (r : NackRec) : (c.push r).cpt = c.cpt := rfl
@[simp] theorem Container.push_ackSn (c : Container) (r : NackRec) : (c.push r).ackSn = c.ackSn := rfl
@[simp] theorem Container.push_nacks (c : Container) (r : NackRec) : (c.push r).nacks = c.nacks ++ [r] := rfl
@[simp] theorem Container.push_psize (c : Container) (r : NackRec) : (c.push r).psize = c.psize + BitVec.ofNat 32 (contrib c.width r) := rfl
@[simp] theorem Container.fresh_width (w : SnWidth) : (Container.fresh w).width = w := rfl
@[simp] theorem Container.fresh_failed (w : SnWidth) : (Container.fresh w).failed = false := rfl
@[simp] theorem Container.fresh_cpt (w : SnWidth) : (Container.fresh w).cpt = 0 := rfl
@[simp] theorem Container.fresh_ackSn (w : SnWidth) : (Container.fresh w).ackSn = 0xFFFFFFFF := rfl
@[simp] theorem Container.fresh_nacks (w : SnWidth) : (Container.fresh w).nacks = [] := rfl
@[simp] theorem Container.fresh_psize (w : SnWidth) : (Container.fresh w).psize = 3 := rfl

/-! ### `Container.fail`, `Container.withCpt`, `Container.withAck` -/

@[simp] theorem Container.fail_width (c : Container) : (c.fail).width = c.width := rfl
@[simp] theorem Container.fail_failed (c : Container) : (c.fail).failed = true := rfl
@[simp] theorem Container.fail_cpt (c : Container) : (c.fail).cpt = c.cpt := rfl
@[simp] theorem Container.fail_ackSn (c : Container) : (c.fail).ackSn = c.ackSn := rfl
@[simp] theorem Container.fail_nacks (c : Container) : (c.fail).nacks = c.nacks := rfl
@[simp] theorem Container.fail_psize (c : Container) : (c.fail).psize = c.psize := rfl
@[simp] theorem Container.withCpt_width (c : Container) (x : BitVec 3) : (c.withCpt x).width = c.width := rfl
@[simp] theorem Container.withCpt_failed (c : Container) (x : BitVec 3) : (c.withCpt x).failed = c.failed := rfl
@[simp] theorem Container.withCpt_cpt (c : Container) (x : BitVec 3) : (c.withCpt x).cpt = x := rfl
@[simp] theorem Container.withCpt_ackSn (c : Container) (x : BitVec 3) : (c.withCpt x).ackSn = c.ackSn := rfl
@[simp] theorem Container.withCpt_nacks (c : Container) (x : BitVec 3) : (c.withCpt x).nacks = c.nacks := rfl
@[simp] theorem Container.withCpt_psize (c : Container) (x : BitVec 3) : (c.withCpt x).psize = c.psize := rfl
@[simp] theorem Container.withAck_width (c : Container) (x : Word) : (c.withAck x).width = c.width := rfl
@[simp] theorem Container.withAck_failed (c : Container) (x : Word) : (c.withAck x).failed = c.failed := rfl
@[simp] theorem Container.withAck_cpt (c : Container) (x : Word) : (c.withAck x).cpt = c.cpt := rfl
@[simp] theorem Container.withAck_ackSn (c : Container) (x : Word) : (c.withAck x).ackSn = x := rfl
@[simp] theorem Container.withAck_nacks (c : Container) (x : Word) : (c.withAck x).nacks = c.nacks := rfl
@[simp] theorem Container.withAck_psize (c : Container) (x : Word) : (c.withAck x).psize = c.psize := rfl

end Sys2Proof.Machine
end

