-- ==== Sys2Proof/Laws/Ops.lean ====
section
/-! SUPPORT. What each shared operation can do, said once: completion, the checks commands share, the append, the packed size. -/

namespace Sys2Proof.Machine

/-! ### How a command ends -/

@[simp] theorem finish_eq_next (v : Word) (s t : State) : finish v s = .next t ↔ t = s.complete .ok v := by
  simp [finish, eq_comm]

@[simp] theorem raise_eq_next (e : ErrCode) (s t : State) : raise e s = .next t ↔ t = s.complete e 0 := by
  simp [raise, eq_comm]

/-- A command that goes on after a `BUF` access had an access inside `BUF`. -/
theorem onBuf_eq_next {α : Type} (x : Option α) (k : α → Result) (t : State) :
    onBuf x k = .next t ↔ ∃ v, x = some v ∧ k v = .next t := by
  cases x <;> simp [onBuf]

@[simp] theorem onBuf_some {α : Type} (v : α) (k : α → Result) : onBuf (some v) k = k v := rfl

/-! ### The checks commands share -/

theorem widthOf_eq_some (z : BitVec 2) (w : SnWidth) : widthOf z = some w ↔ z = w.code := by
  revert z; cases w <;> decide

theorem widthOf_eq_none (z : BitVec 2) : widthOf z = none ↔ z = 2 ∨ z = 3 := by revert z; decide

/-- Every header command raises `E_SN_WIDTH`, or goes on with the width `CFG.SN_SIZE` encodes. -/
theorem withWidth_cases (s : State) (k : SnWidth → Result) :
    (widthOf s.snSize = none ∧ withWidth s k = raise .snWidth s) ∨
      ∃ w, widthOf s.snSize = some w ∧ withWidth s k = k w := by
  unfold withWidth
  cases h : widthOf s.snSize with
  | none => exact .inl ⟨rfl, rfl⟩
  | some w => exact .inr ⟨w, rfl, rfl⟩

/-- A bit-field command raises one of its three errors, or goes on with a field that fits the window it has. -/
theorem withField_cases (width : Nat) (rel : Bool) (short : ErrCode) (s : State) (k : Nat → Result) :
    (∃ e ∈ [ErrCode.arg, .region, short], withField width rel short s k = raise e s) ∨
      ∃ a0 limit, 1 ≤ width ∧ width ≤ 32 ∧ fieldWindow s rel = some (a0, limit) ∧
        s.addr.toNat + width ≤ limit ∧ withField width rel short s k = k a0 := by
  unfold withField
  split
  · exact .inl ⟨.arg, by simp, rfl⟩
  · next hw =>
    split
    · exact .inl ⟨.region, by simp, rfl⟩
    · next a0 limit hwin =>
      split
      · exact .inl ⟨short, by simp, rfl⟩
      · exact .inr ⟨a0, limit, by omega, by omega, hwin, by omega, rfl⟩

/-- A window lies inside `BUF`: the bytes of a field that fits it are below `BUF_SIZE`. -/
theorem fieldWindow_inside {s : State} {rel : Bool} {a0 limit p n : Nat} (h : fieldWindow s rel = some (a0, limit))
    (hn : 1 ≤ n) (hfit : p + n ≤ limit) : a0 + (p + n - 1) / 8 < s.params.bufSize := by
  unfold fieldWindow at h
  split at h
  · split at h
    · next hr =>
      simp only [Option.some.injEq, Prod.mk.injEq] at h
      obtain ⟨rfl, rfl⟩ := h
      obtain ⟨h1, h2⟩ := hr
      simp only [State.regionLen] at hfit
      omega
    · cases h
  · simp only [Option.some.injEq, Prod.mk.injEq] at h
    omega

/-- Reading a field that lies inside the region is reading inside `BUF` (R11). -/
theorem regionBits_of_le {s : State} (hm : Memory.wf s.params.bufSize s.buf) (hr : s.regionOk) {p n : Nat}
    (h : p + n ≤ 8 * s.regionLen) : ∃ v, s.regionBits p n = some v := by
  obtain ⟨h1, h2⟩ := hr
  simp only [State.regionLen] at h
  exact getBits_of_lt hm (by omega)

/-! ### The container -/

/-- `Append` either finds the table full, or adds the record and its contribution and touches nothing else (R171). -/
theorem append_cases (s : State) (r : NackRec) :
    (s.ctr.nacks.length = s.params.nackMax ∧ append s r = none) ∨
      (s.ctr.nacks.length ≠ s.params.nackMax ∧ append s r = some (s.withCtr (s.ctr.push r))) := by
  unfold append
  split
  · next h => exact .inl ⟨h, rfl⟩
  · next h => exact .inr ⟨h, rfl⟩

theorem contrib_bounds (w : SnWidth) (r : NackRec) : 2 ≤ contrib w r ∧ contrib w r ≤ 8 := by
  unfold contrib
  cases w <;> simp only [SnWidth.nackBytes] <;> split <;> split <;> omega

theorem packedSize_append (w : SnWidth) (l : List NackRec) (r : NackRec) :
    packedSize w (l ++ [r]) = packedSize w l + contrib w r := by
  induction l with
  | nil => simp [packedSize, Nat.add_comm]
  | cons x t ih => simp only [List.cons_append, packedSize, ih]; omega

theorem packedSize_le (w : SnWidth) (l : List NackRec) : packedSize w l ≤ 3 + 8 * l.length := by
  induction l with
  | nil => simp [packedSize]
  | cons x t ih => have := contrib_bounds w x; simp only [packedSize, List.length_cons]; omega

/-- `Append` keeps the container's invariant, for a normal record. -/
theorem append_keeps_inv {s t : State} {r : NackRec} (hmax : s.params.nackMax ≤ 3840) (hc : s.ctr.Inv s.params.nackMax)
    (hr : r.Normal) (h : append s r = some t) : t.ctr.Inv s.params.nackMax := by
  rcases append_cases s r with ⟨-, h0⟩ | ⟨hlen, h0⟩
  · rw [h0] at h; cases h
  · rw [h0, Option.some.injEq] at h
    subst h
    obtain ⟨h1, h2, h3, h4⟩ := hc
    refine ⟨by simp [State.withCtr, Container.push]; omega, ?_, ?_, h4⟩
    · have hb := contrib_bounds s.ctr.width r
      have hp := packedSize_le s.ctr.width s.ctr.nacks
      simp only [State.withCtr, Container.push, packedSize_append, BitVec.toNat_add, BitVec.toNat_ofNat, h2]
      omega
    · intro x hx
      rcases List.mem_append.1 hx with hx | hx
      · exact h3 x hx
      · rw [List.mem_singleton] at hx; subst hx; exact hr

theorem fresh_inv (nackMax : Nat) (w : SnWidth) : (Container.fresh w).Inv nackMax := by
  simp [Container.Inv, Container.fresh, packedSize]

/-! ### The bytes of the images -/

theorem hdrBase_length (h : HeaderRegs) (w : SnWidth) : (hdrBase h w).length = w.snBytes := by cases w <;> rfl

theorem nackImage_length (w : SnWidth) (r : NackRec) (e1 : Bool) : (nackImage w r e1).length = contrib w r := by
  unfold nackImage contrib
  cases w <;> simp only [nackFixed, SnWidth.nackBytes, List.length_append] <;> split <;> split <;> rfl

theorem nackImages_length (w : SnWidth) (l : List NackRec) : (nackImages w l).length + 3 = packedSize w l := by
  induction l with
  | nil => rfl
  | cons r t ih => simp only [nackImages, packedSize, List.length_append, nackImage_length]; omega

/-- The Status PDU is as long as the packed size of its records. -/
theorem statusImage_length (w : SnWidth) (ack : Word) (l : List NackRec) :
    (statusImage w ack l).length = packedSize w l := by
  rw [statusImage, List.length_append, ← nackImages_length]
  cases w <;> simp [statusFixed] <;> omega

end Sys2Proof.Machine
end

