-- ==== Sys2Proof/Laws/Commands.lean ====
section
/-! SUPPORT. What each command can do: if it answers a next state, then that state is one of these. -/

namespace Sys2Proof.Machine

@[simp] theorem decFail_eq_next (e : ErrCode) (s t : State) :
    decFail e s = .next t ↔ t = (s.withCtr s.ctr.fail).complete e 0 := by
  simp [decFail]

theorem execHdrLen_cases {s t : State} (h : execHdrLen s = .next t) :
    t = s.complete .snWidth 0 ∨ ∃ w, widthOf s.snSize = some w ∧ t = s.complete .ok (BitVec.ofNat 32 (hdrLen s.hdr.si w)) := by
  unfold execHdrLen at h
  rcases withWidth_cases s _ with ⟨-, e⟩ | ⟨w, hw, e⟩ <;> rw [e] at h
  · exact .inl (by simpa using h)
  · exact .inr ⟨w, hw, by simpa using h⟩

theorem execHdrRd_cases {s t : State} (h : execHdrRd s = .next t) :
    (∃ e ∈ [ErrCode.snWidth, .region, .truncated, .reserved], t = s.complete e 0) ∨
      ∃ h' v, t = (s.withHdr h').complete .ok v := by
  unfold execHdrRd at h
  rcases withWidth_cases s _ with ⟨-, e⟩ | ⟨w, -, e⟩ <;> rw [e] at h
  · exact .inl ⟨.snWidth, by simp, by simpa using h⟩
  split at h
  · exact .inl ⟨.region, by simp, by simpa using h⟩
  split at h
  · exact .inl ⟨.truncated, by simp, by simpa using h⟩
  obtain ⟨b0, -, h⟩ := (onBuf_eq_next _ _ _).1 h
  split at h
  · exact .inl ⟨.reserved, by simp, by simpa using h⟩
  split at h
  · exact .inl ⟨.truncated, by simp, by simpa using h⟩
  obtain ⟨sn, -, h⟩ := (onBuf_eq_next _ _ _).1 h
  split at h
  · split at h
    · exact .inl ⟨.truncated, by simp, by simpa using h⟩
    · obtain ⟨so, -, h⟩ := (onBuf_eq_next _ _ _).1 h
      exact .inr ⟨_, _, by simpa [hdrRdCommit] using h⟩
  · exact .inr ⟨_, _, by simpa [hdrRdCommit] using h⟩

theorem execHdrWr_cases {s t : State} (h : execHdrWr s = .next t) :
    (∃ e ∈ [ErrCode.snWidth, .capacity], t = s.complete e 0) ∨
      ∃ w m, widthOf s.snSize = some w ∧ writeBytes s.buf s.addr.toNat (hdrImage s w) = some m ∧
        t = (s.withBuf m).complete .ok (BitVec.ofNat 32 (hdrLen s.hdr.si w)) := by
  unfold execHdrWr at h
  rcases withWidth_cases s _ with ⟨-, e⟩ | ⟨w, hw, e⟩ <;> rw [e] at h
  · exact .inl ⟨.snWidth, by simp, by simpa using h⟩
  split at h
  · exact .inl ⟨.capacity, by simp, by simpa using h⟩
  obtain ⟨m, hm, h⟩ := (onBuf_eq_next _ _ _).1 h
  exact .inr ⟨w, m, hw, hm, by simpa using h⟩

theorem execHdrWrp_cases {s t : State} (h : execHdrWrp s = .next t) :
    (∃ e ∈ [ErrCode.snWidth, .region, .capacity], t = s.complete e 0) ∨
      ∃ w m, widthOf s.snSize = some w ∧ s.regionOk ∧ hdrLen s.hdr.si w ≤ s.rgnStart.toNat ∧
        writeBytes s.buf (s.rgnStart.toNat - hdrLen s.hdr.si w) (hdrImage s w) = some m ∧
        t = ((s.withBuf m).withRegion (BitVec.ofNat 32 (s.rgnStart.toNat - hdrLen s.hdr.si w)) s.rgnEnd).complete .ok
          (BitVec.ofNat 32 (hdrLen s.hdr.si w)) := by
  unfold execHdrWrp at h
  rcases withWidth_cases s _ with ⟨-, e⟩ | ⟨w, hw, e⟩ <;> rw [e] at h
  · exact .inl ⟨.snWidth, by simp, by simpa using h⟩
  split at h
  · exact .inl ⟨.region, by simp, by simpa using h⟩
  next hr =>
  split at h
  · exact .inl ⟨.capacity, by simp, by simpa using h⟩
  next hlen =>
  dsimp only at h
  split at h
  · exact .inl ⟨.capacity, by simp, by simpa using h⟩
  obtain ⟨m, hm, h⟩ := (onBuf_eq_next _ _ _).1 h
  exact .inr ⟨w, m, hw, Decidable.not_not.1 hr, by omega, hm, by simpa using h⟩

theorem execStsInit_cases {s t : State} (h : execStsInit s = .next t) :
    t = s.complete .snWidth 0 ∨
      ∃ w, widthOf s.snSize = some w ∧ t = (s.withCtr (Container.fresh w)).complete .ok 0 := by
  unfold execStsInit at h
  split at h
  · exact .inl (by simpa using h)
  · next w hw => exact .inr ⟨w, hw, by simpa using h⟩

theorem execStsRst_cases {s t : State} (h : execStsRst s = .next t) :
    t = (s.withCtr (Container.fresh s.ctr.width)).complete .ok 0 := by
  simpa [execStsRst] using h

theorem execStsPush_cases {s t : State} (h : execStsPush s = .next t) :
    t = s.complete .nackFull 0 ∨
      ∃ u, append s (stagedRecord s) = some u ∧ t = u.complete .ok u.ctr.psize := by
  unfold execStsPush at h
  split at h
  · exact .inl (by simpa using h)
  · next u hu => exact .inr ⟨u, hu, by simpa using h⟩

theorem execStsRefresh_cases {s t : State} (h : execStsRefresh s = .next t) :
    t = (s.withCtr { s.ctr with psize := BitVec.ofNat 32 (packedSize s.ctr.width s.ctr.nacks) }).complete .ok
      (BitVec.ofNat 32 (packedSize s.ctr.width s.ctr.nacks)) := by
  simpa [execStsRefresh] using h

theorem stagedRecord_normal (s : State) : (stagedRecord s).Normal := by
  unfold stagedRecord
  constructor <;> intro h <;> simp_all

theorem optField_absent {field : Option Nat} {v : Nat} (h : optField false field = some v) : v = 0 := by
  simpa [optField, eq_comm] using h

/-- Reading the optional fields: truncated, or a normal record with the offset after its last field (R192). -/
theorem readOptional_cases {s : State} {sn : Word} {more hasSo hasRange : Bool} {k : Nat} {x : Element}
    (h : readOptional s sn more hasSo hasRange k = some x) :
    x = .bad .truncated ∨ ∃ r, x = .good r more (k + (if hasSo then 4 else 0) + (if hasRange then 1 else 0)) ∧
      r.Normal ∧ r.sn = sn ∧ r.hasSo = hasSo ∧ r.hasRange = hasRange ∧
      (k ≤ s.regionLen → k + (if hasSo then 4 else 0) + (if hasRange then 1 else 0) ≤ s.regionLen) := by
  unfold readOptional at h
  split at h
  · exact .inl (by simpa [eq_comm] using h)
  next hso4 =>
  obtain ⟨so, hso, h⟩ := Option.bind_eq_some_iff.1 h
  obtain ⟨so', hso', h⟩ := Option.bind_eq_some_iff.1 h
  dsimp only at h
  generalize hk' : k + (if hasSo = true then 4 else 0) = k' at h ⊢
  split at h
  · exact .inl (by simpa [eq_comm] using h)
  next hr1 =>
  obtain ⟨rg, hrg, h⟩ := Option.bind_eq_some_iff.1 h
  simp only [Option.some.injEq] at h
  refine .inr ⟨_, h.symm, ⟨?_, ?_⟩, rfl, rfl, rfl, ?_⟩
  · intro e
    dsimp only at e
    subst e
    simp [optField_absent hso, optField_absent hso']
  · intro e
    dsimp only at e
    subst e
    simp [optField_absent hrg]
  · intro hk
    cases hasSo <;> cases hasRange <;> simp at hso4 hr1 hk' ⊢ <;> omega

/-- Reading an element: truncated, a reserved bit, or a normal record that takes at least 2 bytes and lies inside the region
(R192, R193). -/
theorem readElement_cases {s : State} {w : SnWidth} {q : Nat} {x : Element} (h : readElement s w q = some x) :
    x = .bad .truncated ∨ x = .bad .reserved ∨
      ∃ r more k, x = .good r more k ∧ r.Normal ∧ k = q + contrib w r ∧ k ≤ s.regionLen := by
  unfold readElement at h
  split at h
  · exact .inl (by simpa [eq_comm] using h)
  next hlen =>
  obtain ⟨sn, -, h⟩ := Option.bind_eq_some_iff.1 h
  obtain ⟨e1, -, h⟩ := Option.bind_eq_some_iff.1 h
  obtain ⟨e2, -, h⟩ := Option.bind_eq_some_iff.1 h
  obtain ⟨e3, -, h⟩ := Option.bind_eq_some_iff.1 h
  obtain ⟨rsv, -, h⟩ := Option.bind_eq_some_iff.1 h
  split at h
  · exact .inr (.inl (by simpa [eq_comm] using h))
  · rcases readOptional_cases h with h | ⟨r, h, hn, -, h2, h3, hk⟩
    · exact .inl h
    · refine .inr (.inr ⟨r, _, _, h, hn, ?_, hk (by omega)⟩)
      simp only [contrib, h2, h3]
      omega

/-- The NACK loop only touches the container and the completion; it keeps the width, CPT and ACK_SN, and every record there
already is. A failure sets FAILED. -/
theorem decLoop_cases {fuel k : Nat} {s t : State} (h : decLoop fuel k s = .next t) :
    ∃ c new v, c.width = s.ctr.width ∧ c.cpt = s.ctr.cpt ∧ c.ackSn = s.ctr.ackSn ∧ c.nacks = s.ctr.nacks ++ new ∧
      ((c.failed = s.ctr.failed ∧ t = (s.withCtr c).complete .ok v) ∨
        (c.failed = true ∧ ∃ e ∈ [ErrCode.truncated, .reserved, .nackFull], t = (s.withCtr c).complete e 0)) := by
  induction fuel generalizing k s with
  | zero => cases h
  | succ fuel ih =>
    rw [decLoop] at h
    split at h
    · cases h
    · next e he =>
      refine ⟨s.ctr.fail, [], 0, rfl, rfl, rfl, by simp, .inr ⟨rfl, e, ?_, by simpa using h⟩⟩
      rcases readElement_cases he with h' | h' | ⟨_, _, _, h', -⟩ <;> cases h' <;> simp
    · next r more k' he =>
      rcases append_cases s r with ⟨-, ha⟩ | ⟨-, ha⟩ <;> rw [ha] at h <;> dsimp only at h
      · exact ⟨s.ctr.fail, [], 0, rfl, rfl, rfl, by simp,
          .inr ⟨rfl, .nackFull, by simp, by simpa using h⟩⟩
      · split at h
        · obtain ⟨c, new, v, h1, h2, h3, h4, h5⟩ := ih h
          exact ⟨c, r :: new, v, h1, h2, h3, by simp [h4], h5⟩
        · exact ⟨s.ctr.push r, [r], _, rfl, rfl, rfl, rfl, .inl ⟨rfl, by simpa using h⟩⟩

/-- The NACK loop keeps the container's invariant. -/
theorem decLoop_keeps_inv {fuel k : Nat} {s t : State} (hmax : s.params.nackMax ≤ 3840)
    (hc : s.ctr.Inv s.params.nackMax) (h : decLoop fuel k s = .next t) : t.ctr.Inv s.params.nackMax := by
  induction fuel generalizing k s with
  | zero => cases h
  | succ fuel ih =>
    have hfail : ∀ (e : ErrCode) (t : State), decFail e s = .next t → t.ctr.Inv s.params.nackMax := by
      intro e t h
      rw [decFail_eq_next] at h
      subst h
      exact ⟨hc.1, hc.2.1, hc.2.2.1, fun _ => rfl⟩
    rw [decLoop] at h
    split at h
    · cases h
    · exact hfail _ _ h
    · next r more k' he =>
      have hn : r.Normal := by
        rcases readElement_cases he with h' | h' | ⟨_, _, _, h', hn, -⟩ <;> cases h'
        exact hn
      split at h
      · exact hfail _ _ h
      · next u hu =>
        have hinv := append_keeps_inv hmax hc hn hu
        have hp : u.params = s.params := by
          rcases append_cases s r with ⟨-, ha⟩ | ⟨-, ha⟩ <;> rw [ha] at hu <;> cases hu
          rfl
        split at h
        · have := ih (by rw [hp]; exact hmax) (by rw [hp]; exact hinv) h
          rwa [hp] at this
        · rw [finish_eq_next] at h
          subst h
          exact hinv

/-- `STS_DEC` only touches the container and the completion; it keeps the width and every record there already is. -/
theorem execStsDec_cases {s t : State} (h : execStsDec s = .next t) :
    (¬ s.regionOk ∧ t = s.complete .region 0) ∨ (s.regionOk ∧
      ∃ c new v, c.width = s.ctr.width ∧ c.nacks = s.ctr.nacks ++ new ∧
        ((c.cpt = 0 ∧ c.failed = s.ctr.failed ∧ t = (s.withCtr c).complete .ok v) ∨
          (c.failed = true ∧ ∃ e ∈ [ErrCode.cpt, .truncated, .reserved, .nackFull],
            t = (s.withCtr c).complete e 0))) := by
  unfold execStsDec at h
  dsimp only at h
  split at h
  · next hr => exact .inl ⟨hr, by simpa using h⟩
  next hr =>
  refine .inr ⟨Decidable.not_not.1 hr, ?_⟩
  split at h
  · exact ⟨s.ctr.fail, [], 0, rfl, (List.append_nil _).symm,
      .inr ⟨rfl, .truncated, by simp, (decFail_eq_next _ _ _).1 h⟩⟩
  obtain ⟨cpt, -, h⟩ := (onBuf_eq_next _ _ _).1 h
  split at h
  · exact ⟨(s.ctr.withCpt (BitVec.ofNat 3 cpt)).fail, [], 0, rfl, (List.append_nil _).symm,
      .inr ⟨rfl, .cpt, by simp, (decFail_eq_next _ _ _).1 h⟩⟩
  next hc =>
  have hcpt : BitVec.ofNat 3 cpt = 0 := by rw [Decidable.not_not.1 hc]; rfl
  split at h
  · exact ⟨(s.ctr.withCpt (BitVec.ofNat 3 cpt)).fail, [], 0, rfl, (List.append_nil _).symm,
      .inr ⟨rfl, .truncated, by simp, (decFail_eq_next _ _ _).1 h⟩⟩
  obtain ⟨ack, -, h⟩ := (onBuf_eq_next _ _ _).1 h
  split at h
  · exact ⟨((s.ctr.withCpt (BitVec.ofNat 3 cpt)).withAck (BitVec.ofNat 32 ack)).fail, [], 0, rfl, (List.append_nil _).symm,
      .inr ⟨rfl, .truncated, by simp, (decFail_eq_next _ _ _).1 h⟩⟩
  obtain ⟨e1, -, h⟩ := (onBuf_eq_next _ _ _).1 h
  obtain ⟨rsv, -, h⟩ := (onBuf_eq_next _ _ _).1 h
  split at h
  · exact ⟨((s.ctr.withCpt (BitVec.ofNat 3 cpt)).withAck (BitVec.ofNat 32 ack)).fail, [], 0, rfl, (List.append_nil _).symm,
      .inr ⟨rfl, .reserved, by simp, (decFail_eq_next _ _ _).1 h⟩⟩
  split at h
  · obtain ⟨c, new, v, h1, h2, -, h4, h5⟩ := decLoop_cases h
    refine ⟨c, new, v, h1, h4, ?_⟩
    rcases h5 with ⟨h5, h6⟩ | ⟨h5, e, he, h6⟩
    · exact .inl ⟨h2.trans hcpt, h5, h6⟩
    · exact .inr ⟨h5, e, List.mem_cons_of_mem _ he, h6⟩
  · exact ⟨(s.ctr.withCpt (BitVec.ofNat 3 cpt)).withAck (BitVec.ofNat 32 ack), [], 3, rfl, (List.append_nil _).symm,
      .inl ⟨hcpt, rfl, (finish_eq_next _ _ _).1 h⟩⟩

theorem execStsEnc_cases {s t : State} (h : execStsEnc s = .next t) :
    (∃ e ∈ [ErrCode.region, .capacity], t = s.complete e 0) ∨
      ∃ m, writeBytes s.buf s.rgnStart.toNat (statusImage s.ctr.width s.ctr.ackSn s.ctr.nacks) = some m ∧
        s.regionOk ∧ t = ((s.withBuf m).withRegion s.rgnStart
          (BitVec.ofNat 32 (s.rgnStart.toNat + packedSize s.ctr.width s.ctr.nacks))).complete .ok
            (BitVec.ofNat 32 (packedSize s.ctr.width s.ctr.nacks)) := by
  unfold execStsEnc at h
  split at h
  · exact .inl ⟨.region, by simp, by simpa using h⟩
  next hr =>
  split at h
  · exact .inl ⟨.capacity, by simp, by simpa using h⟩
  dsimp only at h
  obtain ⟨m, hm, h⟩ := (onBuf_eq_next _ _ _).1 h
  rw [statusImage_length] at h
  exact .inr ⟨m, hm, Decidable.not_not.1 hr, by simpa using h⟩

theorem execBfGet_cases {s t : State} {n : Nat} {rel : Bool} (h : execBfGet n rel s = .next t) :
    (∃ e ∈ [ErrCode.arg, .region, .truncated], t = s.complete e 0) ∨ ∃ v, t = s.complete .ok v := by
  unfold execBfGet at h
  rcases withField_cases n rel .truncated s _ with ⟨e, he, e'⟩ | ⟨a0, limit, -, -, -, -, e'⟩ <;> rw [e'] at h
  · exact .inl ⟨e, he, by simpa using h⟩
  · obtain ⟨v, -, h⟩ := (onBuf_eq_next _ _ _).1 h
    exact .inr ⟨_, by simpa using h⟩

theorem execBfPut_cases {s t : State} {n : Nat} {rel : Bool} (h : execBfPut n rel s = .next t) :
    (∃ e ∈ [ErrCode.arg, .region, .capacity], t = s.complete e 0) ∨
      ∃ a0 m, putBits s.buf a0 s.addr.toNat n s.bfData = some m ∧
        t = (s.withBuf m).complete .ok 0 := by
  unfold execBfPut at h
  rcases withField_cases n rel .capacity s _ with ⟨e, he, e'⟩ | ⟨a0, limit, -, -, -, -, e'⟩ <;> rw [e'] at h
  · exact .inl ⟨e, he, by simpa using h⟩
  · obtain ⟨m, hm, h⟩ := (onBuf_eq_next _ _ _).1 h
    exact .inr ⟨a0, m, hm, by simpa using h⟩

end Sys2Proof.Machine
end

