-- ==== Sys2Proof/Laws/PerInstr.lean ====
section
/-! SUPPORT. Per-command laws: each command's word has the bits that spec/opcode_table.json fixes for its row. -/

namespace Sys2Proof.Laws

/-- The `mask` and `match` columns of a command's row (R82). -/
def tableRow : Instr → Word × Word
  | .nop => (0xFFFFFFFF, 0x00000000)
  | .hdrRd => (0xFFFFFFFF, 0x00000001)
  | .hdrLen => (0xFFFFFFFF, 0x00000002)
  | .hdrWr => (0xFFFFFFFF, 0x00000003)
  | .hdrWrp => (0xFFFFFFFF, 0x00000004)
  | .stsInit => (0xFFFFFFFF, 0x00000010)
  | .stsRst => (0xFFFFFFFF, 0x00000011)
  | .stsPush => (0xFFFFFFFF, 0x00000012)
  | .stsRefresh => (0xFFFFFFFF, 0x00000013)
  | .stsDec => (0xFFFFFFFF, 0x00000014)
  | .stsEnc => (0xFFFFFFFF, 0x00000015)
  | .bfGet _ _ => (0xFFFEC0FF, 0x00000020)
  | .bfPut _ _ => (0xFFFEC0FF, 0x00000021)

/-- The word of a command, under its row's mask, is its row's match. -/
def EncodesTableRow.Statement (i : Instr) : Prop := encode i &&& (tableRow i).1 = (tableRow i).2

theorem bfGet_word_masked : ∀ (w : BitVec 6) (rel : Bool),
    (0#15 ++ BitVec.ofBool rel ++ 0#2 ++ w ++ 0x20#8 : Word) &&& 0xFFFEC0FF = 0x20 := by decide

theorem bfPut_word_masked : ∀ (w : BitVec 6) (rel : Bool),
    (0#15 ++ BitVec.ofBool rel ++ 0#2 ++ w ++ 0x21#8 : Word) &&& 0xFFFEC0FF = 0x21 := by decide

theorem EncodesTableRow.nop : Statement .nop := rfl
theorem EncodesTableRow.hdrRd : Statement .hdrRd := rfl
theorem EncodesTableRow.hdrLen : Statement .hdrLen := rfl
theorem EncodesTableRow.hdrWr : Statement .hdrWr := rfl
theorem EncodesTableRow.hdrWrp : Statement .hdrWrp := rfl
theorem EncodesTableRow.stsInit : Statement .stsInit := rfl
theorem EncodesTableRow.stsRst : Statement .stsRst := rfl
theorem EncodesTableRow.stsPush : Statement .stsPush := rfl
theorem EncodesTableRow.stsRefresh : Statement .stsRefresh := rfl
theorem EncodesTableRow.stsDec : Statement .stsDec := rfl
theorem EncodesTableRow.stsEnc : Statement .stsEnc := rfl
theorem EncodesTableRow.bfGet (width : Nat) (rel : Bool) : Statement (.bfGet width rel) :=
  bfGet_word_masked (BitVec.ofNat 6 width) rel
theorem EncodesTableRow.bfPut (width : Nat) (rel : Bool) : Statement (.bfPut width rel) :=
  bfPut_word_masked (BitVec.ofNat 6 width) rel

end Sys2Proof.Laws
end

