-- ==== Sys2Proof/Laws/Step.lean ====
section
/-! SUPPORT. What one step can do, said once: the accesses of the host, the engine's turn, reset. -/

namespace Sys2Proof.Machine

@[simp] theorem respond_eq_next (r : Response) (s t : State) : respond r s = .next t ↔ t = s.withResponse r := by
  simp [respond, eq_comm]

/-- What a host access can do to the block: nothing; a free value drawn (busy); sticky bits cleared; LOST set (busy); a
register written (idle); a byte of `BUF` written (idle). The bus's answer is recorded in every case. -/
inductive HostEffect (s : State) : State → Prop where
  | nothing : HostEffect s s
  | draw : s.busy = true → HostEffect s s.drawn
  | sticky (v : Word) : HostEffect s (s.clearSticky v)
  | dropped : s.busy = true → HostEffect s s.dropWrite
  | register (r : Reg) (v : Word) : s.busy = false → HostEffect s (writeReg s r v)
  | byte (a : Nat) (v : Byte) (m : List Host.Cell) : s.busy = false → memWrite s.buf a v = some m →
      HostEffect s (s.withBuf m)

theorem readFree_cases {x : Target} {s t : State} (hb : s.busy = true) (h : readFree x s = .next t) :
    ∃ u r, HostEffect s u ∧ t = u.withResponse r := by
  cases x <;> exact ⟨_, _, .draw hb, (respond_eq_next _ _ _).1 h⟩

theorem busRead_cases {x : Target} {s t : State} (h : busRead x s = .next t) :
    ∃ u r, HostEffect s u ∧ t = u.withResponse r := by
  unfold busRead at h
  split at h
  · next hb =>
    split at h
    · exact ⟨_, _, .nothing, (respond_eq_next _ _ _).1 h⟩
    · exact ⟨_, _, .nothing, (respond_eq_next _ _ _).1 h⟩
    · exact ⟨_, _, .nothing, (respond_eq_next _ _ _).1 h⟩
    · exact readFree_cases hb h
  · split at h
    · exact ⟨_, _, .nothing, (respond_eq_next _ _ _).1 h⟩
    · exact ⟨_, _, .nothing, (respond_eq_next _ _ _).1 h⟩
    · obtain ⟨b, -, h⟩ := (onBuf_eq_next _ _ _).1 h
      exact ⟨_, _, .nothing, (respond_eq_next _ _ _).1 h⟩

theorem busWrite_cases {x : Target} {v : Word} {s t : State} (h : busWrite x v s = .next t) :
    ∃ u r, HostEffect s u ∧ t = u.withResponse r := by
  unfold busWrite at h
  split at h
  · exact ⟨_, _, .sticky v, (respond_eq_next _ _ _).1 h⟩
  split at h
  · next hb => exact ⟨_, _, .dropped hb, (respond_eq_next _ _ _).1 h⟩
  next hb =>
  have hb : s.busy = false := by simpa using hb
  split at h
  · exact ⟨_, _, .register _ v hb, (respond_eq_next _ _ _).1 h⟩
  · exact ⟨_, _, .nothing, (respond_eq_next _ _ _).1 h⟩
  · obtain ⟨m, hm, h⟩ := (onBuf_eq_next _ _ _).1 h
    exact ⟨_, _, .byte _ _ m hb hm, (respond_eq_next _ _ _).1 h⟩

/-- A host access has one of the effects of `HostEffect`, and the bus's answer is recorded. -/
theorem hostStep_cases {a : Access} {s t : State} (h : hostStep a s = .next t) :
    ∃ u r, HostEffect s u ∧ t = u.withResponse r := by
  unfold hostStep at h
  split at h
  · exact ⟨_, _, .nothing, (respond_eq_next _ _ _).1 h⟩
  split at h
  · exact ⟨_, _, .nothing, (respond_eq_next _ _ _).1 h⟩
  split at h
  · exact busRead_cases h
  · exact busWrite_cases h

/-- The engine's turn: nothing when idle; when busy, the decoded command, or `E_ILLEGAL`. -/
theorem engineTurn_cases {s t : State} (h : engineTurn s = .next t) :
    (s.busy = false ∧ t = s) ∨ (s.busy = true ∧ ∃ i, decode s.cmd = .ok i ∧ exec i s = .next t) ∨
      (s.busy = true ∧ (∃ why, decode s.cmd = .illegal why) ∧ t = s.complete .illegal 0) := by
  unfold engineTurn at h
  split at h
  · next hb =>
    unfold engineStep at h
    split at h
    · next i hi => exact .inr (.inl ⟨hb, i, hi, h⟩)
    · next why hw => exact .inr (.inr ⟨hb, ⟨why, hw⟩, by simpa using h⟩)
  · next hb => exact .inl ⟨by simpa using hb, by simpa [eq_comm] using h⟩

/-- What one step can do: the engine's turn (scripted, or with the script used up), a host access, or reset. -/
theorem step_cases {s t : State} (h : step s = .next t) :
    (s.inputs = [] ∧ engineTurn s = .next t) ∨
      (∃ rest, s.inputs = .engine :: rest ∧ engineTurn (s.withInputs rest) = .next t) ∨
      (∃ a rest, s.inputs = .access a :: rest ∧ ∃ u r, HostEffect (s.withInputs rest) u ∧ t = u.withResponse r) ∨
      (∃ rest, s.inputs = .reset :: rest ∧ t = State.resetWith s.params s.freeCtr rest) := by
  unfold step at h
  split at h
  · next hi => exact .inl ⟨hi, h⟩
  · next rest hi => exact .inr (.inl ⟨rest, hi, h⟩)
  · next a rest hi => exact .inr (.inr (.inl ⟨a, rest, hi, hostStep_cases h⟩))
  · next rest hi => exact .inr (.inr (.inr ⟨rest, hi, by simpa [eq_comm] using h⟩))

/-! ### Which step it is, and which access -/

theorem regAt_offset (r : Reg) : regAt r.offset = some r := by cases r <;> rfl

theorem regAt_eq_some (off : Nat) (r : Reg) : regAt off = some r ↔ off = r.offset := by
  refine ⟨fun h => ?_, fun h => by rw [h]; exact regAt_offset r⟩
  simpa [eq_comm] using List.find?_some h

theorem step_access {s : State} {a : Access} {rest : List Event} (h : s.inputs = .access a :: rest) :
    step s = hostStep a (s.withInputs rest) := by
  unfold step; rw [h]

theorem step_silent {s : State} (h : s.inputs = []) : step s = engineTurn s := by
  unfold step; split <;> simp_all

theorem step_engine {s : State} {rest : List Event} (h : s.inputs = .engine :: rest) :
    step s = engineTurn (s.withInputs rest) := by
  unfold step; rw [h]

/-- An access inside the block's window, by its offset. -/
theorem hostStep_of_offset {s : State} {a : Access} {off : Nat} (ha : a.addr = s.params.base + off)
    (hoff : off < 0x20000) :
    hostStep a s = match targetOf s.params a.width off with
      | none => respond .busError s
      | some t => match a with
        | .read _ _ => busRead t s
        | .write _ _ v => busWrite t v s := by
  have h1 : ¬ (a.addr < s.params.base ∨ s.params.base + 0x20000 ≤ a.addr) := by omega
  have h2 : a.addr - s.params.base = off := by omega
  unfold hostStep
  rw [if_neg h1, h2]
  cases a <;> rfl

/-- A run's first step, peeled off. -/
theorem run_succ {s t : State} (n : Nat) (h : step s = .next t) :
    Host.Core.run core (n + 1) s = Host.Core.run core n t := by
  have h' : core.step s = .next t := h
  simp only [Host.Core.run]
  rw [h']

end Sys2Proof.Machine
end

