-- ==== Sys2Proof/Tests/Slice0.lean ====
section
/-! SUPPORT. Tests. Expected values are the spec's own vectors (95_test_vectors.md) unless a comment says otherwise. The
`witness_` theorems show states that meet the hypotheses of the statements for the provers. -/

open Sys2Proof Sys2Proof.Machine Sys2Proof.Claims

namespace Sys2Proof.Tests

/-! ### Well-formedness: what each check refuses -/

theorem test_bfGet_width_64_refused : Instr.wellFormed (.bfGet 64 false) = false := by decide
theorem test_bfPut_width_64_refused : Instr.wellFormed (.bfPut 64 true) = false := by decide
theorem test_widths_of_six_bits_accepted :
    Instr.wellFormed (.bfGet 63 true) = true ∧ Instr.wellFormed (.bfPut 0 false) = true := by decide

/-! ### Decoding: each word written as the fields of R80, [31:17], R, [15:14], W, OPCODE -/

theorem test_decode_nop : decode (0#15 ++ 0#1 ++ 0#2 ++ 0#6 ++ 0x00#8) = .ok .nop := by decide
theorem test_decode_hdrRd : decode (0#15 ++ 0#1 ++ 0#2 ++ 0#6 ++ 0x01#8) = .ok .hdrRd := by decide
theorem test_decode_hdrLen : decode (0#15 ++ 0#1 ++ 0#2 ++ 0#6 ++ 0x02#8) = .ok .hdrLen := by decide
theorem test_decode_hdrWr : decode (0#15 ++ 0#1 ++ 0#2 ++ 0#6 ++ 0x03#8) = .ok .hdrWr := by decide
theorem test_decode_hdrWrp : decode (0#15 ++ 0#1 ++ 0#2 ++ 0#6 ++ 0x04#8) = .ok .hdrWrp := by decide
theorem test_decode_stsInit : decode (0#15 ++ 0#1 ++ 0#2 ++ 0#6 ++ 0x10#8) = .ok .stsInit := by decide
theorem test_decode_stsRst : decode (0#15 ++ 0#1 ++ 0#2 ++ 0#6 ++ 0x11#8) = .ok .stsRst := by decide
theorem test_decode_stsPush : decode (0#15 ++ 0#1 ++ 0#2 ++ 0#6 ++ 0x12#8) = .ok .stsPush := by decide
theorem test_decode_stsRefresh : decode (0#15 ++ 0#1 ++ 0#2 ++ 0#6 ++ 0x13#8) = .ok .stsRefresh := by decide
theorem test_decode_stsDec : decode (0#15 ++ 0#1 ++ 0#2 ++ 0#6 ++ 0x14#8) = .ok .stsDec := by decide
theorem test_decode_stsEnc : decode (0#15 ++ 0#1 ++ 0#2 ++ 0#6 ++ 0x15#8) = .ok .stsEnc := by decide
/-- `BF_GET 32,r` is 0x00012020. -/
theorem test_decode_bfGet : decode (0#15 ++ 1#1 ++ 0#2 ++ 32#6 ++ 0x20#8) = .ok (.bfGet 32 true) := by decide
/-- `BF_PUT 18` is 0x00001221. -/
theorem test_decode_bfPut : decode (0#15 ++ 0#1 ++ 0#2 ++ 18#6 ++ 0x21#8) = .ok (.bfPut 18 false) := by decide

/-- Illegal words by R82: a reserved bit at each edge of its range. -/
theorem test_decode_reserved_bits :
    decode 0x00000114 = .illegal (.reservedBits 0x14) ∧ decode 0x80000000 = .illegal (.reservedBits 0x00) ∧
    decode 0x00010012 = .illegal (.reservedBits 0x12) ∧ decode 0x00004820 = .illegal (.reservedBits 0x20) ∧
    decode 0x00008821 = .illegal (.reservedBits 0x21) ∧ decode 0x00020820 = .illegal (.reservedBits 0x20) ∧
    decode 0x80000821 = .illegal (.reservedBits 0x21) := by decide

/-- Illegal words by R82: the opcodes next to the assigned ones. -/
theorem test_decode_unknown_opcodes :
    decode 0x05 = .illegal (.unknownOpcode 0x05) ∧ decode 0x0F = .illegal (.unknownOpcode 0x0F) ∧
    decode 0x16 = .illegal (.unknownOpcode 0x16) ∧ decode 0x1F = .illegal (.unknownOpcode 0x1F) ∧
    decode 0x22 = .illegal (.unknownOpcode 0x22) ∧ decode 0xFF = .illegal (.unknownOpcode 0xFF) := by decide

theorem test_decodeTableWord :
    decodeTableWord 32 0x1221 = some (.bfPut 18 false) ∧ decodeTableWord 32 0x05 = none ∧
    decodeTableWord 8 0x14 = some .stsDec := by decide

/-! ### Small states -/

/-- A busy block whose `BUF` is `bytes`, with room for two NACK records. -/
def block (bytes : List Nat) : State :=
  { State.reset with
    params := { bufSize := bytes.length, nackMax := 2, base := 0x20000 }
    buf := (List.range bytes.length).zip (bytes.map (BitVec.ofNat 8))
    busy := true }

/-- `s` with the region `[lo, hi)`. -/
def region (s : State) (lo hi : Word) : State := { s with rgnStart := lo, rgnEnd := hi }

/-- `s` idle, with one host access to come. -/
def hosted (s : State) (a : Access) : State := { s with busy := false, inputs := [.access a] }

/-- `s` busy, with one host access to come. -/
def hostedBusy (s : State) (a : Access) : State := { s with busy := true, inputs := [.access a] }

/-- A record without optional fields. -/
def plain (sn : Word) : NackRec :=
  { sn := sn, hasSo := false, soStart := 0, soEnd := 0, hasRange := false, range := 0 }

/-- The container of `s`, with width, ACK_SN, records and their packed size. -/
def report (s : State) (w : SnWidth) (ack : Word) (recs : List NackRec) : State :=
  { s with ctr :=
    { width := w, failed := false, cpt := 0, ackSn := ack, nacks := recs, psize := BitVec.ofNat 32 (packedSize w recs) } }

/-- One fact about the next state; false where there is none. -/
def after (r : Result) (p : State → Bool) : Bool :=
  match r with
  | .next t => p t
  | _ => false

/-- The bytes of `BUF`. -/
def bytesOf (s : State) : List Nat := s.buf.map fun c => c.2.toNat

/-! ### One step of each command -/

theorem test_nop : after (exec .nop { block [] with result := 7, lost := true })
    (fun t => t.result = 0 ∧ t.statusWord = 0x6) := by decide

/-- 12-bit, with an SO and a byte after the header. -/
theorem test_hdrRd : after (exec .hdrRd (region (block [0xE5, 0x67, 0xAB, 0xCD, 0xFF, 0, 0, 0]) 0 5))
    (fun t => t.result = 4 ∧ t.hdr = { dc := true, p := true, si := 2, sn := 0x567, so := 0xABCD }) := by decide
/-- 18-bit: the reserved bit is reported before the missing bytes. -/
theorem test_hdrRd_reserved : after (exec .hdrRd { region (block [0x84, 0, 0, 0, 0, 0, 0, 0]) 0 1 with snSize := 1 })
    (fun t => t.ecode = .reserved ∧ t.hdr.sn = 0) := by decide

/-- Table of R140: middle segment, 18-bit. -/
theorem test_hdrLen : after (exec .hdrLen { block [] with snSize := 1, hdr := { (block []).hdr with si := 3 } })
    (fun t => t.result = 5) := by decide
theorem test_hdrLen_width : after (exec .hdrLen { block [] with snSize := 2 }) (fun t => t.ecode = .snWidth) := by decide

theorem test_hdrWr : after (exec .hdrWr { block (List.replicate 8 0xEE) with
      snSize := 1, hdr := { dc := false, p := false, si := 2, sn := 0x20001, so := 0x100 } })
    (fun t => t.result = 5 ∧ bytesOf t = [0xA2, 0x00, 0x01, 0x01, 0x00, 0xEE, 0xEE, 0xEE]) := by decide
/-- Legacy mode emits SO by value, and RESULT stays `HdrLen`. -/
theorem test_hdrWr_legacy : after (exec .hdrWr { block (List.replicate 8 0xEE) with
      soLegacy := true, hdr := { dc := false, p := false, si := 0, sn := 5, so := 0x1234 } })
    (fun t => t.result = 2 ∧ bytesOf t = [0x80, 0x05, 0x12, 0x34, 0xEE, 0xEE, 0xEE, 0xEE]) := by decide

/-- Legacy mode overwrites the first payload bytes. -/
theorem test_hdrWrp_legacy : after (exec .hdrWrp { region (block [0, 0, 0, 0, 0x11, 0x22, 0x33, 0x44]) 4 8 with
      soLegacy := true, hdr := { dc := false, p := false, si := 0, sn := 5, so := 0xBEEF } })
    (fun t => t.rgnStart = 2 ∧ bytesOf t = [0, 0, 0x80, 0x05, 0xBE, 0xEF, 0x33, 0x44]) := by decide
theorem test_hdrWrp_capacity : after (exec .hdrWrp { region (block (List.replicate 8 0)) 3 5 with
      hdr := { dc := false, p := false, si := 2, sn := 0, so := 0 } })
    (fun t => t.ecode = .capacity ∧ t.rgnStart = 3) := by decide

theorem test_stsInit : after (exec .stsInit { report (block []) .w12 9 [plain 1] with snSize := 1 })
    (fun t => t.result = 0 ∧ t.ctr = Container.fresh .w18) := by decide
theorem test_stsInit_width : after (exec .stsInit { block [] with snSize := 3 })
    (fun t => t.ecode = .snWidth ∧ t.ctr = Container.fresh .w12) := by decide

/-- The width of the container, not of `CFG`, is kept. -/
theorem test_stsRst : after (exec .stsRst (report (block []) .w18 9 [plain 1]))
    (fun t => t.ctr = Container.fresh .w18) := by decide

/-- A record with both sub-fields counts 7 bytes at 12 bits (R170). -/
theorem test_stsPush : after (exec .stsPush { block [] with
      nk := { sn := 273, hasSo := true, hasRange := true, range := 5, soStart := 2, soEnd := 16 } })
    (fun t => t.result = 10 ∧ t.ctr.nacks.length = 1) := by decide
theorem test_stsPush_full : after (exec .stsPush (report (block []) .w12 9 [plain 1, plain 2]))
    (fun t => t.ecode = .nackFull ∧ t.ctr.psize = 7) := by decide

theorem test_stsRefresh : after (exec .stsRefresh { report (block []) .w18 9 [plain 1, plain 2] with result := 1 })
    (fun t => t.result = 9 ∧ t.ctr.psize = 9) := by decide

theorem test_stsDec : after (exec .stsDec (region (block [0x08, 0x11, 0x80, 0x11, 0x16, 0x00, 0x02, 0x00, 0x10, 0x05]) 0 10))
    (fun t => t.result = 10 ∧ t.ctr.ackSn = 2065 ∧ t.ctr.nacks =
      [{ sn := 273, hasSo := true, soStart := 2, soEnd := 16, hasRange := true, range := 5 }]) := by decide
/-- The second element has a reserved bit: the first stays. -/
theorem test_stsDec_partial : after (exec .stsDec (region (block [0x00, 0x05, 0x80, 0x00, 0x38, 0x00, 0x41, 0]) 0 7))
    (fun t => t.ecode = .reserved ∧ t.ctr.failed = true ∧ t.ctr.nacks = [plain 3] ∧ t.ctr.psize = 5) := by decide

theorem test_stsEnc : after (exec .stsEnc (region (report (block (List.replicate 10 0xEE)) .w18 0x12345 [plain 1, plain 2]) 1 1))
    (fun t => t.rgnEnd = 10 ∧ t.result = 9 ∧
      bytesOf t = [0xEE, 0x04, 0x8D, 0x16, 0x00, 0x00, 0x60, 0x00, 0x00, 0x80]) := by decide
theorem test_stsEnc_capacity : after (exec .stsEnc (region (report (block (List.replicate 8 0xEE)) .w12 5 []) 6 6))
    (fun t => t.ecode = .capacity ∧ t.rgnEnd = 6) := by decide

theorem test_bfGet : after (exec (.bfGet 18 false) { block [0xAB, 0xCD, 0xEF, 0x01, 0, 0, 0, 0] with addr := 6 })
    (fun t => t.result = 0x3CDEF) := by decide
theorem test_bfGet_region : after (exec (.bfGet 8 true)
      { region (block [0xAB, 0xCD, 0xEF, 0x01, 0, 0, 0, 0]) 1 3 with addr := 9 })
    (fun t => t.ecode = .truncated ∧ t.result = 0) := by decide

theorem test_bfPut : after (exec (.bfPut 3 false) { block (List.replicate 8 0xFF) with addr := 2, bfData := 0 })
    (fun t => bytesOf t = [0xC7, 0xFF, 0xFF, 0xFF, 0xFF, 0xFF, 0xFF, 0xFF]) := by decide
theorem test_bfPut_region : after (exec (.bfPut 8 true) { region (block (List.replicate 8 0)) 2 4 with addr := 0, bfData := 0x5A })
    (fun t => bytesOf t = [0, 0, 0x5A, 0, 0, 0, 0, 0]) := by decide

/-- A command word runs as the first step after reset: the interface of the host. -/
theorem test_first_command : after (step (State.reset.withFetchWord 32 0x13))
    (fun t => t.cmd = 0x13 ∧ t.result = 3 ∧ t.statusWord = 0x2) := by decide

/-! ### The host bus -/

/-- R44: the bits marked `-` are not stored. -/
theorem test_reserved_bits_read_zero :
    after (step (hosted (block []) (.write 32 0x20010 0xFFFFFFFF))) (fun t => readReg t .cfg = 0x113) = true ∧
    after (step (hosted (block []) (.write 32 0x20024 0xFFFFFFFF))) (fun t => readReg t .hdrCtrl = 0xF0) = true ∧
    after (step (hosted (block []) (.write 32 0x20064 0xFFFFFFFF))) (fun t => readReg t .nkCtrl = 0xFF03) = true := by
  decide

/-- R63: a wrong size, an unaligned address, a hole in the map, the end of each window. -/
theorem test_bus_errors :
    ([(8, 0x10), (32, 0x11), (32, 0x30), (32, 0x1020), (8, 0x10008), (32, 0x10000), (16, 0x0)].all fun x =>
      after (step (hosted (block (List.replicate 8 0)) (.read x.1 (0x20000 + x.2)))) fun t => t.response = .busError) = true := by
  decide

/-- The layout of R23, with LOST and code 6; a word of R32; the map's two region offsets. -/
theorem test_register_reads :
    let s : State := { report (block []) .w18 0 [] with busy := false, lost := true, ecode := .region, rgnEnd := 9 }
    let u : State := { s with ctr := { s.ctr with failed := true } }
    (after (step (hosted s (.read 32 0x20008))) fun t => t.response = .word 0x64) = true ∧
    (after (step (hosted u (.read 32 0x20040))) fun t => t.response = .word 0x101) = true ∧
    (after (step (hosted s (.read 32 0x20018))) fun t => t.response = .word 9) = true := by decide

/-- An idle engine's turn runs nothing, though `CMD` holds a word. -/
theorem test_idle_turn : after (step { block [] with busy := false, cmd := 0x14, result := 7 })
    (fun t => t.result = 7 ∧ t.done = false) := by decide

/-- R66: a write while busy is dropped and sets LOST. -/
theorem test_busy_write : after (step (hostedBusy (block []) (.write 32 0x2001C 9)))
    (fun t => t.addr = 0 ∧ t.lost = true) := by decide

/-- The first steps of a program: `RUN STS_INIT` polled once is one write, a read, the engine's turn, a read (R85). -/
theorem test_run_events : programEvents 0 [.run .stsInit 1] =
    [.access (.write 32 0x4 0x10), .access (.read 32 0x8), .engine, .access (.read 32 0x8)] := by decide

/-! ### Witnesses: states that meet the hypotheses of the statements, a boundary value for each clause -/

/-- Eight bytes of `BUF`. -/
def eight : List Nat := [0xAB, 0xCD, 0xEF, 0x01, 0x00, 0x38, 0x80, 0xFF]

/-- The memory of eight bytes. -/
def ram : List Host.Cell := (block eight).buf

/-- A block with the most a container of this size can hold: both records, with all sub-fields. -/
def full : State :=
  let r (sn : Word) : NackRec :=
    { sn := sn, hasSo := true, soStart := 1, soEnd := 0xFFFF, hasRange := true, range := 0xFF }
  report (block (List.replicate 20 0)) .w18 0x3FFFF [r 0x3FFFF, r 0]

theorem witness_DecodeInvertsEncode :
    Instr.wellFormed .stsEnc = true ∧ Instr.wellFormed (.bfGet 0 false) = true ∧
    Instr.wellFormed (.bfPut 63 true) = true := by decide

theorem witness_LegalWordsAreEncodings :
    decode 0x00000015 = .ok .stsEnc ∧ decode 0x00013F20 = .ok (.bfGet 63 true) ∧
    decode 0x00000021 = .ok (.bfPut 0 false) := by decide

theorem witness_LegalWordsAreTheTables :
    let s : State := { block [] with cmd := 0x00004820 }
    let w : Access := .write 32 (0x20000 + 4) 0x00004820
    (∀ i, decode 0x00004820 ≠ .ok i) ∧ (s.cmd = 0x00004820 ∧ s.busy = true) ∧
      ((hosted s w).busy = false ∧ HostNext (hosted s w) w []) :=
  have h : decode 0x00004820 = .illegal (.reservedBits 0x20) := by decide
  ⟨fun i => by rw [h]; exact nofun, ⟨rfl, rfl⟩, rfl, rfl⟩

theorem witness_StepRunsTheDecodedCommand :
    let s : State := { block [] with cmd := 0x14 }
    let u : State := { s with inputs := [.engine] }
    (s.busy = true ∧ decode s.cmd = .ok .stsDec ∧ s.inputs = []) ∧
    (u.busy = true ∧ decode u.cmd = .ok .stsDec ∧ u.inputs = [.engine]) ∧
    (({ s with busy := false } : State).busy = false ∧ ({ s with busy := false } : State).inputs = []) ∧
    (({ u with busy := false } : State).busy = false ∧ ({ u with busy := false } : State).inputs = [.engine]) := by decide

theorem witness_IllegalWordCompletesIllegal :
    let s : State := { block [] with cmd := 0x05 }
    let u : State := { s with inputs := [.engine] }
    (s.busy = true ∧ decode s.cmd = .illegal (.unknownOpcode 0x05) ∧ s.inputs = []) ∧
    (u.busy = true ∧ decode u.cmd = .illegal (.unknownOpcode 0x05) ∧ u.inputs = [.engine]) := by decide

theorem witness_CommandStart :
    let w : Access := .write 32 (0x20000 + 4) 0xFFFFFFFF
    (HostNext (hosted (block []) w) w [] ∧ (hosted (block []) w).busy = false) ∧
    (HostNext (hostedBusy (block []) w) w [] ∧ (hostedBusy (block []) w).busy = true) ∧
    HostNext (hostedBusy (block []) (.read 32 (0x20000 + 0xC))) (.read 32 (0x20000 + 0xC)) [] := by decide

/-- `EveryCommandCompletes`, `NoStepStops`, `PackedSizeBound`, `StsRefreshRecomputes`: the invariant, of an ordinary and of a full block. -/
theorem witness_Inv : (block eight).Inv ∧ full.Inv := by
  and_intros <;> decide

/-- `CommandsKeepHostRegisters`, `OnlyNamedCommandsWrite`, `ErrorsWriteNothing`, `NackListOnlyGrowsOrClears`: a command that
completes, without and with an error. -/
theorem witness_exec_next : (∃ t, exec .nop (block []) = .next t ∧ t.ecode = .ok) ∧
    ∃ t, exec .hdrWrp { block [] with snSize := 2 } = .next t ∧ t.ecode ≠ .ok :=
  ⟨⟨_, rfl, rfl⟩, ⟨_, rfl, by decide⟩⟩

theorem witness_ErrorCodesOfEachCommand :
    let s : State := { block [] with cmd := 0xFF }
    s.busy = true ∧ s.inputs = [] ∧ decode s.cmd = .illegal (.unknownOpcode 0xFF) ∧
      after (step s) (fun t => t.ecode = .illegal) := by decide

theorem witness_CompletionInterrupt :
    let ack : Access := .write 32 (0x20000 + 8) 0x2
    let start : Access := .write 32 (0x20000 + 4) 0
    let mask : Access := .write 32 (0x20000 + 0x10) 0
    let s : State := { block [] with done := true, irqEn := true }
    (HostNext (hosted s ack) ack [] ∧ (hosted s ack).busy = false ∧ BitVec.getLsbD 2#32 1 = true ∧ s.irq = true) ∧
    (HostNext (hosted s start) start [] ∧ (hosted s start).busy = false) ∧
    ({ block [] with cmd := 0x05 } : State).busy = true ∧ (∃ t, engineTurn { block [] with cmd := 0x05 } = .next t) ∧
    (HostNext (hosted s mask) mask [] ∧ (hosted s mask).busy = false ∧ BitVec.getLsbD 0#32 8 = false) :=
  ⟨by decide, by decide, rfl, ⟨_, rfl⟩, by decide⟩

theorem witness_ResetState :
    let s : State := { full with inputs := [.reset, .engine] }
    s.inputs = .reset :: [.engine] ∧ s.busy = true ∧
      after (exec .stsInit { full with snSize := 0 }) (fun t => t.ctr = Container.fresh .w12) := by decide

/-- A command, a host access, and a reset, each one step from a state with the invariant. -/
theorem witness_EveryStepKeepsInv :
    full.Inv ∧ after (step { full with cmd := 0x15 }) (fun t => decide (t.result = 19 ∧ t.Inv)) ∧
    (hosted full (.write 8 0x30000 7)).Inv ∧
      after (step (hosted full (.write 8 0x30000 7))) (fun t => memRead t.buf 0 = some 7) ∧
    ({ full with inputs := [.reset] } : State).Inv ∧
      after (step { full with inputs := [.reset] }) (fun t => t.busy = false) := by
  (try dsimp only); and_intros <;> decide

theorem witness_ScriptsEndIdle :
    let s := hostedBusy full (.read 32 0x20008)
    s.Inv ∧ s.inputs.length = 1 ∧ s.busy = true := by
  (try dsimp only); and_intros <;> decide

theorem witness_PackedSizeInEveryReachableState :
    Params.Valid { bufSize := 8, nackMax := 1, base := 0 } ∧
      Params.Valid { bufSize := 65536, nackMax := 3840, base := 0x20000 } ∧
    ∃ t, Host.Core.run core 2 (State.resetWith { bufSize := 8, nackMax := 1, base := 0 } 0 [.reset]) = .next t :=
  ⟨by decide, by decide, _, rfl⟩

/-- The last field of `BUF`, its last bit, and a byte it covers. -/
theorem witness_GetBitsReadsMsbFirst :
    Memory.wf 8 ram ∧ (1 ≤ 32 ∧ 32 ≤ 32 ∧ 0 + (32 + 32 - 1) / 8 < 8) ∧ (1 ≤ 1 ∧ 1 ≤ 32 ∧ 7 + (7 + 1 - 1) / 8 < 8) ∧
      memRead ram (0 + (32 + 31) / 8) = some 0xFF := by decide

/-- `PutBitsWritesOnlyTheField`, `GetBitsAfterPutBits`: the last field, written; a byte inside and one outside. -/
theorem witness_PutBits :
    Memory.wf 8 ram ∧ (1 ≤ 32 ∧ 32 ≤ 32 ∧ 0 + (32 + 32 - 1) / 8 < 8) ∧ (putBits ram 0 32 32 0x12345678).isSome ∧
      memRead ram 4 = some 0x00 ∧ memRead ram 3 = some 0x01 := by decide

/-- Two fields that touch, on either side. -/
theorem witness_DisjointFieldsAreIndependent :
    Memory.wf 8 ram ∧ (1 ≤ 12 ∧ 12 ≤ 32 ∧ 1 ≤ 32 ∧ 32 ≤ 32) ∧
      (0 + (4 + 12 - 1) / 8 < 8 ∧ 0 + (16 + 32 - 1) / 8 < 8 ∧ 4 + 12 ≤ 16 ∧ (putBits ram 0 4 12 0xABC).isSome) ∧
      (0 + (0 + 32 - 1) / 8 < 8 ∧ 0 + (32 + 12 - 1) / 8 < 8 ∧ 0 + 32 ≤ 32 ∧ (putBits ram 0 32 12 0xABC).isSome) := by decide

theorem witness_FieldsAndBytes :
    (56 % 8 = 0 ∧ memRead ram (0 + 56 / 8) = some 0xFF) ∧
      (1 ≤ 9 ∧ 9 ≤ 32 ∧ (putBits ram 0 15 9 0).isSome ∧ 0 < 0 + 15 / 8 ∧ 0 + (15 + 9 - 1) / 8 < 3) := by decide

/-- `BfGetReadsTheField`, `BfPutWritesTheField`: W of 0 and 33; a region that ends before it starts; a field one bit too long, and the longest that fits. -/
theorem witness_BitFieldCommands :
    let s : State := { region (block eight) 6 8 with addr := 9 }
    let bad := region (block eight) 2 1
    s.Inv ∧ bad.Inv ∧ (0 < 1 ∨ 32 < 0) ∧ (33 < 1 ∨ 32 < 33) ∧ ¬ RegionOK bad ∧ RegionOK s ∧
      8 * rgnLen s < s.addr.toNat + 8 ∧ s.addr.toNat + 7 ≤ 8 * rgnLen s ∧
      s.addr.toNat + 32 ≤ 8 * s.params.bufSize ∧ 8 * s.params.bufSize < 33 + 32 ∧
      memRead s.buf 7 = some 0xFF := by
  (try dsimp only); and_intros <;> decide

/-- `HdrLenResult`, `StsInitConstructs`: each width, and the unsupported ones. -/
theorem witness_widths :
    ({ block [] with snSize := 0 } : State).snSize = 0 ∧ ({ block [] with snSize := 1 } : State).snSize = 1 ∧
    Unsupported { block [] with snSize := 2 } ∧ Unsupported { block [] with snSize := 3 } := by decide

/-- `HDR_RD`, 12-bit: an unsupported width, a bad region, lengths 0, 1, 2 and 3, 4 with SI 2. -/
theorem witness_HdrRd_12 :
    let plainHeader := block [0x90, 0x0A, 0, 0, 0, 0, 0, 0]
    let withSo := block [0xA1, 0x23, 0x04, 0x56, 0, 0, 0, 0]
    (Unsupported { plainHeader with snSize := 2 } ∧ ({ plainHeader with snSize := 2 } : State).Inv) ∧
    (Supported plainHeader ∧ ¬ RegionOK (region plainHeader 0 9) ∧ (region plainHeader 0 9).Inv) ∧
    (RegionOK (region plainHeader 8 8) ∧ rgnLen (region plainHeader 8 8) = 0) ∧
    (RegionOK (region plainHeader 0 1) ∧ 1 ≤ rgnLen (region plainHeader 0 1) ∧ rgnLen (region plainHeader 0 1) < 2) ∧
    (2 ≤ rgnLen (region plainHeader 0 2) ∧ ¬ Segmented ((rgnByte (region plainHeader 0 2) 0).extractLsb' 4 2)) ∧
    (2 ≤ rgnLen (region withSo 0 3) ∧ rgnLen (region withSo 0 3) < 4 ∧
      Segmented ((rgnByte (region withSo 0 3) 0).extractLsb' 4 2)) ∧
    (4 ≤ rgnLen (region withSo 0 4) ∧ (region withSo 0 4).Inv) := by
  (try dsimp only); and_intros <;> decide

/-- `HDR_RD`, 18-bit: a reserved bit, lengths 2, 3 and 4, 5 with SI 2. -/
theorem witness_HdrRd_18 :
    let wide (bytes : List Nat) (hi : Word) : State := { region (block bytes) 0 hi with snSize := 1 }
    let reserved := wide [0x84, 0, 0, 0, 0, 0, 0, 0] 1
    let header (hi : Word) := wide [0x83, 0xFF, 0xFF, 0, 0, 0, 0, 0] hi
    let withSo (hi : Word) := wide [0xA2, 0x00, 0x01, 0x01, 0x00, 0, 0, 0] hi
    (reserved.Inv ∧ RegionOK reserved ∧ 1 ≤ rgnLen reserved ∧ (rgnByte reserved 0).extractLsb' 2 2 ≠ 0) ∧
    (RegionOK (header 2) ∧ (rgnByte (header 2) 0).extractLsb' 2 2 = 0 ∧ rgnLen (header 2) < 3) ∧
    (3 ≤ rgnLen (header 3) ∧ ¬ Segmented ((rgnByte (header 3) 0).extractLsb' 4 2)) ∧
    (3 ≤ rgnLen (withSo 4) ∧ rgnLen (withSo 4) < 5 ∧ Segmented ((rgnByte (withSo 4) 0).extractLsb' 4 2)) ∧
    (5 ≤ rgnLen (withSo 5) ∧ (withSo 5).Inv) := by
  (try dsimp only); and_intros <;> decide

/-- `HDR_WR` at the last address that fits and the one after it. -/
theorem witness_HdrWrWritesTheImage :
    let s (a : Word) : State := { block (List.replicate 8 0) with addr := a }
    (s 6).Inv ∧ Supported (s 6) ∧ (s 6).addr.toNat + (headerBytes (s 6)).length ≤ (s 6).params.bufSize ∧
      (s 7).params.bufSize < (s 7).addr.toNat + (headerBytes (s 7)).length ∧ Unsupported { s 6 with snSize := 3 } := by
  (try dsimp only); and_intros <;> decide

/-- `HDR_WRP` with exactly room in front, one byte short of it, and, in legacy mode, an image past the end of `BUF`. -/
theorem witness_HdrWrpPrependsTheImage :
    let s (lo hi : Word) : State := region (block (List.replicate 8 0)) lo hi
    let long : State := { s 8 8 with soLegacy := true, hdr := { dc := false, p := false, si := 0, sn := 0, so := 1 } }
    ((s 2 8).Inv ∧ Supported (s 2 8) ∧ RegionOK (s 2 8) ∧ headerLen (s 2 8) ≤ (s 2 8).rgnStart.toNat ∧
      (s 2 8).rgnStart.toNat - headerLen (s 2 8) + (headerBytes (s 2 8)).length ≤ (s 2 8).params.bufSize ∧
      (s 2 8).soLegacy = false) ∧
    (RegionOK (s 1 8) ∧ (s 1 8).rgnStart.toNat < headerLen (s 1 8)) ∧ ¬ RegionOK (s 8 9) ∧ Unsupported { s 2 8 with snSize := 2 } ∧
    (long.Inv ∧ Supported long ∧ RegionOK long ∧ headerLen long ≤ long.rgnStart.toNat ∧
      long.params.bufSize < long.rgnStart.toNat - headerLen long + (headerBytes long).length) := by
  (try dsimp only); and_intros <;> decide

/-- The round trip at both widths, with the largest SN; the 18-bit one in legacy mode with an SO. -/
theorem witness_HeaderRoundTrip :
    let s : State := { region (block (List.replicate 8 0)) 5 8 with
      addr := 6, hdr := { dc := true, p := true, si := 1, sn := 0xFFF, so := 0 } }
    let u : State := { region (block (List.replicate 8 0)) 5 5 with
      snSize := 1, soLegacy := true, addr := 3, hdr := { dc := true, p := false, si := 3, sn := 0x3FFFF, so := 1 } }
    (s.Inv ∧ s.hdr.dc = true ∧ s.snSize = 0 ∧ s.hdr.sn.toNat < 2 ^ 12 ∧ ¬ Segmented s.hdr.si ∧ s.hdr.so = 0 ∧
      s.addr.toNat + headerLen s ≤ s.params.bufSize ∧ s.addr.toNat + headerLen s ≤ (8 : Word).toNat ∧
      RegionOK s ∧ headerLen s ≤ s.rgnStart.toNat) ∧
    (u.Inv ∧ u.hdr.dc = true ∧ u.snSize = 1 ∧ u.hdr.sn.toNat < 2 ^ 18 ∧ Segmented u.hdr.si ∧ u.soLegacy = true ∧ u.hdr.so ≠ 0 ∧
      u.addr.toNat + headerLen u ≤ u.params.bufSize ∧ RegionOK u ∧ headerLen u ≤ u.rgnStart.toNat) := by
  (try dsimp only); and_intros <;> decide

theorem witness_StsPushAppends :
    let s := report (block eight) .w12 0 [plain 7]
    full.ctr.nacks.length = full.params.nackMax ∧ s.Inv ∧ s.ctr.nacks.length < s.params.nackMax := by
  (try dsimp only); and_intros <;> decide

/-- `STS_ENC` with exactly room to the end of `BUF`, and one byte short of it. -/
theorem witness_StsEncWritesThePdu :
    let s (lo hi : Word) := region full lo hi
    ((s 1 1).Inv ∧ RegionOK (s 1 1) ∧ (s 1 1).rgnStart.toNat + (s 1 1).ctr.psize.toNat ≤ (s 1 1).params.bufSize) ∧
    (RegionOK (s 2 2) ∧ (s 2 2).params.bufSize < (s 2 2).rgnStart.toNat + (s 2 2).ctr.psize.toNat) ∧
    ¬ RegionOK (s 2 1) := by
  (try dsimp only); and_intros <;> decide

/-- The fixed part, 12-bit: region bad, empty, CPT not 000, lengths 1 and 2, reserved bits, E1 = 0 and 1. -/
theorem witness_StsDecFixedPart_12 :
    let s (bytes : List Nat) (hi : Word) := region (block bytes) 0 hi
    let e0 := s [0x80, 5, 0x00, 0, 0, 0, 0, 0]
    let e1 := s [0x00, 5, 0x80, 0, 0, 0, 0, 0]
    let cpt := s [0x10, 5, 0, 0, 0, 0, 0, 0] 1
    let rsv := s [0x00, 5, 0x40, 0, 0, 0, 0, 0] 3
    ((e0 9).Inv ∧ ¬ RegionOK (e0 9)) ∧ (RegionOK (e0 0) ∧ rgnLen (e0 0) = 0) ∧
    (RegionOK cpt ∧ 1 ≤ rgnLen cpt ∧ (rgnByte cpt 0).extractLsb' 4 3 ≠ 0) ∧
    ((e0 1).ctr.width = .w12 ∧ (rgnByte (e0 1) 0).extractLsb' 4 3 = 0 ∧ rgnLen (e0 1) < 2) ∧
    (rgnLen (e0 2) = 2 ∧ (rgnByte (e0 2) 0).extractLsb' 4 3 = 0) ∧
    (3 ≤ rgnLen rsv ∧ (rgnByte rsv 2).extractLsb' 0 7 ≠ 0) ∧
    (3 ≤ rgnLen (e0 3) ∧ rgnByte (e0 3) 2 = 0x00) ∧ (3 ≤ rgnLen (e1 3) ∧ rgnByte (e1 3) 2 = 0x80) := by
  (try dsimp only); and_intros <;> decide

/-- The fixed part, 18-bit: length 2, the reserved bit, E1 = 0 and 1. -/
theorem witness_StsDecFixedPart_18 :
    let s (bytes : List Nat) (hi : Word) := report (region (block bytes) 0 hi) .w18 0 []
    let e0 := s [0x04, 0x8D, 0x14, 0, 0, 0, 0, 0]
    let e1 := s [0x04, 0x8D, 0x16, 0, 0, 0, 0, 0] 3
    let rsv := s [0x04, 0x8D, 0x15, 0, 0, 0, 0, 0] 3
    ((e0 2).Inv ∧ RegionOK (e0 2) ∧ 1 ≤ rgnLen (e0 2) ∧ (e0 2).ctr.width = .w18 ∧
      (rgnByte (e0 2) 0).extractLsb' 4 3 = 0 ∧ rgnLen (e0 2) < 3) ∧
    (3 ≤ rgnLen rsv ∧ (rgnByte rsv 2).getLsbD 0 = true) ∧
    (3 ≤ rgnLen (e0 3) ∧ (rgnByte (e0 3) 2).extractLsb' 0 2 = 0) ∧
    (3 ≤ rgnLen e1 ∧ (rgnByte e1 2).extractLsb' 0 2 = 2) := by
  (try dsimp only); and_intros <;> decide

/-- One NACK element at offset 3, 12-bit, with all sub-fields (7 bytes): missing its mandatory part by one byte, a reserved
bit, missing its last byte, the table full, and complete. -/
theorem witness_StsDecNackElement :
    let s (trailer : Nat) (hi : Word) := region (block [0, 5, 0x80, 0x11, trailer, 0, 2, 0, 0x10, 5]) 0 hi
    let twice := report (s 0x16 10) .w12 5 [plain 1, plain 2]
    ((s 0x16 4).Inv ∧ RegionOK (s 0x16 4) ∧ rgnLen (s 0x16 4) < 3 + 2) ∧
    (3 + 2 ≤ rgnLen (s 0x17 5) ∧ (rgnByte (s 0x17 5) 4).extractLsb' 0 1 ≠ 0) ∧
    (3 + 2 ≤ rgnLen (s 0x16 9) ∧ (rgnByte (s 0x16 9) 4).extractLsb' 0 1 = 0 ∧ rgnLen (s 0x16 9) < 10) ∧
    (twice.Inv ∧ RegionOK twice ∧ 10 ≤ rgnLen twice ∧ twice.ctr.nacks.length = twice.params.nackMax) ∧
    (10 ≤ rgnLen (s 0x16 10) ∧ (s 0x16 10).ctr.nacks.length < (s 0x16 10).params.nackMax) := by
  (try dsimp only); and_intros <;> decide

/-- Two records in a region with one byte after the PDU and D/C = 1, filling the table. -/
theorem witness_StsDecReadsEveryReport :
    let s := region (block [0x80, 5, 0x80, 0x00, 0x38, 0x00, 0x40, 0xAA]) 0 8
    s.Inv ∧ RegionOK s ∧ InWidth s.ctr.width 5 [plain 3, plain 4] ∧
      s.ctr.nacks.length + [plain 3, plain 4].length ≤ s.params.nackMax ∧ RegionHolds s 5 [plain 3, plain 4] := by
  (try dsimp only); and_intros <;> decide

/-- `StsDecAcceptsOnlyReports`, `StsDecFailureKeepsPartialReport`: both decodes end: one without an error, one with. -/
theorem witness_StsDec_ends :
    let s := region (block [0x80, 5, 0x80, 0x00, 0x38, 0x00, 0x40, 0xAA]) 0 8
    s.Inv ∧ after (exec .stsDec s) (fun t => t.ecode = .ok) ∧ (region s 0 6).Inv ∧ RegionOK (region s 0 6) ∧
      after (exec .stsDec (region s 0 6)) (fun t => t.ecode = .truncated) ∧
      ¬ RegionOK (region s 0 9) ∧ after (exec .stsDec (region s 0 9)) (fun t => t.ecode ≠ .ok) := by
  (try dsimp only); and_intros <;> decide

theorem witness_StatusRoundTrip :
    let s := region full 1 1
    s.Inv ∧ RegionOK s ∧ s.rgnStart.toNat + s.ctr.psize.toNat ≤ s.params.bufSize ∧
      InWidth s.ctr.width s.ctr.ackSn s.ctr.nacks := by
  (try dsimp only); and_intros <;> decide

/-- A wrong size, and the last offset of the window; and the last legal offset of each kind. -/
theorem witness_BusErrorsChangeNothing :
    let s := block eight
    s.Inv ∧ 0x1FFFF < 0x20000 ∧ ¬ LegalAccess s.params 8 0x1FFFF ∧ ¬ LegalAccess s.params 8 0x10 ∧
      LegalAccess s.params 32 0x68 ∧ LegalAccess s.params 32 0x101C ∧ LegalAccess s.params 8 0x10007 ∧
      HostNext (hosted s (.read 8 0x3FFFF)) (.read 8 (s.params.base + 0x1FFFF)) [] ∧
      HostNext (hosted s (.write 8 0x30007 1)) (.write 8 (s.params.base + 0x10007) 1) [] := by
  (try dsimp only); and_intros <;> decide

theorem witness_IdleReads :
    let s (a : Nat) (w : Nat) := hosted (block eight) (.read w (0x20000 + a))
    ((s 0x68 32).Inv ∧ (s 0x68 32).busy = false ∧ (0x68, 0) ∈ registerMap (s 0x68 32) ∧
      HostNext (s 0x68 32) (.read 32 (0x20000 + 0x68)) []) ∧
    (1 < (s 0x101C 32).params.nackMax ∧ HostNext (s 0x101C 32) (.read 32 (0x20000 + 0x1000 + 16 * 1 + 4 * 3)) []) ∧
    (7 < (s 0x10007 8).params.bufSize ∧ HostNext (s 0x10007 8) (.read 8 (0x20000 + 0x10000 + 7)) []) := by
  (try dsimp only); and_intros <;> decide

/-- `IdleRegisterWrites`, `IdleBufWrite`. -/
theorem witness_IdleWrites :
    let s (a : Nat) (w : Nat) := hosted (block eight) (.write w (0x20000 + a) 0xFFFFFFFF)
    ((s 0x10 32).Inv ∧ (s 0x10 32).busy = false ∧
      (0x10, 0x113) ∈ storedBits ∧ HostNext (s 0x10 32) (.write 32 (0x20000 + 0x10) 0xFFFFFFFF) []) ∧
    (0x50 ∈ readOnlyOffsets ∧ HostNext (s 0x50 32) (.write 32 (0x20000 + 0x50) 0xFFFFFFFF) []) ∧
    (0x101C < 0x1000 + 16 * (s 0x101C 32).params.nackMax ∧ 0x101C % 4 = 0 ∧
      HostNext (s 0x101C 32) (.write 32 (0x20000 + 0x101C) 0xFFFFFFFF) []) ∧
    (7 < (s 0x10007 8).params.bufSize ∧ HostNext (s 0x10007 8) (.write 8 (0x20000 + 0x10000 + 7) 0xFFFFFFFF) []) := by
  (try dsimp only); and_intros <;> decide

theorem witness_StatusWriteClearsStickyBits :
    HostNext (hostedBusy (block []) (.write 32 0x20008 6)) (.write 32 (0x20000 + 8) 6) [] := by decide

/-- Offsets next to `STATUS`, at the end of each window, and beyond. -/
theorem witness_BusyAccesses :
    let p := (block eight).params
    p.Valid ∧ (hostedBusy (block eight) (.write 32 0x20004 0)).busy = true ∧
    (LegalAccess p 32 4 ∧ 4 ≠ 8 ∧ HostNext (hostedBusy (block eight) (.write 32 0x20004 0)) (.write 32 (0x20000 + 4) 0) []) ∧
    HostNext (hostedBusy (block eight) (.write 32 0x20008 2)) (.write 32 (0x20000 + 8) 2) [] ∧
    ((0x08, 1) ∈ registerMap (hostedBusy (block eight) (.read 32 0x20008)) ∧
      HostNext (hostedBusy (block eight) (.read 32 0x20008)) (.read 32 (0x20000 + 0x08)) []) ∧
    (LegalAccess p 32 0x101C ∧ HostNext (hostedBusy (block eight) (.read 32 0x2101C)) (.read 32 (0x20000 + 0x101C)) []) ∧
    (LegalAccess p 8 0x10000 ∧ HostNext (hostedBusy (block eight) (.read 8 0x30000)) (.read 8 (0x20000 + 0x10000)) []) ∧
    (0x10008 < 0x20000 ∧ ¬ LegalAccess p 8 0x10008 ∧
      HostNext (hostedBusy (block eight) (.read 8 0x30008)) (.read 8 (0x20000 + 0x10008)) []) := by decide

end Sys2Proof.Tests
end

section
/-! PROOFS. No step stops: every command, every turn and every access of a state with the invariant answers a next state.
Each access to `BUF` follows a check that keeps it inside (R10, R61), and the NACK loop uses up its region (R193). -/

namespace Sys2Proof.Machine

/-! ### Answering a next state, for each way a result is built -/

/-- The result is a next state: neither a fault nor a refusal. -/
def Answers (x : Result) : Prop := ∃ t, x = .next t

theorem goes_iff_answers (s : State) : s.Goes ↔ Answers (step s) := Iff.rfl

@[simp] theorem answers_next (s : State) : Answers (.next s) := ⟨s, rfl⟩

@[simp] theorem answers_finish (v : Word) (s : State) : Answers (finish v s) := ⟨_, rfl⟩

@[simp] theorem answers_raise (e : ErrCode) (s : State) : Answers (raise e s) := ⟨_, rfl⟩

@[simp] theorem answers_decFail (e : ErrCode) (s : State) : Answers (decFail e s) := ⟨_, rfl⟩

@[simp] theorem answers_respond (r : Response) (s : State) : Answers (respond r s) := ⟨_, rfl⟩

theorem answers_ite {c : Prop} [Decidable c] {x y : Result} (hx : c → Answers x) (hy : ¬ c → Answers y) :
    Answers (if c then x else y) := by
  split
  · next h => exact hx h
  · next h => exact hy h

theorem answers_onBuf {α : Type} {x : Option α} {k : α → Result} (hx : ∃ v, x = some v) (hk : ∀ v, Answers (k v)) :
    Answers (onBuf x k) := by
  obtain ⟨v, rfl⟩ := hx
  exact hk v

/-- The region check that opens a command: beyond it the region is consistent. -/
theorem answers_regionCheck {s : State} {x : Result} (hx : s.regionOk → Answers x) :
    Answers (if ¬ s.regionOk then raise .region s else x) :=
  answers_ite (fun _ => answers_raise _ _) fun h => hx (Decidable.not_not.1 h)

theorem answers_withWidth {s : State} {k : SnWidth → Result} (hk : ∀ w, Answers (k w)) : Answers (withWidth s k) := by
  rcases withWidth_cases s k with ⟨-, e⟩ | ⟨w, -, e⟩ <;> rw [e]
  · exact answers_raise _ _
  · exact hk w

/-- Beyond the checks of a bit-field command, the field lies inside `BUF`. -/
theorem answers_withField {width : Nat} {rel : Bool} {short : ErrCode} {s : State} {k : Nat → Result}
    (hk : ∀ a0, a0 + (s.addr.toNat + width - 1) / 8 < s.params.bufSize → Answers (k a0)) :
    Answers (withField width rel short s k) := by
  rcases withField_cases width rel short s k with ⟨e, -, h⟩ | ⟨a0, limit, hpos, -, hwin, hfit, h⟩ <;> rw [h]
  · exact answers_raise _ _
  · exact hk a0 (fieldWindow_inside hwin hpos hfit)

/-! ### The bit-field and header commands -/

theorem execBfGet_answers {s : State} (hm : Memory.wf s.params.bufSize s.buf) (width : Nat) (rel : Bool) :
    Answers (execBfGet width rel s) :=
  answers_withField fun _ hin => answers_onBuf (getBits_of_lt hm (.inr hin)) fun _ => answers_finish _ _

theorem execBfPut_answers {s : State} (hm : Memory.wf s.params.bufSize s.buf) (width : Nat) (rel : Bool) :
    Answers (execBfPut width rel s) :=
  answers_withField fun _ hin => answers_onBuf (putBits_of_lt hm _ _ (.inr hin)) fun _ => answers_finish _ _

theorem execHdrLen_answers (s : State) : Answers (execHdrLen s) := answers_withWidth fun _ => answers_finish _ _

/-- The SN of a data-PDU header ends with its mandatory bytes (R88, R89). -/
theorem hdrSnPos_add_bits (w : SnWidth) : w.hdrSnPos + w.bits = 8 * w.snBytes := by cases w <;> rfl

theorem execHdrRd_answers {s : State} (hm : Memory.wf s.params.bufSize s.buf) : Answers (execHdrRd s) := by
  unfold execHdrRd
  refine answers_withWidth fun w => answers_regionCheck fun hr => ?_
  refine answers_ite (fun _ => answers_raise _ _) fun hlen => ?_
  have hfirst : s.rgnStart.toNat < s.params.bufSize := by
    obtain ⟨-, hend⟩ := hr
    unfold State.regionLen at hlen
    omega
  refine answers_onBuf (memRead_of_lt hm hfirst) fun b0 => ?_
  refine answers_ite (fun _ => answers_raise _ _) fun _ => ?_
  refine answers_ite (fun _ => answers_raise _ _) fun hsn => ?_
  have hpos := hdrSnPos_add_bits w
  refine answers_onBuf (regionBits_of_le hm hr (by omega)) fun sn => ?_
  refine answers_ite (fun _ => ?_) fun _ => answers_finish _ _
  refine answers_ite (fun _ => answers_raise _ _) fun hso => ?_
  exact answers_onBuf (regionBits_of_le hm hr (by omega)) fun so => answers_finish _ _

theorem execHdrWr_answers {s : State} (hm : Memory.wf s.params.bufSize s.buf) : Answers (execHdrWr s) := by
  unfold execHdrWr
  refine answers_withWidth fun w => answers_ite (fun _ => answers_raise _ _) fun hfit => ?_
  exact answers_onBuf (writeBytes_of_le hm (Nat.not_lt.1 hfit)) fun _ => answers_finish _ _

theorem execHdrWrp_answers {s : State} (hm : Memory.wf s.params.bufSize s.buf) : Answers (execHdrWrp s) := by
  unfold execHdrWrp
  refine answers_withWidth fun w => answers_regionCheck fun _ => ?_
  refine answers_ite (fun _ => answers_raise _ _) fun _ => ?_
  refine answers_ite (fun _ => answers_raise _ _) fun hfit => ?_
  exact answers_onBuf (writeBytes_of_le hm (Nat.not_lt.1 hfit)) fun _ => answers_finish _ _

/-! ### The container commands -/

theorem execStsInit_answers (s : State) : Answers (execStsInit s) := by
  unfold execStsInit
  split
  · exact answers_raise _ _
  · exact answers_finish _ _

theorem execStsPush_answers (s : State) : Answers (execStsPush s) := by
  unfold execStsPush
  split
  · exact answers_raise _ _
  · exact answers_finish _ _

/-- `STS_ENC` checks the cached packed size, which is the length of the image it writes (R45, R200). -/
theorem execStsEnc_answers {s : State} (hm : Memory.wf s.params.bufSize s.buf)
    (hsize : s.ctr.psize.toNat = packedSize s.ctr.width s.ctr.nacks) : Answers (execStsEnc s) := by
  unfold execStsEnc
  refine answers_regionCheck fun _ => answers_ite (fun _ => answers_raise _ _) fun hfit => ?_
  refine answers_onBuf (writeBytes_of_le hm ?_) fun _ => answers_finish _ _
  rw [statusImage_length, ← hsize]
  exact Nat.not_lt.1 hfit

/-! ### `STS_DEC` -/

theorem optField_isSome {present : Bool} {field : Option Nat} (h : present = true → ∃ v, field = some v) :
    ∃ v, optField present field = some v := by
  cases present with
  | false => exact ⟨0, rfl⟩
  | true => exact h rfl

/-- Each optional field is read after its own `need`, so it lies inside the region (R192). -/
theorem readOptional_isSome {s : State} (hm : Memory.wf s.params.bufSize s.buf) (hr : s.regionOk) (sn : Word)
    (more hasSo hasRange : Bool) (k : Nat) : ∃ x, readOptional s sn more hasSo hasRange k = some x := by
  unfold readOptional
  split
  · exact ⟨_, rfl⟩
  next hso =>
  have hso : hasSo = true → k + 4 ≤ s.regionLen := fun h => by simpa [h] using hso
  obtain ⟨soStart, hstart⟩ := optField_isSome (present := hasSo) (field := s.regionBits (8 * k) 16)
    fun h => regionBits_of_le hm hr (by have := hso h; omega)
  obtain ⟨soEnd, hend⟩ := optField_isSome (present := hasSo) (field := s.regionBits (8 * k + 16) 16)
    fun h => regionBits_of_le hm hr (by have := hso h; omega)
  simp only [hstart, hend, Option.bind_some]
  generalize k + (if hasSo = true then 4 else 0) = k'
  split
  · exact ⟨_, rfl⟩
  next hrg =>
  have hrg : hasRange = true → k' + 1 ≤ s.regionLen := fun h => by simpa [h] using hrg
  obtain ⟨range, hrange⟩ := optField_isSome (present := hasRange) (field := s.regionBits (8 * k') 8)
    fun h => regionBits_of_le hm hr (by have := hrg h; omega)
  exact ⟨_, by rw [hrange, Option.bind_some]⟩

/-- The SN and the three extension flags of a NACK fit its mandatory part (R94, R95). -/
theorem bits_add_three_le (w : SnWidth) : w.bits + 3 ≤ 8 * w.nackBytes := by cases w <;> decide

/-- Reading a NACK element never leaves `BUF`: its mandatory part is read after the check that it is in the region (R192). -/
theorem readElement_isSome {s : State} (hm : Memory.wf s.params.bufSize s.buf) (hr : s.regionOk) (w : SnWidth)
    (q : Nat) : ∃ x, readElement s w q = some x := by
  unfold readElement
  split
  · exact ⟨_, rfl⟩
  next hlen =>
  have hw := bits_add_three_le w
  obtain ⟨sn, hsn⟩ := regionBits_of_le hm hr (p := 8 * q) (n := w.bits) (by omega)
  obtain ⟨e1, he1⟩ := regionBits_of_le hm hr (p := 8 * q + w.bits) (n := 1) (by omega)
  obtain ⟨e2, he2⟩ := regionBits_of_le hm hr (p := 8 * q + w.bits + 1) (n := 1) (by omega)
  obtain ⟨e3, he3⟩ := regionBits_of_le hm hr (p := 8 * q + w.bits + 2) (n := 1) (by omega)
  obtain ⟨rsv, hrsv⟩ := regionBits_of_le hm hr (p := 8 * q + w.bits + 3) (n := 8 * w.nackBytes - w.bits - 3) (by omega)
  simp only [hsn, he1, he2, he3, hrsv, Option.bind_some]
  split
  · exact ⟨_, rfl⟩
  · exact readOptional_isSome hm hr _ _ _ _ _

/-- An element takes at least 2 bytes and ends inside the region, so a bound that reaches beyond the region's end from the
current offset is never used up (R193). -/
theorem decLoop_answers {fuel k : Nat} {s : State} (hm : Memory.wf s.params.bufSize s.buf) (hr : s.regionOk)
    (hk : k ≤ s.regionLen) (hfuel : s.regionLen < k + fuel) : Answers (decLoop fuel k s) := by
  induction fuel generalizing k s with
  | zero => omega
  | succ fuel ih =>
    obtain ⟨x, hx⟩ := readElement_isSome hm hr s.ctr.width k
    rw [decLoop, hx]
    rcases readElement_cases hx with rfl | rfl | ⟨r, more, k', rfl, -, hk', hend⟩
    · exact answers_decFail _ _
    · exact answers_decFail _ _
    · rcases append_cases s r with ⟨-, ha⟩ | ⟨-, ha⟩
      · simp [ha]
      · have htwo : 2 ≤ contrib s.ctr.width r := (contrib_bounds _ _).1
        have hrest : Answers (decLoop fuel k' (s.withCtr (s.ctr.push r))) :=
          ih hm hr hend (show s.regionLen < k' + fuel by omega)
        simp only [ha]
        exact answers_ite (fun _ => hrest) fun _ => answers_finish _ _

/-- ACK_SN lies in the bytes checked for it, and before the end of the fixed part (R92, R93, R191). -/
theorem ackSn_fits (w : SnWidth) : 4 + w.bits ≤ 8 * w.ackBytes ∧ w.bits ≤ 19 := by cases w <;> decide

theorem execStsDec_answers {s : State} (hm : Memory.wf s.params.bufSize s.buf) : Answers (execStsDec s) := by
  unfold execStsDec
  have ⟨hack, hbits⟩ := ackSn_fits s.ctr.width
  refine answers_regionCheck fun hr => ?_
  refine answers_ite (fun _ => answers_decFail _ _) fun hone => ?_
  refine answers_onBuf (regionBits_of_le hm hr (by omega)) fun cpt => ?_
  refine answers_ite (fun _ => answers_decFail _ _) fun _ => ?_
  refine answers_ite (fun _ => answers_decFail _ _) fun hlen => ?_
  refine answers_onBuf (regionBits_of_le hm hr (by omega)) fun ack => ?_
  refine answers_ite (fun _ => answers_decFail _ _) fun hthree => ?_
  refine answers_onBuf (regionBits_of_le hm hr (by omega)) fun e1 => ?_
  refine answers_onBuf (regionBits_of_le hm hr (by omega)) fun rsv => ?_
  refine answers_ite (fun _ => answers_decFail _ _) fun _ => ?_
  refine answers_ite (fun _ => ?_) fun _ => answers_finish _ _
  exact decLoop_answers hm hr (Nat.not_lt.1 hthree) (show s.regionLen < 3 + s.regionLen by omega)

/-! ### The engine, the host bus, and the step -/

/-- Every command of a state with the invariant runs to an answer (R231). -/
theorem exec_answers {s : State} (hs : s.Inv) (i : Instr) : Answers (exec i s) := by
  obtain ⟨-, hm, ⟨-, hsize, -, -⟩, -, -⟩ := hs
  cases i with
  | nop => exact answers_finish _ _
  | hdrRd => exact execHdrRd_answers hm
  | hdrLen => exact execHdrLen_answers s
  | hdrWr => exact execHdrWr_answers hm
  | hdrWrp => exact execHdrWrp_answers hm
  | stsInit => exact execStsInit_answers s
  | stsRst => exact answers_finish _ _
  | stsPush => exact execStsPush_answers s
  | stsRefresh => exact answers_finish _ _
  | stsDec => exact execStsDec_answers hm
  | stsEnc => exact execStsEnc_answers hm hsize
  | bfGet width rel => exact execBfGet_answers hm width rel
  | bfPut width rel => exact execBfPut_answers hm width rel

theorem engineTurn_answers {s : State} (hs : s.Inv) : Answers (engineTurn s) := by
  refine answers_ite (fun _ => ?_) fun _ => answers_next _
  unfold engineStep
  split
  · exact exec_answers hs _
  · exact answers_raise _ _

/-- A legal access to the BUF window is to a byte that `BUF` has (R63). -/
theorem targetOf_buf_lt {p : Params} {width off a : Nat} (h : targetOf p width off = some (.buf a)) :
    a < p.bufSize := by
  unfold targetOf at h
  split at h
  · split at h
    · cases h
    · split at h <;> cases h
  · split at h
    · next hwin =>
      simp only [Option.some.injEq, Target.buf.injEq] at h
      omega
    · cases h

theorem readFree_answers (x : Target) (s : State) : Answers (readFree x s) := by
  cases x <;> exact answers_respond _ _

theorem busRead_answers {x : Target} {s : State} (hm : Memory.wf s.params.bufSize s.buf)
    (hx : ∀ a, x = .buf a → a < s.params.bufSize) : Answers (busRead x s) := by
  refine answers_ite (fun _ => ?_) fun _ => ?_
  · split
    · exact answers_respond _ _
    · exact answers_respond _ _
    · exact answers_respond _ _
    · exact readFree_answers _ _
  · cases x with
    | reg r => exact answers_respond _ _
    | nack entry word => exact answers_respond _ _
    | buf a => exact answers_onBuf (memRead_of_lt hm (hx a rfl)) fun _ => answers_respond _ _

theorem busWrite_answers {x : Target} {v : Word} {s : State} (hm : Memory.wf s.params.bufSize s.buf)
    (hx : ∀ a, x = .buf a → a < s.params.bufSize) : Answers (busWrite x v s) := by
  refine answers_ite (fun _ => answers_respond _ _) fun _ => ?_
  refine answers_ite (fun _ => answers_respond _ _) fun _ => ?_
  cases x with
  | reg r => exact answers_respond _ _
  | nack entry word => exact answers_respond _ _
  | buf a => exact answers_onBuf (memWrite_of_lt hm (hx a rfl) _) fun _ => answers_respond _ _

theorem hostStep_answers {s : State} (hm : Memory.wf s.params.bufSize s.buf) (a : Access) : Answers (hostStep a s) := by
  refine answers_ite (fun _ => answers_respond _ _) fun _ => ?_
  split
  · exact answers_respond _ _
  next x hx =>
  have hbuf : ∀ b, x = .buf b → b < s.params.bufSize := by
    rintro b rfl
    exact targetOf_buf_lt hx
  cases a with
  | read width addr => exact busRead_answers hm hbuf
  | write width addr v => exact busWrite_answers hm hbuf

/-- The script is no part of the invariant. -/
theorem inv_withInputs {s : State} (rest : List Event) : (s.withInputs rest).Inv ↔ s.Inv := Iff.rfl

/-- Settles O15, by the kinds of step: an engine turn (of an idle block, a command, an illegal word), a host access, a reset. -/
theorem noStepStops : Obligations.NoStepStops := by
  intro s hs
  rw [goes_iff_answers]
  unfold step
  split
  · exact engineTurn_answers hs
  · next rest _ => exact engineTurn_answers ((inv_withInputs rest).2 hs)
  · next rest _ =>
    obtain ⟨-, hm, -⟩ := (inv_withInputs rest).2 hs
    exact hostStep_answers hm _
  · exact answers_next _

end Sys2Proof.Machine
end

section
/-! PROOFS. What a command leaves unchanged, and what every step keeps: the frame of a command (R83, R232), the NACK list
(R35, R40), and the invariant, so that the packed size is right in every reachable state (R45). -/

open Sys2Proof.Claims

namespace Sys2Proof.Machine

/-! ### The frame of a command -/

/-- What every command keeps, whatever it computes. A command's own effect lies in the fields that `rest` takes from `t`. -/
structure CommandFrame (i : Instr) (s t : State) : Prop where
  /-- Beside `BUF`, the region, the header registers and the container, only the completion is written (R83, R232). -/
  rest : t = { s with
    buf := t.buf, rgnStart := t.rgnStart, rgnEnd := t.rgnEnd, hdr := t.hdr, ctr := t.ctr,
    busy := false, done := true, ecode := t.ecode, result := t.result }
  /-- `BUF` keeps its addresses (R42). -/
  addresses : t.buf.map Prod.fst = s.buf.map Prod.fst
  /-- RESULT is 0 after an error (R24). -/
  errorResult : t.ecode ≠ .ok → t.result = 0
  /-- Only the container commands write the container (R83). -/
  container : writesContainer i = false → t.ctr = s.ctr

theorem commandFrame_raise (i : Instr) (s : State) (e : ErrCode) : CommandFrame i s (s.complete e 0) :=
  ⟨rfl, rfl, fun _ => rfl, fun _ => rfl⟩

theorem commandFrame_finish (i : Instr) (s : State) (v : Word) : CommandFrame i s (s.complete .ok v) :=
  ⟨rfl, rfl, fun h => absurd rfl h, fun _ => rfl⟩

/-- The completion of a command that writes `BUF`, and perhaps the region. -/
theorem commandFrame_buf (i : Instr) {s : State} {m : List Host.Cell} (lo hi v : Word)
    (hm : m.map Prod.fst = s.buf.map Prod.fst) :
    CommandFrame i s (((s.withBuf m).withRegion lo hi).complete .ok v) :=
  ⟨rfl, hm, fun h => absurd rfl h, fun _ => rfl⟩

theorem commandFrame_hdr (i : Instr) (s : State) (h : HeaderRegs) (v : Word) :
    CommandFrame i s ((s.withHdr h).complete .ok v) :=
  ⟨rfl, rfl, fun h => absurd rfl h, fun _ => rfl⟩

/-- The completion of a container command, with or without an error. -/
theorem commandFrame_ctr {i : Instr} (hi : writesContainer i = true) (s : State) (c : Container) {e : ErrCode} {v : Word}
    (hv : e ≠ .ok → v = 0) : CommandFrame i s ((s.withCtr c).complete e v) :=
  ⟨rfl, rfl, hv, fun h => by rw [hi] at h; cases h⟩

theorem execStsPush_frame {s t : State} (h : execStsPush s = .next t) : CommandFrame .stsPush s t := by
  rcases execStsPush_cases h with rfl | ⟨u, hu, rfl⟩
  · exact commandFrame_raise _ _ _
  · rcases append_cases s (stagedRecord s) with ⟨-, ha⟩ | ⟨-, ha⟩ <;> rw [ha] at hu <;> cases hu
    exact commandFrame_ctr rfl _ _ fun h => absurd rfl h

theorem execStsDec_frame {s t : State} (h : execStsDec s = .next t) : CommandFrame .stsDec s t := by
  rcases execStsDec_cases h with ⟨-, rfl⟩ | ⟨-, c, _, v, -, -, ⟨-, -, rfl⟩ | ⟨-, e, -, rfl⟩⟩
  · exact commandFrame_raise _ _ _
  · exact commandFrame_ctr rfl _ _ fun h => absurd rfl h
  · exact commandFrame_ctr rfl _ _ fun _ => rfl

/-- Every command stays within its frame, from any state. -/
theorem exec_frame {i : Instr} {s t : State} (h : exec i s = .next t) : CommandFrame i s t := by
  cases i with
  | nop =>
    obtain rfl := (finish_eq_next _ _ _).1 h
    exact commandFrame_finish _ _ _
  | hdrRd =>
    rcases execHdrRd_cases h with ⟨e, -, rfl⟩ | ⟨h', v, rfl⟩
    · exact commandFrame_raise _ _ _
    · exact commandFrame_hdr _ _ _ _
  | hdrLen =>
    rcases execHdrLen_cases h with rfl | ⟨w, -, rfl⟩
    · exact commandFrame_raise _ _ _
    · exact commandFrame_finish _ _ _
  | hdrWr =>
    rcases execHdrWr_cases h with ⟨e, -, rfl⟩ | ⟨w, m, -, hm, rfl⟩
    · exact commandFrame_raise _ _ _
    · exact commandFrame_buf _ s.rgnStart s.rgnEnd _ (writeBytes_spec hm).1
  | hdrWrp =>
    rcases execHdrWrp_cases h with ⟨e, -, rfl⟩ | ⟨w, m, -, -, -, hm, rfl⟩
    · exact commandFrame_raise _ _ _
    · exact commandFrame_buf _ _ _ _ (writeBytes_spec hm).1
  | stsInit =>
    rcases execStsInit_cases h with rfl | ⟨w, -, rfl⟩
    · exact commandFrame_raise _ _ _
    · exact commandFrame_ctr rfl _ _ fun h => absurd rfl h
  | stsRst =>
    obtain rfl := execStsRst_cases h
    exact commandFrame_ctr rfl _ _ fun h => absurd rfl h
  | stsPush => exact execStsPush_frame h
  | stsRefresh =>
    obtain rfl := execStsRefresh_cases h
    exact commandFrame_ctr rfl _ _ fun h => absurd rfl h
  | stsDec => exact execStsDec_frame h
  | stsEnc =>
    rcases execStsEnc_cases h with ⟨e, -, rfl⟩ | ⟨m, hm, -, rfl⟩
    · exact commandFrame_raise _ _ _
    · exact commandFrame_buf _ _ _ _ (writeBytes_spec hm).1
  | bfGet width rel =>
    rcases execBfGet_cases h with ⟨e, -, rfl⟩ | ⟨v, rfl⟩
    · exact commandFrame_raise _ _ _
    · exact commandFrame_finish _ _ _
  | bfPut width rel =>
    rcases execBfPut_cases h with ⟨e, -, rfl⟩ | ⟨a0, m, hm, rfl⟩
    · exact commandFrame_raise _ _ _
    · exact commandFrame_buf _ s.rgnStart s.rgnEnd _ (putBits_keys _ _ hm)

/-! ### The container's invariant under the commands that write the container -/

/-- The invariant speaks of the records, their width and the cached size, and of CPT and FAILED together. -/
theorem Container.inv_of_same_records {n : Nat} {c d : Container} (hc : c.Inv n) (hwidth : d.width = c.width)
    (hnacks : d.nacks = c.nacks) (hpsize : d.psize = c.psize) (hcpt : d.cpt ≠ 0 → d.failed = true) : d.Inv n := by
  obtain ⟨hlen, hsize, hnormal, -⟩ := hc
  unfold Container.Inv
  rw [hwidth, hnacks, hpsize]
  exact ⟨hlen, hsize, hnormal, hcpt⟩

/-- A failed decode may leave any CPT and ACK_SN, since it sets FAILED (R190). -/
theorem decFail_keeps_ctr_inv {n : Nat} {c : Container} {s t : State} {e : ErrCode} (hc : c.Inv n)
    (h : decFail e s = .next t) (hwidth : s.ctr.width = c.width) (hnacks : s.ctr.nacks = c.nacks)
    (hpsize : s.ctr.psize = c.psize) : t.ctr.Inv n := by
  obtain rfl := (decFail_eq_next _ _ _).1 h
  exact Container.inv_of_same_records hc hwidth hnacks hpsize fun _ => rfl

theorem execStsDec_keeps_ctr_inv {s t : State} (hmax : s.params.nackMax ≤ 3840) (hc : s.ctr.Inv s.params.nackMax)
    (h : execStsDec s = .next t) : t.ctr.Inv s.params.nackMax := by
  unfold execStsDec at h
  dsimp only at h
  split at h
  · obtain rfl := (raise_eq_next _ _ _).1 h
    exact hc
  split at h
  · exact decFail_keeps_ctr_inv hc h rfl rfl rfl
  obtain ⟨cpt, -, h⟩ := (onBuf_eq_next _ _ _).1 h
  split at h
  · exact decFail_keeps_ctr_inv hc h rfl rfl rfl
  next hcpt =>
  obtain rfl : cpt = 0 := Decidable.not_not.1 hcpt
  split at h
  · exact decFail_keeps_ctr_inv hc h rfl rfl rfl
  obtain ⟨ack, -, h⟩ := (onBuf_eq_next _ _ _).1 h
  split at h
  · exact decFail_keeps_ctr_inv hc h rfl rfl rfl
  obtain ⟨e1, -, h⟩ := (onBuf_eq_next _ _ _).1 h
  obtain ⟨rsv, -, h⟩ := (onBuf_eq_next _ _ _).1 h
  generalize hfixed : (s.ctr.withCpt (BitVec.ofNat 3 0)).withAck (BitVec.ofNat 32 ack) = c at h
  have hcfixed : c.Inv s.params.nackMax := by
    subst hfixed
    exact Container.inv_of_same_records hc rfl rfl rfl fun h => absurd rfl h
  split at h
  · exact decFail_keeps_ctr_inv hcfixed h rfl rfl rfl
  split at h
  · exact decLoop_keeps_inv (s := s.withCtr c) hmax hcfixed h
  · obtain rfl := (finish_eq_next _ _ _).1 h
    exact hcfixed

theorem execStsPush_keeps_ctr_inv {s t : State} (hmax : s.params.nackMax ≤ 3840) (hc : s.ctr.Inv s.params.nackMax)
    (h : execStsPush s = .next t) : t.ctr.Inv s.params.nackMax := by
  rcases execStsPush_cases h with rfl | ⟨u, hu, rfl⟩
  · exact hc
  · have hu := append_keeps_inv hmax hc (stagedRecord_normal s) hu
    exact hu

/-- Recomputing the packed size of a container with the invariant changes nothing (R175). -/
theorem execStsRefresh_keeps_ctr {s t : State} (hc : s.ctr.Inv s.params.nackMax) (h : execStsRefresh s = .next t) :
    t.ctr = s.ctr := by
  obtain ⟨-, hsize, -, -⟩ := hc
  obtain rfl := execStsRefresh_cases h
  simp [← hsize]

theorem exec_keeps_ctr_inv {i : Instr} {s t : State} (hmax : s.params.nackMax ≤ 3840)
    (hc : s.ctr.Inv s.params.nackMax) (h : exec i s = .next t) : t.ctr.Inv s.params.nackMax := by
  by_cases hi : writesContainer i = false
  · rw [(exec_frame h).container hi]
    exact hc
  cases i with
  | stsInit =>
    rcases execStsInit_cases h with rfl | ⟨w, -, rfl⟩
    · exact hc
    · exact fresh_inv _ w
  | stsRst =>
    obtain rfl := execStsRst_cases h
    exact fresh_inv _ _
  | stsPush => exact execStsPush_keeps_ctr_inv hmax hc h
  | stsRefresh =>
    rw [execStsRefresh_keeps_ctr hc h]
    exact hc
  | stsDec => exact execStsDec_keeps_ctr_inv hmax hc h
  | _ => exact absurd rfl hi

/-! ### The invariant under every step -/

theorem exec_keeps_inv {i : Instr} {s t : State} (hs : s.Inv) (h : exec i s = .next t) : t.Inv := by
  obtain ⟨hp, hm, hc, -, -⟩ := hs
  have hmax : s.params.nackMax ≤ 3840 := by
    obtain ⟨-, -, -, hmax, -⟩ := hp
    exact hmax
  obtain ⟨hrest, hkeys, herr, -⟩ := exec_frame h
  have hparams : t.params = s.params := by rw [hrest]
  have hidle : t.busy = false := by rw [hrest]
  unfold State.Inv
  rw [hparams]
  exact ⟨hp, hkeys.trans hm, exec_keeps_ctr_inv hmax hc h, fun hb => absurd (hidle.symm.trans hb) Bool.false_ne_true,
    herr⟩

/-- A command word that is no command completes with `E_ILLEGAL` and RESULT 0 (R263). -/
theorem complete_illegal_inv {s : State} (hs : s.Inv) : (s.complete .illegal 0).Inv := by
  obtain ⟨hp, hm, hc, -, -⟩ := hs
  exact ⟨hp, hm, hc, Bool.noConfusion, fun _ => rfl⟩

theorem engineTurn_keeps_inv {s t : State} (hs : s.Inv) (h : engineTurn s = .next t) : t.Inv := by
  rcases engineTurn_cases h with ⟨-, rfl⟩ | ⟨-, i, -, hexec⟩ | ⟨-, -, rfl⟩
  · exact hs
  · exact exec_keeps_inv hs hexec
  · exact complete_illegal_inv hs

/-- Acknowledging sets no DONE, so a running command stays not done. -/
theorem clearSticky_keeps_inv {s : State} (hs : s.Inv) (v : Word) : (s.clearSticky v).Inv := by
  obtain ⟨hp, hm, hc, hbusy, hres⟩ := hs
  refine ⟨hp, hm, hc, fun hb => ?_, hres⟩
  rw [State.clearSticky_done, hbusy hb, Bool.false_and]

theorem writeReg_keeps_inv {s : State} (hs : s.Inv) (r : Reg) (v : Word) : (writeReg s r v).Inv := by
  cases r with
  | cmd =>
    obtain ⟨hp, hm, hc, -, hres⟩ := hs
    exact ⟨hp, hm, hc, fun _ => rfl, hres⟩
  | status => exact clearSticky_keeps_inv hs v
  | ackSn =>
    obtain ⟨hp, hm, hc, hbusy, hres⟩ := hs
    have ⟨_, _, _, hcpt⟩ := hc
    exact ⟨hp, hm, Container.inv_of_same_records hc rfl rfl rfl hcpt, hbusy, hres⟩
  | _ => exact hs

theorem hostEffect_keeps_inv {s u : State} (hs : s.Inv) (h : HostEffect s u) : u.Inv := by
  cases h with
  | nothing => exact hs
  | draw _ => exact hs
  | sticky v => exact clearSticky_keeps_inv hs v
  | dropped _ => exact hs
  | register r v _ => exact writeReg_keeps_inv hs r v
  | byte a v m _ hwrite =>
    obtain ⟨hp, hm, hrest⟩ := hs
    exact ⟨hp, memWrite_keeps_wf hm hwrite, hrest⟩

/-- Reset establishes the invariant, for any valid parameters (R300, R301). -/
theorem resetWith_inv {p : Params} (hp : p.Valid) (n : Nat) (script : List Event) :
    (State.resetWith p n script).Inv :=
  ⟨hp, freshBuf_wf _ _, fresh_inv _ _, Bool.noConfusion, fun h => absurd rfl h⟩

theorem step_keeps_inv {s t : State} (hs : s.Inv) (h : step s = .next t) : t.Inv := by
  rcases step_cases h with ⟨-, h⟩ | ⟨rest, -, h⟩ | ⟨a, rest, -, u, r, heff, rfl⟩ | ⟨rest, -, rfl⟩
  · exact engineTurn_keeps_inv hs h
  · exact engineTurn_keeps_inv ((inv_withInputs rest).2 hs) h
  · have hu := hostEffect_keeps_inv ((inv_withInputs rest).2 hs) heff
    exact hu
  · obtain ⟨hp, -⟩ := hs
    exact resetWith_inv hp _ _

/-- Settles O14, by the kinds of step: an engine turn (of an idle block, a command, an illegal word), a host access, a reset. -/
theorem everyStepKeepsInv : Obligations.EveryStepKeepsInv := fun _ _ hs h => step_keeps_inv hs h

/-! ### Every reachable state -/

/-- A run from a state with the invariant goes through such states only; no step of it stops (`noStepStops`). -/
theorem run_keeps_inv {s t : State} {k : Nat} (hs : s.Inv) (h : Host.Core.run core k s = .next t) : t.Inv := by
  induction k generalizing s with
  | zero =>
    cases h
    exact hs
  | succ k ih =>
    obtain ⟨u, hu⟩ := noStepStops s hs
    rw [run_succ k hu] at h
    exact ih (step_keeps_inv hs hu) h

theorem contribution_eq_contrib (w : SnWidth) (r : NackRec) : contribution w r = contrib w r := by
  have hw : (if w = .w12 then 2 else 3) = w.nackBytes := by cases w <;> rfl
  have hso : 4 * r.hasSo.toNat = if r.hasSo then 4 else 0 := by cases r.hasSo <;> rfl
  have hrange : r.hasRange.toNat = if r.hasRange then 1 else 0 := by cases r.hasRange <;> rfl
  rw [contribution, contrib, hw, hso, hrange]

/-- The packed size as R45 writes it. -/
theorem packedSize_eq_sum (w : SnWidth) (l : List NackRec) : packedSize w l = 3 + (l.map (contribution w)).sum := by
  induction l with
  | nil => rfl
  | cons r t ih =>
    rw [packedSize, ih, List.map_cons, List.sum_cons, contribution_eq_contrib]
    omega

/-- Settles O42: reset establishes the invariant, every step keeps it, and the cached size is part of it. -/
theorem packedSizeInEveryReachableState : Obligations.PackedSizeInEveryReachableState := by
  intro p n k script t hp hrun
  obtain ⟨-, -, ⟨-, hsize, -, -⟩, -, -⟩ := run_keeps_inv (resetWith_inv hp n script) hrun
  rw [hsize, packedSize_eq_sum]

/-! ### What no command does -/

theorem execStsPush_nacks {s t : State} (h : execStsPush s = .next t) :
    ∃ new, t.ctr.nacks = s.ctr.nacks ++ new ∧ new.length ≤ 1 := by
  rcases execStsPush_cases h with rfl | ⟨u, hu, rfl⟩
  · exact ⟨[], (List.append_nil _).symm, Nat.zero_le 1⟩
  · rcases append_cases s (stagedRecord s) with ⟨-, ha⟩ | ⟨-, ha⟩ <;> rw [ha] at hu <;> cases hu
    exact ⟨[stagedRecord s], rfl, Nat.le_refl 1⟩

theorem execStsDec_nacks {s t : State} (h : execStsDec s = .next t) : ∃ new, t.ctr.nacks = s.ctr.nacks ++ new := by
  rcases execStsDec_cases h with ⟨-, rfl⟩ | ⟨-, c, new, v, -, hnew, ⟨-, -, rfl⟩ | ⟨-, e, -, rfl⟩⟩
  · exact ⟨[], (List.append_nil _).symm⟩
  · exact ⟨new, hnew⟩
  · exact ⟨new, hnew⟩

/-- Settles O34, by the commands that write the container; the others keep it whole. -/
theorem nackListOnlyGrowsOrClears : Obligations.NackListOnlyGrowsOrClears := by
  intro i s t h
  have hkept (hn : t.ctr.nacks = s.ctr.nacks) :
      ∃ new, t.ctr.nacks = s.ctr.nacks ++ new ∧ (i = .stsDec ∨ i = .stsPush ∧ new.length ≤ 1 ∨ new = []) :=
    ⟨[], by rw [hn, List.append_nil], .inr (.inr rfl)⟩
  by_cases hi : writesContainer i = false
  · exact .inr (hkept (by rw [(exec_frame h).container hi]))
  cases i with
  | stsInit =>
    rcases execStsInit_cases h with rfl | ⟨w, -, rfl⟩
    · exact .inr (hkept rfl)
    · exact .inl ⟨rfl, .inl rfl⟩
  | stsRst =>
    obtain rfl := execStsRst_cases h
    exact .inl ⟨rfl, .inr rfl⟩
  | stsPush =>
    obtain ⟨new, hnew, hone⟩ := execStsPush_nacks h
    exact .inr ⟨new, hnew, .inr (.inl ⟨rfl, hone⟩)⟩
  | stsRefresh =>
    obtain rfl := execStsRefresh_cases h
    exact .inr (hkept rfl)
  | stsDec =>
    obtain ⟨new, hnew⟩ := execStsDec_nacks h
    exact .inr ⟨new, hnew, .inl rfl⟩
  | _ => exact absurd rfl hi

/-- Settles O43: the host's registers are outside what the frame lets a command write. -/
theorem commandsKeepHostRegisters : Obligations.CommandsKeepHostRegisters := by
  intro i s t h
  rw [(exec_frame h).rest]
  exact ⟨rfl, rfl, rfl, rfl, rfl, rfl, rfl, rfl, rfl, rfl, rfl, rfl⟩

end Sys2Proof.Machine
end

section
/-! PROOFS. The host's view of the block: the register map in numbers is what the registers read (10_state.md section 2), and
what a legal read and a legal write of an idle block do (R21-R44, R62, R65). -/

open Sys2Proof.Claims

namespace Sys2Proof.Machine

/-! ### Legal accesses -/

/-- The offset 0x1000 begins the NACK window, past every register. -/
theorem regAt_of_ge {off : Nat} (h : 0x1000 ≤ off) : regAt off = none := by
  cases hr : regAt off with
  | none => rfl
  | some r =>
    rw [regAt_eq_some] at hr
    cases r <;> simp only [Reg.offset] at hr <;> omega

theorem regOffset_lt (r : Reg) : r.offset < 0x20000 := by cases r <;> decide

theorem targetOf_reg (p : Params) (r : Reg) : targetOf p 32 r.offset = some (.reg r) := by
  simp [targetOf, regAt_offset]

theorem targetOf_nackWindow {p : Params} {off : Nat} (hlo : 0x1000 ≤ off) (hhi : off < 0x1000 + 16 * p.nackMax)
    (halign : off % 4 = 0) : targetOf p 32 off = some (.nack ((off - 0x1000) / 16) ((off - 0x1000) % 16 / 4)) := by
  simp [targetOf, regAt_of_ge hlo, halign, hlo, hhi]

/-- The word at its place in the NACK window: 16 bytes an entry, 4 bytes a word (R41). -/
theorem targetOf_nack {p : Params} {entry word : Nat} (hentry : entry < p.nackMax) (hword : word < 4) :
    targetOf p 32 (0x1000 + 16 * entry + 4 * word) = some (.nack entry word) := by
  rw [targetOf_nackWindow (by omega) (by omega) (by omega)]
  congr 2 <;> omega

theorem targetOf_buf {p : Params} {a : Nat} (h : a < p.bufSize) : targetOf p 8 (0x10000 + a) = some (.buf a) := by
  have hwin : 0x10000 ≤ 0x10000 + a ∧ 0x10000 + a < 0x10000 + p.bufSize := by omega
  simp [targetOf, hwin]

theorem step_read {s : State} {width off : Nat} {rest : List Event} {x : Target}
    (h : HostNext s (.read width (s.params.base + off)) rest) (hoff : off < 0x20000)
    (hx : targetOf s.params width off = some x) : step s = busRead x (s.withInputs rest) := by
  have hx' : targetOf (s.withInputs rest).params width off = some x := hx
  rw [step_access h, hostStep_of_offset (off := off) rfl hoff]
  simp only [Access.width, hx']

theorem step_write {s : State} {width off : Nat} {v : Word} {rest : List Event} {x : Target}
    (h : HostNext s (.write width (s.params.base + off) v) rest) (hoff : off < 0x20000)
    (hx : targetOf s.params width off = some x) : step s = busWrite x v (s.withInputs rest) := by
  have hx' : targetOf (s.withInputs rest).params width off = some x := hx
  rw [step_access h, hostStep_of_offset (off := off) rfl hoff]
  simp only [Access.width, hx']

/-! ### The bus of an idle block -/

theorem busRead_idle_reg {s : State} (hb : s.busy = false) (r : Reg) :
    busRead (.reg r) s = respond (.word (readReg s r)) s := by
  simp [busRead, hb]

theorem busRead_idle_nack {s : State} (hb : s.busy = false) (entry word : Nat) :
    busRead (.nack entry word) s = respond (.word (readNack s entry word)) s := by
  simp [busRead, hb]

theorem busRead_idle_buf {s : State} (hb : s.busy = false) {a : Nat} {b : Byte} (h : memRead s.buf a = some b) :
    busRead (.buf a) s = respond (.byte b) s := by
  simp [busRead, hb, h]

/-- A write to `STATUS` acknowledges, busy or not (R23). -/
theorem busWrite_status (s : State) (v : Word) : busWrite (.reg .status) v s = respond .accepted (s.clearSticky v) := rfl

theorem busWrite_idle_reg {s : State} (hb : s.busy = false) (r : Reg) (v : Word) :
    busWrite (.reg r) v s = respond .accepted (writeReg s r v) := by
  by_cases hr : r = .status
  · subst hr
    rfl
  · simp [busWrite, hr, hb]

theorem busWrite_idle_nack {s : State} (hb : s.busy = false) (entry word : Nat) (v : Word) :
    busWrite (.nack entry word) v s = respond .accepted s := by
  simp [busWrite, hb]

theorem respond_withInputs (r : Response) (s : State) (rest : List Event) :
    respond r (s.withInputs rest) = .next (answered s rest r) := rfl

/-! ### The register map in numbers -/

/-- A field list's number: the high field shifted over the low one. -/
theorem toNat_append_eq_add {m n : Nat} (x : BitVec m) (y : BitVec n) :
    (x ++ y).toNat = x.toNat * 2 ^ n + y.toNat := by
  rw [BitVec.toNat_append, ← Nat.shiftLeft_add_eq_or_of_lt y.isLt, Nat.shiftLeft_eq]

theorem toNat_code (e : ErrCode) : e.code.toNat = codeNumber e := by cases e <;> rfl

theorem statusWord_toNat (s : State) :
    s.statusWord.toNat = s.busy.toNat + 2 * s.done.toNat + 4 * s.lost.toNat + 16 * codeNumber s.ecode := by
  simp only [State.statusWord, toNat_append_eq_add, BitVec.toNat_ofBool, BitVec.toNat_ofNat, toNat_code]
  omega

theorem cfgWord_toNat (s : State) :
    s.cfgWord.toNat = s.snSize.toNat + 16 * s.soLegacy.toNat + 256 * s.irqEn.toNat := by
  simp only [State.cfgWord, toNat_append_eq_add, BitVec.toNat_ofBool, BitVec.toNat_ofNat]
  omega

theorem ctrlWord_toNat (h : HeaderRegs) :
    h.ctrlWord.toNat = 16 * h.si.toNat + 64 * h.p.toNat + 128 * h.dc.toNat := by
  simp only [HeaderRegs.ctrlWord, toNat_append_eq_add, BitVec.toNat_ofBool, BitVec.toNat_ofNat]
  omega

theorem infoWord_toNat (c : Container) :
    c.infoWord.toNat = (if c.width = .w12 then 0 else 1) + 256 * c.failed.toNat := by
  have hw : c.width.code.toNat = if c.width = .w12 then 0 else 1 := by cases c.width <;> rfl
  simp only [Container.infoWord, toNat_append_eq_add, BitVec.toNat_ofBool, BitVec.toNat_ofNat, hw]
  omega

theorem nkCtrlWord_toNat (hasSo hasRange : Bool) (range : Byte) :
    (nkCtrlWord hasSo hasRange range).toNat = hasSo.toNat + 2 * hasRange.toNat + 256 * range.toNat := by
  simp only [nkCtrlWord, toNat_append_eq_add, BitVec.toNat_ofBool, BitVec.toNat_ofNat]
  omega

theorem toNat_zero_append (m : Nat) {n : Nat} (y : BitVec n) : (0#m ++ y).toNat = y.toNat := by
  rw [toNat_append_eq_add, BitVec.toNat_ofNat, Nat.zero_mod, Nat.zero_mul, Nat.zero_add]

theorem nkSo_toNat (soStart soEnd : BitVec 16) :
    (soStart ++ soEnd).toNat = 65536 * soStart.toNat + soEnd.toNat := by
  rw [toNat_append_eq_add]
  omega

/-- The map of 10_state.md holds what the registers read, as long as N fits its register. -/
theorem registerMap_eq {s : State} (hn : s.ctr.nacks.length < 2 ^ 32) :
    registerMap s = Reg.all.map fun r => (r.offset, (readReg s r).toNat) := by
  have hcount : (BitVec.ofNat 32 s.ctr.nacks.length).toNat = s.ctr.nacks.length := Nat.mod_eq_of_lt hn
  simp only [registerMap, Reg.all, List.map_cons, List.map_nil, Reg.offset, readReg, statusWord_toNat, cfgWord_toNat,
    ctrlWord_toNat, infoWord_toNat, nkCtrlWord_toNat, toNat_zero_append, nkSo_toNat, hcount]
  rfl

/-- N fits its register in every state with the invariant (R6, R35). -/
theorem nacks_length_lt {s : State} (hs : s.Inv) : s.ctr.nacks.length < 2 ^ 32 := by
  obtain ⟨⟨-, -, -, hmax, -⟩, -, ⟨hlen, -⟩, -⟩ := hs
  omega

theorem lookup_map_pair {α β : Type} (key : α → Nat) (val : α → β) (l : List α) (k : Nat) :
    (l.map fun x => (key x, val x)).lookup k = (l.find? fun x => key x = k).map val := by
  induction l with
  | nil => rfl
  | cons x t ih =>
    by_cases hx : key x = k
    · simp [hx]
    · have hx' : (k == key x) = false := beq_false_of_ne (Ne.symm hx)
      simp [List.lookup_cons, hx, hx', ih]

/-- The word at an offset is that of the register there. -/
theorem wordAt_eq {s : State} (hn : s.ctr.nacks.length < 2 ^ 32) (off : Nat) :
    wordAt s off = (regAt off).map fun r => (readReg s r).toNat := by
  rw [wordAt, registerMap_eq hn, lookup_map_pair]
  rfl

/-! ### Reading a register after writing one -/

/-- The script is no register. -/
@[simp] theorem readReg_withInputs (s : State) (rest : List Event) (r : Reg) :
    readReg (s.withInputs rest) r = readReg s r := by cases r <;> rfl

/-- The bus's answer is no register. -/
@[simp] theorem readReg_withResponse (s : State) (x : Response) (r : Reg) :
    readReg (s.withResponse x) r = readReg s r := by cases r <;> rfl

@[simp] theorem writeReg_params (s : State) (r : Reg) (v : Word) : (writeReg s r v).params = s.params := by
  cases r <;> rfl
@[simp] theorem writeReg_buf (s : State) (r : Reg) (v : Word) : (writeReg s r v).buf = s.buf := by cases r <;> rfl
@[simp] theorem writeReg_nacks (s : State) (r : Reg) (v : Word) : (writeReg s r v).ctr.nacks = s.ctr.nacks := by
  cases r <;> rfl
@[simp] theorem writeReg_inputs (s : State) (r : Reg) (v : Word) : (writeReg s r v).inputs = s.inputs := by
  cases r <;> rfl

/-- A register keeps its word when another one is written; only starting a command writes a second register, `STATUS`. -/
theorem readReg_writeReg_other {r r' : Reg} (hcmd : r ≠ .cmd) (h : r' ≠ r) (s : State) (v : Word) :
    readReg (writeReg s r v) r' = readReg s r' := by
  cases r' <;> cases r <;> first | exact absurd rfl h | exact absurd rfl hcmd | rfl

theorem and_allBits (v : Word) : v &&& 0xFFFFFFFF#32 = v := BitVec.and_allOnes

theorem eq_and_of_bits {x v m : Word} (h : ∀ i < 32, x.getLsbD i = (v.getLsbD i && m.getLsbD i)) : x = v &&& m :=
  BitVec.eq_of_getLsbD_eq fun i hi => by rw [h i hi, BitVec.getLsbD_and]

/-- The fields of `CFG`, taken from a word, are its bits 8, 4 and 1:0 (R25). -/
theorem cfg_fields_eq_and (v : Word) :
    0#23 ++ BitVec.ofBool (v.getLsbD 8) ++ 0#3 ++ BitVec.ofBool (v.getLsbD 4) ++ 0#2 ++ v.extractLsb' 0 2
      = v &&& 0x113#32 := by
  refine eq_and_of_bits fun i hi => ?_
  simp only [BitVec.getLsbD_append]
  interval_cases i <;> simp

/-- The fields of `HDR_CTRL`, taken from a word, are its bits 7:4 (R29). -/
theorem hdrCtrl_fields_eq_and (v : Word) :
    0#24 ++ BitVec.ofBool (v.getLsbD 7) ++ BitVec.ofBool (v.getLsbD 6) ++ v.extractLsb' 4 2 ++ 0#4 = v &&& 0xF0#32 := by
  refine eq_and_of_bits fun i hi => ?_
  simp only [BitVec.getLsbD_append]
  interval_cases i <;> simp

/-- The field of `HDR_SO`, taken from a word, is its low half (R31). -/
theorem hdrSo_field_eq_and (v : Word) : 0#16 ++ v.extractLsb' 0 16 = v &&& 0xFFFF#32 := by
  refine eq_and_of_bits fun i hi => ?_
  simp only [BitVec.getLsbD_append]
  interval_cases i <;> simp

/-- The fields of `NK_CTRL`, taken from a word, are its bits 15:8, 1 and 0 (R38). -/
theorem nkCtrl_fields_eq_and (v : Word) :
    0#16 ++ v.extractLsb' 8 8 ++ 0#6 ++ BitVec.ofBool (v.getLsbD 1) ++ BitVec.ofBool (v.getLsbD 0) = v &&& 0xFF03#32 := by
  refine eq_and_of_bits fun i hi => ?_
  simp only [BitVec.getLsbD_append]
  interval_cases i <;> simp

/-- The fields of `NK_SO`, taken from a word, are all of it (R39). -/
theorem nkSo_fields_eq_and (v : Word) : v.extractLsb' 16 16 ++ v.extractLsb' 0 16 = v &&& 0xFFFFFFFF#32 := by
  rw [and_allBits]
  exact BitVec.extractLsb'_append_extractLsb'

/-- The registers that store a write, each with its offset and the bits it reads back (R44). -/
theorem reg_of_mem_storedBits {e : Nat × Word} (he : e ∈ storedBits) :
    ∃ r : Reg, e.1 = r.offset ∧ r ≠ .cmd ∧ ∀ s v, readReg (writeReg s r v) r = v &&& e.2 := by
  simp only [storedBits, List.mem_cons, List.not_mem_nil, or_false] at he
  rcases he with rfl | rfl | rfl | rfl | rfl | rfl | rfl | rfl | rfl | rfl | rfl | rfl
  · exact ⟨.cfg, rfl, by decide, fun _ v => cfg_fields_eq_and v⟩
  · exact ⟨.rgnStart, rfl, by decide, fun _ v => (and_allBits v).symm⟩
  · exact ⟨.rgnEnd, rfl, by decide, fun _ v => (and_allBits v).symm⟩
  · exact ⟨.addr, rfl, by decide, fun _ v => (and_allBits v).symm⟩
  · exact ⟨.bfData, rfl, by decide, fun _ v => (and_allBits v).symm⟩
  · exact ⟨.hdrCtrl, rfl, by decide, fun _ v => hdrCtrl_fields_eq_and v⟩
  · exact ⟨.hdrSn, rfl, by decide, fun _ v => (and_allBits v).symm⟩
  · exact ⟨.hdrSo, rfl, by decide, fun _ v => hdrSo_field_eq_and v⟩
  · exact ⟨.ackSn, rfl, by decide, fun _ v => (and_allBits v).symm⟩
  · exact ⟨.nkSn, rfl, by decide, fun _ v => (and_allBits v).symm⟩
  · exact ⟨.nkCtrl, rfl, by decide, fun _ v => nkCtrl_fields_eq_and v⟩
  · exact ⟨.nkSo, rfl, by decide, fun _ v => nkSo_fields_eq_and v⟩

/-- A write to a read-only register is ignored (R65). -/
theorem reg_of_mem_readOnlyOffsets {off : Nat} (h : off ∈ readOnlyOffsets) :
    ∃ r : Reg, off = r.offset ∧ ∀ s v, writeReg s r v = s := by
  simp only [readOnlyOffsets, List.mem_cons, List.not_mem_nil, or_false] at h
  rcases h with rfl | rfl | rfl | rfl | rfl | rfl
  · exact ⟨.id, rfl, fun _ _ => rfl⟩
  · exact ⟨.result, rfl, fun _ _ => rfl⟩
  · exact ⟨.ctrInfo, rfl, fun _ _ => rfl⟩
  · exact ⟨.ctrCpt, rfl, fun _ _ => rfl⟩
  · exact ⟨.ctrNnack, rfl, fun _ _ => rfl⟩
  · exact ⟨.ctrPsize, rfl, fun _ _ => rfl⟩

/-! ### Reads of an idle block -/

section Idle

variable {s : State} {rest : List Event}

/-- A register's word (R21-R39). -/
theorem step_read_reg (hb : s.busy = false) (r : Reg)
    (h : HostNext s (.read 32 (s.params.base + r.offset)) rest) :
    step s = .next (answered s rest (.word (readReg s r))) := by
  rw [step_read h (regOffset_lt r) (targetOf_reg _ r), busRead_idle_reg (s := s.withInputs rest) hb]
  simp only [readReg_withInputs, respond_withInputs]

/-- A word of the NACK window: a record's field, 0 in the last word and at or beyond N (R41). -/
theorem step_read_nack (hb : s.busy = false) (hmax : s.params.nackMax ≤ 3840) {entry word : Nat}
    (hentry : entry < s.params.nackMax) (hword : word < 4)
    (h : HostNext s (.read 32 (s.params.base + 0x1000 + 16 * entry + 4 * word)) rest) :
    step s = .next (answered s rest (.word (readNack s entry word))) := by
  rw [Nat.add_assoc, Nat.add_assoc, ← Nat.add_assoc 0x1000] at h
  rw [step_read h (by omega) (targetOf_nack hentry hword), busRead_idle_nack (s := s.withInputs rest) hb]
  rfl

/-- A byte of `BUF` (R62). -/
theorem step_read_buf (hb : s.busy = false) (hm : Memory.wf s.params.bufSize s.buf) (hsize : s.params.bufSize ≤ 65536)
    {a : Nat} (ha : a < s.params.bufSize) (h : HostNext s (.read 8 (s.params.base + 0x10000 + a)) rest) :
    step s = .next (answered s rest (.byte (bufByte s a))) := by
  rw [Nat.add_assoc] at h
  obtain ⟨b, hread⟩ := memRead_of_lt hm ha
  rw [step_read h (by omega) (targetOf_buf ha), busRead_idle_buf (s := s.withInputs rest) hb hread]
  simp only [respond_withInputs, bufByte, hread, Option.getD_some]

end Idle

/-- Settles O47, by the three kinds of legal read: a register, a word of the NACK window, a byte of `BUF`. -/
theorem idleReads : Obligations.IdleReads := by
  intro s rest hs hb
  have ⟨⟨_, hsize, _, hmax, _⟩, hm, _⟩ := hs
  refine ⟨fun e he h => ?_, fun entry word hentry hword h => ?_, fun a ha h => step_read_buf hb hm hsize ha h⟩
  · rw [registerMap_eq (nacks_length_lt hs)] at he
    obtain ⟨r, -, rfl⟩ := List.mem_map.1 he
    rw [step_read_reg hb r h, BitVec.ofNat_toNat, BitVec.setWidth_eq]
  · rw [step_read_nack hb hmax hentry hword h]
    unfold readNack
    cases s.ctr.nacks[entry]? with
    | none => rfl
    | some r => interval_cases word <;> rfl

/-! ### Writes -/

/-- A write to a register of an idle block (R65). -/
theorem step_write_reg {s : State} {v : Word} {rest : List Event} (hb : s.busy = false) (r : Reg)
    (h : HostNext s (.write 32 (s.params.base + r.offset) v) rest) :
    step s = .next ((writeReg (s.withInputs rest) r v).withResponse .accepted) := by
  rw [step_write h (regOffset_lt r) (targetOf_reg _ r), busWrite_idle_reg (s := s.withInputs rest) hb]
  rfl

/-- After a write to a register other than `CMD`, the map shows the register's new word and every other word as before. -/
theorem wordAt_writeReg {s t : State} {v : Word} {r : Reg} (hcmd : r ≠ .cmd) (hn : s.ctr.nacks.length < 2 ^ 32)
    (hnacks : t.ctr.nacks = s.ctr.nacks) (ht : ∀ r', readReg t r' = readReg (writeReg s r v) r') :
    wordAt t r.offset = some (readReg (writeReg s r v) r).toNat ∧
      ∀ off, off ≠ r.offset → wordAt t off = wordAt s off := by
  have hnt : t.ctr.nacks.length < 2 ^ 32 := by rwa [hnacks]
  refine ⟨by rw [wordAt_eq hnt, regAt_offset, Option.map_some, ht], fun off hoff => ?_⟩
  rw [wordAt_eq hnt, wordAt_eq hn]
  refine Option.map_congr fun r' hr' => ?_
  have hother : r' ≠ r := by
    rintro rfl
    exact hoff ((regAt_eq_some _ _).1 hr')
  rw [ht, readReg_writeReg_other hcmd hother]

/-- Settles O48, by the kinds of target: a register that stores, a read-only one, the NACK window. -/
theorem idleRegisterWrites : Obligations.IdleRegisterWrites := by
  intro s v rest hs hb
  have ⟨⟨_, _, _, hmax, _⟩, _⟩ := hs
  refine ⟨fun e he h => ?_, fun off hoff h => ?_, fun off hlo hhi halign h => ?_⟩
  · obtain ⟨r, hoff, hcmd, hstored⟩ := reg_of_mem_storedBits he
    rw [hoff] at h
    obtain ⟨hword, hothers⟩ := wordAt_writeReg (s := s.withInputs rest)
      (t := (writeReg (s.withInputs rest) r v).withResponse .accepted) (v := v)
      hcmd (nacks_length_lt hs) (by simp) (by simp)
    rw [hstored] at hword
    rw [hoff]
    exact ⟨_, step_write_reg hb r h, hword, hothers, by simp⟩
  · obtain ⟨r, rfl, hignored⟩ := reg_of_mem_readOnlyOffsets hoff
    rw [step_write_reg hb r h, hignored]
    rfl
  · rw [step_write h (by omega) (targetOf_nackWindow hlo hhi halign), busWrite_idle_nack (s := s.withInputs rest) hb]
    rfl

/-- Acknowledging, bit by bit: a sticky bit written with 1 is cleared, one written with 0 stays (R23). -/
theorem clearSticky_eq (s : State) (v : Word) :
    s.clearSticky v = { s with
      done := if v.getLsbD 1 then false else s.done, lost := if v.getLsbD 2 then false else s.lost } := by
  have hbit (old clear : Bool) : (old && !clear) = if clear then false else old := by cases clear <;> cases old <;> rfl
  rw [State.clearSticky, hbit, hbit]

/-- Settles O50: the write reaches `STATUS` whether the engine is busy or not. -/
theorem statusWriteClearsStickyBits : Obligations.StatusWriteClearsStickyBits := by
  intro s v rest h
  rw [step_write h (by decide) (targetOf_reg _ .status), busWrite_status, clearSticky_eq]
  rfl

end Sys2Proof.Machine
end

section
/-! PROOFS. The accesses the bus refuses and those it takes (R63, R267), the byte write of an idle block (R62), and every
access to a busy one (R66). -/

open Sys2Proof.Claims

namespace Sys2Proof.Machine

/-! ### The legal accesses are those with a target -/

theorem mem_registerOffsets_iff (off : Nat) : off ∈ registerOffsets ↔ ∃ r : Reg, off = r.offset := by
  have hall (r : Reg) : r ∈ Reg.all := by cases r <;> decide
  have hmap : registerOffsets = Reg.all.map Reg.offset := rfl
  simp [hmap, hall, eq_comm]

theorem regOffset_aligned (r : Reg) : r.offset % 4 = 0 := by cases r <;> rfl

/-- What an access with a target is: an aligned 32-bit one of a register or of the NACK window, or an 8-bit one of `BUF`. -/
theorem targetOf_cases {p : Params} {width off : Nat} {x : Target} (h : targetOf p width off = some x) :
    (width = 32 ∧ ∃ r, x = .reg r ∧ off = r.offset) ∨
      (width = 32 ∧ off % 4 = 0 ∧ 0x1000 ≤ off ∧ off < 0x1000 + 16 * p.nackMax ∧ ∃ entry word, x = .nack entry word) ∨
      (width = 8 ∧ 0x10000 ≤ off ∧ off < 0x10000 + p.bufSize ∧ ∃ a, x = .buf a) := by
  unfold targetOf at h
  split at h
  · next hwidth =>
    split at h
    · next r hr => exact .inl ⟨hwidth, r, (Option.some.inj h).symm, (regAt_eq_some _ _).1 hr⟩
    · split at h
      · next hwin =>
        obtain ⟨halign, hlo, hhi⟩ := hwin
        exact .inr (.inl ⟨hwidth, halign, hlo, hhi, _, _, (Option.some.inj h).symm⟩)
      · cases h
  · split at h
    · next hwin =>
      obtain ⟨hwidth, hlo, hhi⟩ := hwin
      exact .inr (.inr ⟨hwidth, hlo, hhi, _, (Option.some.inj h).symm⟩)
    · cases h

theorem legalAccess_iff (p : Params) (width off : Nat) :
    LegalAccess p width off ↔ ∃ x, targetOf p width off = some x := by
  constructor
  · rintro (⟨rfl, halign, hreg | ⟨hlo, hhi⟩⟩ | ⟨rfl, hlo, hhi⟩)
    · obtain ⟨r, rfl⟩ := (mem_registerOffsets_iff off).1 hreg
      exact ⟨_, targetOf_reg p r⟩
    · exact ⟨_, targetOf_nackWindow hlo (by omega) halign⟩
    · obtain ⟨a, rfl⟩ := Nat.exists_eq_add_of_le hlo
      exact ⟨_, targetOf_buf (by omega)⟩
  · rintro ⟨x, hx⟩
    rcases targetOf_cases hx with ⟨rfl, r, -, rfl⟩ | ⟨rfl, halign, hlo, hhi, -⟩ | ⟨rfl, hlo, hhi, -⟩
    · exact .inl ⟨rfl, regOffset_aligned r, .inl ((mem_registerOffsets_iff _).2 ⟨r, rfl⟩)⟩
    · exact .inl ⟨rfl, halign, .inr ⟨hlo, by omega⟩⟩
    · exact .inr ⟨rfl, hlo, hhi⟩

/-- With the parameters of R6, both windows end inside the block's 0x20000 bytes. -/
theorem legalAccess_lt {p : Params} (hp : p.Valid) {width off : Nat} (h : LegalAccess p width off) : off < 0x20000 := by
  obtain ⟨-, hsize, -, hmax, -⟩ := hp
  obtain ⟨x, hx⟩ := (legalAccess_iff p width off).1 h
  rcases targetOf_cases hx with ⟨-, r, -, rfl⟩ | ⟨-, -, -, hhi, -⟩ | ⟨-, -, hhi, -⟩
  · exact regOffset_lt r
  · omega
  · omega

/-! ### Bus errors -/

/-- An access inside the window that is not legal is refused, and only the answer and the script show it (R63). -/
theorem step_busError {s : State} {width off : Nat} {v : Word} {a : Access} {rest : List Event} (hoff : off < 0x20000)
    (hillegal : ¬ LegalAccess s.params width off)
    (ha : a = .read width (s.params.base + off) ∨ a = .write width (s.params.base + off) v) (h : HostNext s a rest) :
    step s = .next (answered s rest .busError) := by
  have hnone : targetOf (s.withInputs rest).params width off = none := by
    rw [Option.eq_none_iff_forall_ne_some]
    exact fun x hx => hillegal ((legalAccess_iff _ _ _).2 ⟨x, hx⟩)
  rw [step_access h]
  rcases ha with rfl | rfl <;>
  · rw [hostStep_of_offset (off := off) rfl hoff]
    simp only [Access.width, hnone, respond_withInputs]

theorem respond_response {r : Response} {s t : State} (h : respond r s = .next t) : t.response = r := by
  rw [(respond_eq_next _ _ _).1 h, State.withResponse_response]

/-- A read that reaches a target answers a word or a byte. -/
theorem busRead_no_busError {x : Target} {s t : State} (h : busRead x s = .next t) : t.response ≠ .busError := by
  unfold busRead at h
  split at h
  · split at h
    · simp [respond_response h]
    · simp [respond_response h]
    · simp [respond_response h]
    · unfold readFree at h
      split at h <;> simp [respond_response h]
  · split at h
    · simp [respond_response h]
    · simp [respond_response h]
    · obtain ⟨b, -, h⟩ := (onBuf_eq_next _ _ _).1 h
      simp [respond_response h]

/-- A write that reaches a target is accepted, performed or not. -/
theorem busWrite_accepted {x : Target} {v : Word} {s t : State} (h : busWrite x v s = .next t) :
    t.response = .accepted := by
  unfold busWrite at h
  split at h
  · exact respond_response h
  split at h
  · exact respond_response h
  split at h
  · exact respond_response h
  · exact respond_response h
  · obtain ⟨m, -, h⟩ := (onBuf_eq_next _ _ _).1 h
    exact respond_response h

/-- Settles O46: an access is legal exactly when it has a target, and one that reaches a target is never refused. -/
theorem busErrorsChangeNothing : Obligations.BusErrorsChangeNothing := by
  intro s width off v rest a hs hoff ha h
  refine ⟨fun hillegal => step_busError hoff hillegal ha h, fun hlegal => ?_⟩
  obtain ⟨x, hx⟩ := (legalAccess_iff _ _ _).1 hlegal
  obtain ⟨t, ht⟩ := noStepStops s hs
  refine ⟨t, ht, ?_⟩
  rcases ha with rfl | rfl
  · exact busRead_no_busError ((step_read h hoff hx).symm.trans ht)
  · simp [busWrite_accepted ((step_write h hoff hx).symm.trans ht)]

/-! ### A byte write of an idle block -/

theorem busWrite_idle_buf {s : State} (hb : s.busy = false) {a : Nat} {v : Word} {m : List Host.Cell}
    (h : memWrite s.buf a (v.extractLsb' 0 8) = some m) :
    busWrite (.buf a) v s = respond .accepted (s.withBuf m) := by
  simp [busWrite, hb, h]

/-- Settles O49, by the rules of one byte write of `BUF`. -/
theorem idleBufWrite : Obligations.IdleBufWrite := by
  intro s a v rest hs hb ha h
  have ⟨⟨_, hsize, _⟩, hm, _⟩ := hs
  obtain ⟨m, hwrite⟩ := memWrite_of_lt hm ha (v.extractLsb' 0 8)
  rw [Nat.add_assoc] at h
  refine ⟨m, ?_, memRead_memWrite_same hwrite, fun b hb' => memRead_memWrite_other hwrite (by omega)⟩
  rw [step_write h (by omega) (targetOf_buf ha), busWrite_idle_buf (s := s.withInputs rest) hb hwrite]
  rfl

/-! ### The bus of a busy block -/

/-- A write to anything but `STATUS` is dropped (R66). -/
theorem busWrite_busy {s : State} (hb : s.busy = true) {x : Target} (hx : x ≠ .reg .status) (v : Word) :
    busWrite x v s = respond .accepted s.dropWrite := by
  simp [busWrite, hb, hx]

/-- The registers whose reads stay defined while the engine runs (R66). -/
def definedWhileBusy : List Reg := [.id, .cmd, .status]

theorem busRead_busy_defined {s : State} (hb : s.busy = true) {r : Reg} (hr : r ∈ definedWhileBusy) :
    busRead (.reg r) s = respond (.word (readReg s r)) s := by
  simp only [definedWhileBusy, List.mem_cons, List.not_mem_nil, or_false] at hr
  rcases hr with rfl | rfl | rfl <;> simp [busRead, hb]

theorem busRead_busy_reg {s : State} (hb : s.busy = true) {r : Reg} (hr : r ∉ definedWhileBusy) :
    busRead (.reg r) s = respond (.word (Config.busyWord s.freeCtr)) s.drawn := by
  simp only [definedWhileBusy, List.mem_cons, List.not_mem_nil, or_false, not_or] at hr
  obtain ⟨hid, hcmd, hstatus⟩ := hr
  simp [busRead, readFree, hb, hid, hcmd, hstatus]

theorem busRead_busy_nack {s : State} (hb : s.busy = true) (entry word : Nat) :
    busRead (.nack entry word) s = respond (.word (Config.busyWord s.freeCtr)) s.drawn := by
  simp [busRead, readFree, hb]

theorem busRead_busy_buf {s : State} (hb : s.busy = true) (a : Nat) :
    busRead (.buf a) s = respond (.byte (Config.busyByte s.freeCtr)) s.drawn := by
  simp [busRead, readFree, hb]

/-- The map begins with the registers that are defined while busy, as they read. -/
theorem registerMap_eq_append (s : State) :
    registerMap s = definedWhileBusy.map (fun r => (r.offset, (readReg s r).toNat)) ++ (registerMap s).drop 3 := by
  simp only [definedWhileBusy, List.map_cons, List.map_nil, readReg, statusWord_toNat]
  rfl

theorem offset_of_mem_registerMap_drop {s : State} {e : Nat × Nat} (he : e ∈ (registerMap s).drop 3) : 8 < e.1 := by
  have hall : ∀ e ∈ (registerMap s).drop 3, 8 < e.1 := by simp [registerMap]
  exact hall e he

/-- The map's entries at the offsets 0, 4 and 8; unlike `registerMap_eq`, whatever the container holds. -/
theorem reg_of_mem_registerMap_busy {s : State} {e : Nat × Nat} (he : e ∈ registerMap s) (hoff : e.1 ∈ [0x00, 0x04, 0x08]) :
    ∃ r ∈ definedWhileBusy, e = (r.offset, (readReg s r).toNat) := by
  rw [registerMap_eq_append, List.mem_append, List.mem_map] at he
  rcases he with ⟨r, hr, rfl⟩ | he
  · exact ⟨r, hr, rfl⟩
  · have hgt := offset_of_mem_registerMap_drop he
    simp only [List.mem_cons, List.not_mem_nil, or_false] at hoff
    omega

section Busy

variable {s : State} {off : Nat} {rest : List Event}

theorem step_write_busy (hp : s.params.Valid) (hb : s.busy = true) {width : Nat} {v : Word}
    (hlegal : LegalAccess s.params width off) (hoff : off ≠ 8)
    (h : HostNext s (.write width (s.params.base + off) v) rest) :
    step s = .next { answered s rest .accepted with lost := true } := by
  obtain ⟨x, hx⟩ := (legalAccess_iff _ _ _).1 hlegal
  have hstatus : x ≠ .reg .status := by
    rintro rfl
    rcases targetOf_cases hx with ⟨-, r, hr, rfl⟩ | ⟨-, -, -, -, _, _, hr⟩ | ⟨-, -, -, _, hr⟩ <;> cases hr
    exact hoff rfl
  rw [step_write h (legalAccess_lt hp hlegal) hx, busWrite_busy (s := s.withInputs rest) hb hstatus]
  rfl

theorem step_read_busy_defined (hb : s.busy = true) {r : Reg} (hr : r ∈ definedWhileBusy)
    (h : HostNext s (.read 32 (s.params.base + r.offset)) rest) :
    step s = .next (answered s rest (.word (readReg s r))) := by
  rw [step_read h (regOffset_lt r) (targetOf_reg _ r), busRead_busy_defined (s := s.withInputs rest) hb hr]
  simp only [readReg_withInputs, respond_withInputs]

theorem step_read_busy_word (hp : s.params.Valid) (hb : s.busy = true) (hlegal : LegalAccess s.params 32 off)
    (hid : off ≠ 0) (hcmd : off ≠ 4) (hstatus : off ≠ 8) (h : HostNext s (.read 32 (s.params.base + off)) rest) :
    step s = .next { answered s rest (.word (Config.busyWord s.freeCtr)) with freeCtr := s.freeCtr + 1 } := by
  obtain ⟨x, hx⟩ := (legalAccess_iff _ _ _).1 hlegal
  have hlt := legalAccess_lt hp hlegal
  rcases targetOf_cases hx with ⟨-, r, rfl, rfl⟩ | ⟨-, -, -, -, entry, word, rfl⟩ | ⟨hwidth, -⟩
  · have hr : r ∉ definedWhileBusy := by
      intro hr
      simp only [definedWhileBusy, List.mem_cons, List.not_mem_nil, or_false] at hr
      rcases hr with rfl | rfl | rfl
      · exact hid rfl
      · exact hcmd rfl
      · exact hstatus rfl
    rw [step_read h hlt hx, busRead_busy_reg (s := s.withInputs rest) hb hr]
    rfl
  · rw [step_read h hlt hx, busRead_busy_nack (s := s.withInputs rest) hb]
    rfl
  · cases hwidth

theorem step_read_busy_byte (hp : s.params.Valid) (hb : s.busy = true) (hlegal : LegalAccess s.params 8 off)
    (h : HostNext s (.read 8 (s.params.base + off)) rest) :
    step s = .next { answered s rest (.byte (Config.busyByte s.freeCtr)) with freeCtr := s.freeCtr + 1 } := by
  obtain ⟨x, hx⟩ := (legalAccess_iff _ _ _).1 hlegal
  rcases targetOf_cases hx with ⟨hwidth, -⟩ | ⟨hwidth, -⟩ | ⟨-, -, -, a, rfl⟩
  · cases hwidth
  · cases hwidth
  · rw [step_read h (legalAccess_lt hp hlegal) hx, busRead_busy_buf (s := s.withInputs rest) hb]
    rfl

end Busy

/-- Settles O51, by the kinds of access: a write dropped, a write to `STATUS`, a read of a register that stays defined, a
free draw of a word or of a byte, a bus error. -/
theorem busyAccesses : Obligations.BusyAccesses := by
  intro s off rest hp hb
  refine ⟨fun width v hlegal hoff h => step_write_busy hp hb hlegal hoff h, fun v hoff h => ?_, fun e he hdefined h => ?_,
    fun hlegal hid hcmd hstatus h => step_read_busy_word hp hb hlegal hid hcmd hstatus h,
    fun hlegal h => step_read_busy_byte hp hb hlegal h,
    fun width v a hoff hillegal ha h => step_busError hoff hillegal ha h⟩
  · subst hoff
    rw [step_write h (by decide) (targetOf_reg _ .status), busWrite_status]
    rfl
  · obtain ⟨r, hr, rfl⟩ := reg_of_mem_registerMap_busy he hdefined
    rw [step_read_busy_defined hb hr h, BitVec.ofNat_toNat, BitVec.setWidth_eq]

end Sys2Proof.Machine
end

section
/-! PROOFS. The command word (R80-R83): each well-formed command has one word, a word is legal exactly when it is a command's,
and an illegal one starts and completes with `E_ILLEGAL`. Then what a command may write beside its completion (R83). -/

open Sys2Proof.Claims

namespace Sys2Proof

/-! ### A word by its fields -/

/-- A field is an upper and a lower part in exactly one way. -/
theorem extractLsb'_eq_append_iff {size m n : Nat} (c : BitVec size) (k : Nat) (hi : BitVec m) (lo : BitVec n) :
    c.extractLsb' k (m + n) = hi ++ lo ↔ c.extractLsb' (k + n) m = hi ∧ c.extractLsb' k n = lo := by
  rw [← BitVec.extractLsb'_append_extractLsb'_eq_extractLsb' (x := c) (start₁ := k) (len₁ := n) rfl]
  refine ⟨fun h => ?_, fun ⟨hhi, hlo⟩ => by rw [hhi, hlo]⟩
  have hupper := congrArg (BitVec.extractLsb' n m) h
  have hlower := congrArg (BitVec.extractLsb' 0 n) h
  rw [BitVec.extractLsb'_append_eq_left, BitVec.extractLsb'_append_eq_left] at hupper
  rw [BitVec.extractLsb'_append_eq_right, BitVec.extractLsb'_append_eq_right] at hlower
  exact ⟨hupper, hlower⟩

/-- The word of a command without operands: `c[31:8] = 0` over the opcode (R82). -/
theorem eq_plainWord_iff (c : Word) (op : Byte) : c = 0#24 ++ op ↔ c.extractLsb' 8 24 = 0#24 ∧ opcodeField c = op := by
  have hsplit := extractLsb'_eq_append_iff c 0 0#24 op
  rwa [BitVec.extractLsb'_eq_self] at hsplit

/-- The word of a bit-field command, field by field from bit 31 down (R80). -/
theorem eq_encodeField_iff (c : Word) (op : Byte) (width : Nat) (rel : Bool) :
    c = encodeField op width rel ↔
      (((c.extractLsb' 17 15 = 0#15 ∧ c.extractLsb' 16 1 = BitVec.ofBool rel) ∧ c.extractLsb' 14 2 = 0#2) ∧
        c.extractLsb' 8 6 = BitVec.ofNat 6 width) ∧ opcodeField c = op := by
  have hsplit := extractLsb'_eq_append_iff c 0 (0#15 ++ BitVec.ofBool rel ++ 0#2 ++ BitVec.ofNat 6 width) op
  rwa [BitVec.extractLsb'_eq_self, extractLsb'_eq_append_iff, extractLsb'_eq_append_iff, extractLsb'_eq_append_iff]
    at hsplit

theorem widthField_lt (c : Word) : widthField c < 64 := BitVec.isLt _

theorem eq_widthField_iff (c : Word) (width : Nat) :
    width = widthField c ↔ width < 64 ∧ c.extractLsb' 8 6 = BitVec.ofNat 6 width := by
  constructor
  · rintro rfl
    exact ⟨widthField_lt c, by rw [widthField, BitVec.ofNat_toNat, BitVec.setWidth_eq]⟩
  · rintro ⟨hlt, hfield⟩
    rw [widthField, hfield, BitVec.toNat_ofNat, Nat.mod_eq_of_lt hlt]

/-- W by shift and mask. -/
theorem widthField_eq_shift (c : Word) : widthField c = (c >>> 8 &&& 0x3F#32).toNat := by
  rw [widthField, BitVec.extractLsb'_toNat, BitVec.toNat_and, BitVec.toNat_ushiftRight]
  exact (Nat.and_two_pow_sub_one_eq_mod _ 6).symm

theorem eq_relField_iff (c : Word) (rel : Bool) : rel = relField c ↔ c.extractLsb' 16 1 = BitVec.ofBool rel := by
  have hbit : c.extractLsb' 16 1 = BitVec.ofBool (relField c) := by
    ext i hi
    simp [relField, show i = 0 by omega]
  rw [hbit, BitVec.ofBool_eq_iff_eq, eq_comm]

/-- What R82 asks of a bit-field command's word; W and R are free. -/
abbrev FieldForm (c : Word) (op : Byte) : Prop :=
  opcodeField c = op ∧ c.extractLsb' 14 2 = 0 ∧ c.extractLsb' 17 15 = 0

/-- A bit-field command's word is of its form, and W and R are the operands. -/
theorem encodeField_eq_iff (c : Word) (op : Byte) (width : Nat) (rel : Bool) :
    (width < 64 ∧ encodeField op width rel = c) ↔ FieldForm c op ∧ width = widthField c ∧ rel = relField c := by
  rw [eq_comm (b := c), eq_encodeField_iff, eq_widthField_iff, eq_relField_iff]
  constructor
  · rintro ⟨hlt, ⟨⟨⟨hhi, hrel⟩, hmid⟩, hwidth⟩, hop⟩
    exact ⟨⟨hop, hmid, hhi⟩, ⟨hlt, hwidth⟩, hrel⟩
  · rintro ⟨⟨hop, hmid, hhi⟩, ⟨hlt, hwidth⟩, hrel⟩
    exact ⟨hlt, ⟨⟨⟨hhi, hrel⟩, hmid⟩, hwidth⟩, hop⟩

/-- The mask of R82 keeps the opcode, `c[15:14]` and `c[31:17]`, and clears W and R. -/
theorem and_fieldMask_eq_iff (c : Word) (op : Byte) : c &&& 0xFFFEC0FF#32 = encodeField op 0 false ↔ FieldForm c op := by
  have hhi : (0xFFFEC0FF#32).extractLsb' 17 15 = BitVec.allOnes 15 := rfl
  have hrel : (0xFFFEC0FF#32).extractLsb' 16 1 = 0#1 := rfl
  have hmid : (0xFFFEC0FF#32).extractLsb' 14 2 = BitVec.allOnes 2 := rfl
  have hwidth : (0xFFFEC0FF#32).extractLsb' 8 6 = 0#6 := rfl
  have hop : (0xFFFEC0FF#32).extractLsb' 0 8 = BitVec.allOnes 8 := rfl
  simp only [eq_encodeField_iff, opcodeField, BitVec.extractLsb'_and]
  rw [hhi, hrel, hmid, hwidth, hop, BitVec.and_allOnes, BitVec.and_allOnes, BitVec.and_allOnes, BitVec.and_zero,
    BitVec.and_zero]
  exact ⟨fun ⟨⟨⟨⟨hhi, _⟩, hmid⟩, _⟩, hop⟩ => ⟨hop, hmid, hhi⟩,
    fun ⟨hop, hmid, hhi⟩ => ⟨⟨⟨⟨hhi, rfl⟩, hmid⟩, rfl⟩, hop⟩⟩

/-! ### The decoder -/

theorem decodePlain_eq_ok (c : Word) (i j : Instr) : decodePlain c i = .ok j ↔ c.extractLsb' 8 24 = 0 ∧ i = j := by
  unfold decodePlain
  split <;> simp_all

theorem decodeField_eq_ok (c : Word) (mk : Nat → Bool → Instr) (j : Instr) :
    decodeField c mk = .ok j ↔
      (c.extractLsb' 14 2 = 0 ∧ c.extractLsb' 17 15 = 0) ∧ mk (widthField c) (relField c) = j := by
  unfold decodeField
  split <;> simp_all

theorem decode_bfGet {c : Word} (hop : opcodeField c = 0x20#8) : decode c = decodeField c .bfGet := by
  rw [decode, hop]
  rfl

theorem decode_bfPut {c : Word} (hop : opcodeField c = 0x21#8) : decode c = decodeField c .bfPut := by
  rw [decode, hop]
  rfl

/-- A bit-field command's word decodes to the command, given the arm of its opcode. -/
theorem decodeField_encodeField {op : Byte} {width : Nat} (mk : Nat → Bool → Instr) (hw : width < 64) (rel : Bool) :
    opcodeField (encodeField op width rel) = op ∧ decodeField (encodeField op width rel) mk = .ok (mk width rel) := by
  obtain ⟨⟨hop, hzeros⟩, hwidth, hrel⟩ := (encodeField_eq_iff _ op width rel).1 ⟨hw, rfl⟩
  exact ⟨hop, (decodeField_eq_ok _ _ _).2 ⟨hzeros, by rw [← hwidth, ← hrel]⟩⟩

/-- Settles O1, by the command: the eleven fixed words, and the two with operands field by field. -/
theorem decodeInvertsEncode : Obligations.DecodeInvertsEncode := by
  intro i hi
  cases i with
  | bfGet width rel =>
    obtain ⟨hop, hdecode⟩ := decodeField_encodeField (op := 0x20) .bfGet (of_decide_eq_true hi) rel
    exact (decode_bfGet hop).trans hdecode
  | bfPut width rel =>
    obtain ⟨hop, hdecode⟩ := decodeField_encodeField (op := 0x21) .bfPut (of_decide_eq_true hi) rel
    exact (decode_bfPut hop).trans hdecode
  | _ => rfl

theorem legal_of_decodePlain {c : Word} {op : Byte} {i j : Instr} (hop : opcodeField c = op) (hword : encode i = 0#24 ++ op)
    (hi : i.wellFormed = true) (h : decodePlain c i = .ok j) : j.wellFormed = true ∧ encode j = c := by
  obtain ⟨hzero, rfl⟩ := (decodePlain_eq_ok _ _ _).1 h
  exact ⟨hi, hword.trans ((eq_plainWord_iff c op).2 ⟨hzero, hop⟩).symm⟩

theorem legal_of_decodeField {c : Word} {op : Byte} {mk : Nat → Bool → Instr} {j : Instr} (hop : opcodeField c = op)
    (hword : ∀ width rel, encode (mk width rel) = encodeField op width rel)
    (hwf : ∀ width rel, (mk width rel).wellFormed = decide (width < 64))
    (h : decodeField c mk = .ok j) : j.wellFormed = true ∧ encode j = c := by
  obtain ⟨hzeros, rfl⟩ := (decodeField_eq_ok _ _ _).1 h
  rw [hwf, hword, decide_eq_true_eq, encodeField_eq_iff]
  exact ⟨⟨hop, hzeros⟩, rfl, rfl⟩

/-- Settles O2, by the arms of the decoder. -/
theorem legalWordsAreEncodings : Obligations.LegalWordsAreEncodings := by
  intro c i h
  unfold decode at h
  split at h
  iterate 11 next hop => exact legal_of_decodePlain hop rfl rfl h
  iterate 2 next hop => exact legal_of_decodeField hop (fun _ _ => rfl) (fun _ _ => rfl) h
  · cases h

/-- A word decodes to a command exactly when it is the command's word. -/
theorem decode_eq_ok_iff (c : Word) (i : Instr) : decode c = .ok i ↔ i.wellFormed = true ∧ encode i = c :=
  ⟨legalWordsAreEncodings c i, fun ⟨hi, hc⟩ => hc ▸ decodeInvertsEncode i hi⟩

/-- Settles O4: the legal words as the words of their commands, the illegal ones by the decoder's answer. -/
theorem specWordsDecode : Obligations.SpecWordsDecode :=
  ⟨decodeInvertsEncode .nop rfl, decodeInvertsEncode .hdrWrp rfl, decodeInvertsEncode .stsPush rfl,
    decodeInvertsEncode .stsDec rfl, decodeInvertsEncode (.bfPut 18 false) rfl, decodeInvertsEncode (.bfGet 32 true) rfl,
    by decide, by decide, by decide⟩

/-! ### The match and mask columns -/

/-- A command with given operands is legal under the full mask and no other word decodes to it (R82). -/
theorem hasWord_encode {i : Instr} (hi : i.wellFormed = true) : HasWord i (encode i) := by
  refine ⟨rfl, fun c => ?_⟩
  rw [decode_eq_ok_iff, Machine.and_allBits, eq_comm (a := c)]
  exact and_iff_right hi

/-- A bit-field command is legal under the mask that leaves out W and R (R82, R83). -/
theorem hasFieldWords_encodeField {op : Byte} {mk : Nat → Bool → Instr}
    (hword : ∀ width rel, encode (mk width rel) = encodeField op width rel)
    (hwf : ∀ width rel, (mk width rel).wellFormed = decide (width < 64)) :
    HasFieldWords mk (encodeField op 0 false) := by
  intro c width rel
  rw [decode_eq_ok_iff, hwf, hword, decide_eq_true_eq, encodeField_eq_iff, and_fieldMask_eq_iff, widthField_eq_shift]
  rfl

namespace Machine

/-! ### An illegal word -/

theorem engineTurn_illegal {s : State} {why : IllegalWord} (hb : s.busy = true) (h : decode s.cmd = .illegal why) :
    engineTurn s = .next (failed s .illegal) := by
  rw [engineTurn, if_pos hb, engineStep, h]
  rfl

/-- A word written to `CMD` of an idle block is latched and starts a command, legal or not (R82, R230). -/
theorem step_write_cmd {s : State} {c : Word} {rest : List Event} (hb : s.busy = false)
    (h : HostNext s (.write 32 (s.params.base + 4) c) rest) :
    ∃ t, step s = .next t ∧ SameBlock { s with cmd := c, done := false, busy := true } t :=
  ⟨_, step_write_reg hb .cmd h, rfl⟩

/-- Settles O3, by the two forms of a legal word, and the decoder's answer to any other. -/
theorem legalWordsAreTheTables : Obligations.LegalWordsAreTheTables := by
  intro c
  refine ⟨?_, hasFieldWords_encodeField (op := 0x20) (fun _ _ => rfl) fun _ _ => rfl,
    hasFieldWords_encodeField (op := 0x21) (fun _ _ => rfl) fun _ _ => rfl,
    fun hillegal s => ⟨fun rest hb h => step_write_cmd hb h, fun hc hb => ?_⟩⟩
  · simp only [List.forall_mem_cons, List.not_mem_nil, false_imp_iff, implies_true, and_true]
    exact ⟨hasWord_encode (i := .nop) rfl, hasWord_encode (i := .hdrRd) rfl, hasWord_encode (i := .hdrLen) rfl,
      hasWord_encode (i := .hdrWr) rfl, hasWord_encode (i := .hdrWrp) rfl, hasWord_encode (i := .stsInit) rfl,
      hasWord_encode (i := .stsRst) rfl, hasWord_encode (i := .stsPush) rfl, hasWord_encode (i := .stsRefresh) rfl,
      hasWord_encode (i := .stsDec) rfl, hasWord_encode (i := .stsEnc) rfl⟩
  · cases hd : decode s.cmd with
    | ok i => exact absurd (hc ▸ hd) (hillegal i)
    | illegal why => exact engineTurn_illegal hb hd

/-! ### What a command may write -/

/-- The Writes column of R83 for `BUF`, the region, the header registers and the container's width. The container as a whole
is part of `CommandFrame`. -/
structure KeepsUnnamed (i : Instr) (s t : State) : Prop where
  buf : writesBuf i = false → t.buf = s.buf
  rgnStart : i ≠ .hdrWrp → t.rgnStart = s.rgnStart
  rgnEnd : i ≠ .stsEnc → t.rgnEnd = s.rgnEnd
  hdr : i ≠ .hdrRd → t.hdr = s.hdr
  width : i ≠ .stsInit → t.ctr.width = s.ctr.width

theorem keepsUnnamed_complete (i : Instr) (s : State) (e : ErrCode) (v : Word) : KeepsUnnamed i s (s.complete e v) :=
  ⟨fun _ => rfl, fun _ => rfl, fun _ => rfl, fun _ => rfl, fun _ => rfl⟩

/-- Writing `BUF`, and of the region only the bound that the command is named for. -/
theorem keepsUnnamed_buf {i : Instr} (hbuf : writesBuf i = true) (s : State) (m : List Host.Cell) {lo hi v : Word}
    (hlo : i ≠ .hdrWrp → lo = s.rgnStart) (hhi : i ≠ .stsEnc → hi = s.rgnEnd) :
    KeepsUnnamed i s (((s.withBuf m).withRegion lo hi).complete .ok v) :=
  ⟨fun h => by simp [hbuf] at h, hlo, hhi, fun _ => rfl, fun _ => rfl⟩

/-- Writing the container, and its width only if the command is named for it. -/
theorem keepsUnnamed_ctr {i : Instr} (s : State) {c : Container} (e : ErrCode) (v : Word)
    (hwidth : i ≠ .stsInit → c.width = s.ctr.width) : KeepsUnnamed i s ((s.withCtr c).complete e v) :=
  ⟨fun _ => rfl, fun _ => rfl, fun _ => rfl, fun _ => rfl, hwidth⟩

theorem execStsPush_keepsUnnamed {s t : State} (h : execStsPush s = .next t) : KeepsUnnamed .stsPush s t := by
  rcases execStsPush_cases h with rfl | ⟨u, hu, rfl⟩
  · exact keepsUnnamed_complete _ _ _ _
  · rcases append_cases s (stagedRecord s) with ⟨-, ha⟩ | ⟨-, ha⟩ <;> rw [ha] at hu <;> cases hu
    exact keepsUnnamed_ctr _ _ _ fun _ => rfl

theorem execStsDec_keepsUnnamed {s t : State} (h : execStsDec s = .next t) : KeepsUnnamed .stsDec s t := by
  rcases execStsDec_cases h with ⟨-, rfl⟩ | ⟨-, c, _, v, hwidth, -, ⟨-, -, rfl⟩ | ⟨-, e, -, rfl⟩⟩
  · exact keepsUnnamed_complete _ _ _ _
  · exact keepsUnnamed_ctr _ _ _ fun _ => hwidth
  · exact keepsUnnamed_ctr _ _ _ fun _ => hwidth

/-- Every command keeps what R83 does not name it for, from any state. -/
theorem exec_keepsUnnamed {i : Instr} {s t : State} (h : exec i s = .next t) : KeepsUnnamed i s t := by
  cases i with
  | nop =>
    obtain rfl := (finish_eq_next _ _ _).1 h
    exact keepsUnnamed_complete _ _ _ _
  | hdrRd =>
    rcases execHdrRd_cases h with ⟨e, -, rfl⟩ | ⟨h', v, rfl⟩
    · exact keepsUnnamed_complete _ _ _ _
    · exact ⟨fun _ => rfl, fun _ => rfl, fun _ => rfl, fun hi => absurd rfl hi, fun _ => rfl⟩
  | hdrLen =>
    rcases execHdrLen_cases h with rfl | ⟨w, -, rfl⟩ <;> exact keepsUnnamed_complete _ _ _ _
  | hdrWr =>
    rcases execHdrWr_cases h with ⟨e, -, rfl⟩ | ⟨w, m, -, -, rfl⟩
    · exact keepsUnnamed_complete _ _ _ _
    · exact keepsUnnamed_buf rfl s m (fun _ => rfl) fun _ => rfl
  | hdrWrp =>
    rcases execHdrWrp_cases h with ⟨e, -, rfl⟩ | ⟨w, m, -, -, -, -, rfl⟩
    · exact keepsUnnamed_complete _ _ _ _
    · exact keepsUnnamed_buf rfl s m (fun hi => absurd rfl hi) fun _ => rfl
  | stsInit =>
    rcases execStsInit_cases h with rfl | ⟨w, -, rfl⟩
    · exact keepsUnnamed_complete _ _ _ _
    · exact keepsUnnamed_ctr _ _ _ fun hi => absurd rfl hi
  | stsRst =>
    obtain rfl := execStsRst_cases h
    exact keepsUnnamed_ctr _ _ _ fun _ => rfl
  | stsPush => exact execStsPush_keepsUnnamed h
  | stsRefresh =>
    obtain rfl := execStsRefresh_cases h
    exact keepsUnnamed_ctr _ _ _ fun _ => rfl
  | stsDec => exact execStsDec_keepsUnnamed h
  | stsEnc =>
    rcases execStsEnc_cases h with ⟨e, -, rfl⟩ | ⟨m, -, -, rfl⟩
    · exact keepsUnnamed_complete _ _ _ _
    · exact keepsUnnamed_buf rfl s m (fun _ => rfl) fun hi => absurd rfl hi
  | bfGet width rel =>
    rcases execBfGet_cases h with ⟨e, -, rfl⟩ | ⟨v, rfl⟩ <;> exact keepsUnnamed_complete _ _ _ _
  | bfPut width rel =>
    rcases execBfPut_cases h with ⟨e, -, rfl⟩ | ⟨a0, m, -, rfl⟩
    · exact keepsUnnamed_complete _ _ _ _
    · exact keepsUnnamed_buf rfl s m (fun _ => rfl) fun _ => rfl

/-- Settles O44: the frame of every command for the container, its Writes column for the rest. -/
theorem onlyNamedCommandsWrite : Obligations.OnlyNamedCommandsWrite := by
  intro i s t h
  obtain ⟨hbuf, hstart, hend, hhdr, hwidth⟩ := exec_keepsUnnamed h
  exact ⟨hbuf, hstart, hend, hhdr, (exec_frame h).container, hwidth⟩

end Machine

end Sys2Proof
end

section
/-! PROOFS. The field codec (R120-R124). `BUF` is one string of wire bits: bit `q` stands in byte `q / 8`, most significant
first (R8). `GetBits` and `PutBits` are described once by the bits they read and write; the laws of R122 and the two
commands follow from that. -/

open Sys2Proof.Claims

namespace Sys2Proof.Machine

/-! ### The wire bits of `BUF` -/

/-- The bit of `BUF` at wire position `q`, counted from byte 0; none where `BUF` has no byte. -/
def wireBit (m : List Host.Cell) (q : Nat) : Option Bool := (memRead m (q / 8)).map (bitAt · q)

/-- Counted from byte `a0`, position `q` is the absolute position `8 * a0 + q`. -/
theorem wireBit_base (m : List Host.Cell) (a0 q : Nat) :
    wireBit m (8 * a0 + q) = (memRead m (a0 + q / 8)).map (bitAt · q) := by
  have hbyte : (8 * a0 + q) / 8 = a0 + q / 8 := by omega
  have hbit : (8 * a0 + q) % 8 = q % 8 := by omega
  simp only [wireBit, bitAt, hbyte, hbit]

theorem wireBit_of_memRead {m : List Host.Cell} {a0 q : Nat} {b : Byte} (h : memRead m (a0 + q / 8) = some b) :
    wireBit m (8 * a0 + q) = some (b.getLsbD (7 - q % 8)) := by
  rw [wireBit_base, h]
  rfl

/-- The eight wire bits of a byte, by their place in it. -/
theorem wireBit_of_byte {m : List Host.Cell} {a j : Nat} {b : Byte} (h : memRead m a = some b) (hj : j < 8) :
    wireBit m (8 * a + j) = some (b.getLsbD (7 - j)) := by
  have hbyte : a + j / 8 = a := by omega
  rw [wireBit_of_memRead (hbyte.symm ▸ h), Nat.mod_eq_of_lt hj]

theorem memRead_eq_some_iff_wireBit {m : List Host.Cell} {a : Nat} {b : Byte} :
    memRead m a = some b ↔ ∀ j < 8, wireBit m (8 * a + j) = some (b.getLsbD (7 - j)) := by
  refine ⟨fun h j hj => wireBit_of_byte h hj, fun h => ?_⟩
  cases hread : memRead m a with
  | none => simpa [wireBit, hread] using h 0 (by decide)
  | some c =>
    have hbits : ∀ i < 8, c.getLsbD i = b.getLsbD i := fun i hi => by
      have hbit := (wireBit_of_byte hread (j := 7 - i) (by omega)).symm.trans (h (7 - i) (by omega))
      rwa [Nat.sub_sub_self (by omega), Option.some.injEq] at hbit
    rw [BitVec.eq_of_getLsbD_eq hbits]

/-- A byte is its eight wire bits. -/
theorem memRead_congr {m m' : List Host.Cell} {a : Nat} (h : ∀ j < 8, wireBit m' (8 * a + j) = wireBit m (8 * a + j)) :
    memRead m' a = memRead m a := by
  ext b
  rw [memRead_eq_some_iff_wireBit, memRead_eq_some_iff_wireBit]
  exact forall₂_congr fun j hj => by rw [h j hj]

/-- Buffers in the canonical form with the same wire bits are equal data. -/
theorem memory_ext_wireBit {size : Nat} {m m' : List Host.Cell} (hm : Memory.wf size m) (hm' : Memory.wf size m')
    (h : ∀ q, wireBit m q = wireBit m' q) : m = m' :=
  memory_ext hm hm' fun _ => memRead_congr fun _ _ => h _

/-- Writing a byte back with one bit set changes that wire bit and no other. -/
theorem wireBit_memWrite_setBitAt {m m' : List Host.Cell} {a0 q : Nat} {b : Byte} {x : Bool}
    (hread : memRead m (a0 + q / 8) = some b) (hwrite : memWrite m (a0 + q / 8) (setBitAt b q x) = some m') (r : Nat) :
    wireBit m' r = if r = 8 * a0 + q then some x else wireBit m r := by
  by_cases hbyte : r / 8 = a0 + q / 8
  · have hsame : r % 8 = q % 8 ↔ r = 8 * a0 + q := by omega
    simp only [wireBit, hbyte, hread, memRead_memWrite_same hwrite, Option.map_some, bitAt_setBitAt, hsame]
    split <;> rfl
  · rw [if_neg (by omega), wireBit, wireBit, memRead_memWrite_other hwrite hbyte]

/-! ### `GetBits` and `PutBits` by their wire bits -/

theorem getBitsLoop_succ (m : List Host.Cell) (a0 q n v : Nat) :
    getBitsLoop m a0 q (n + 1) v =
      (wireBit m (8 * a0 + q)).bind fun x => getBitsLoop m a0 (q + 1) n (2 * v + x.toNat) := by
  rw [getBitsLoop, wireBit_base]
  cases memRead m (a0 + q / 8) <;> rfl

/-- One bit shifted into `v` from the right: what is above the `n` bits still to come. -/
theorem div_two_pow_eq_shift_in (r v n : Nat) (x : Bool) :
    r / 2 ^ n = 2 * v + x.toNat ↔ r / 2 ^ (n + 1) = v ∧ r.testBit n = x := by
  rw [Nat.testBit_eq_decide_div_mod_eq, Nat.pow_succ, ← Nat.div_div_eq_div_mul]
  cases x <;> simp only [Bool.toNat_true, Bool.toNat_false, decide_eq_true_eq, decide_eq_false_iff_not] <;> omega

theorem getBitsLoop_eq_some_iff {m : List Host.Cell} {a0 r : Nat} (n q v : Nat) :
    getBitsLoop m a0 q n v = some r ↔
      r / 2 ^ n = v ∧ ∀ i < n, wireBit m (8 * a0 + (q + i)) = some (r.testBit (n - 1 - i)) := by
  induction n generalizing q v with
  | zero => simp [getBitsLoop, eq_comm]
  | succ n ih =>
    have hbits : (∀ i < n + 1, wireBit m (8 * a0 + (q + i)) = some (r.testBit (n + 1 - 1 - i))) ↔
        wireBit m (8 * a0 + q) = some (r.testBit n) ∧
          ∀ i < n, wireBit m (8 * a0 + (q + 1 + i)) = some (r.testBit (n - 1 - i)) := by
      rw [Nat.forall_lt_succ_left]
      refine and_congr Iff.rfl (forall₂_congr fun i _ => ?_)
      rw [show q + (i + 1) = q + 1 + i by omega, show n + 1 - 1 - (i + 1) = n - 1 - i by omega]
    rw [getBitsLoop_succ, Option.bind_eq_some_iff, hbits]
    constructor
    · rintro ⟨x, hx, hloop⟩
      obtain ⟨hdiv, hrest⟩ := (ih _ _).1 hloop
      obtain ⟨hv, rfl⟩ := (div_two_pow_eq_shift_in r v n x).1 hdiv
      exact ⟨hv, hx, hrest⟩
    · rintro ⟨hv, hx, hrest⟩
      exact ⟨_, hx, (ih _ _).2 ⟨(div_two_pow_eq_shift_in r v n _).2 ⟨hv, rfl⟩, hrest⟩⟩

/-- `GetBits` answers the number below `2 ^ n` whose bits, from the most significant down, are the field's (R120). -/
theorem getBits_eq_some_iff {m : List Host.Cell} {a0 p n r : Nat} :
    getBits m a0 p n = some r ↔
      r < 2 ^ n ∧ ∀ i < n, wireBit m (8 * a0 + (p + i)) = some (r.testBit (n - 1 - i)) := by
  rw [getBits, getBitsLoop_eq_some_iff, Nat.div_eq_zero_iff, or_iff_right (Nat.two_pow_pos n).ne']

/-- The field's bits are all that `GetBits` depends on. -/
theorem getBits_congr {m m' : List Host.Cell} {a0 p n : Nat}
    (h : ∀ i < n, wireBit m' (8 * a0 + (p + i)) = wireBit m (8 * a0 + (p + i))) :
    getBits m' a0 p n = getBits m a0 p n := by
  ext r
  rw [getBits_eq_some_iff, getBits_eq_some_iff]
  exact and_congr_right fun _ => forall₂_congr fun i hi => by rw [h i hi]

/-- `PutBits` writes the field's bits, the most significant first, and keeps every other bit (R121). -/
theorem wireBit_putBits {m m' : List Host.Cell} {a0 : Nat} {v : Word} (n p : Nat) (h : putBits m a0 p n v = some m')
    (q : Nat) : wireBit m' q =
      if 8 * a0 + p ≤ q ∧ q < 8 * a0 + p + n then some (v.getLsbD (n - 1 - (q - (8 * a0 + p)))) else wireBit m q := by
  induction n generalizing m p with
  | zero =>
    simp only [putBits, Option.some.injEq] at h
    rw [h, if_neg (by omega)]
  | succ n ih =>
    rw [putBits] at h
    split at h
    · next b hread =>
      split at h
      · next m1 hwrite =>
        rw [ih (p + 1) h, wireBit_memWrite_setBitAt hread hwrite]
        by_cases hfirst : q = 8 * a0 + p
        · rw [if_neg (by omega), if_pos hfirst, if_pos (by omega), hfirst, Nat.sub_self]
          rfl
        · rw [if_neg hfirst]
          by_cases hin : 8 * a0 + p ≤ q ∧ q < 8 * a0 + p + (n + 1)
          · have hplace : n - 1 - (q - (8 * a0 + (p + 1))) = n + 1 - 1 - (q - (8 * a0 + p)) := by omega
            rw [if_pos (by omega), if_pos hin, hplace]
          · rw [if_neg (by omega), if_neg hin]
      · cases h
    · cases h

theorem wireBit_putBits_inside {m m' : List Host.Cell} {a0 p n i : Nat} {v : Word} (h : putBits m a0 p n v = some m')
    (hi : i < n) : wireBit m' (8 * a0 + (p + i)) = some (v.getLsbD (n - 1 - i)) := by
  rw [wireBit_putBits n p h, if_pos (by omega), show 8 * a0 + (p + i) - (8 * a0 + p) = i by omega]

theorem wireBit_putBits_outside {m m' : List Host.Cell} {a0 p n q : Nat} {v : Word} (h : putBits m a0 p n v = some m')
    (hq : q < 8 * a0 + p ∨ 8 * a0 + p + n ≤ q) : wireBit m' q = wireBit m q := by
  rw [wireBit_putBits n p h, if_neg (by omega)]

/-! ### The same in bytes -/

/-- Every byte of `m` is one of `m'`, with the low `n` bits of `v` in the field's positions and its other bits
kept (R121). -/
def FieldStored (m m' : List Host.Cell) (a0 p n : Nat) (v : Word) : Prop :=
  ∀ a b, memRead m a = some b → ∃ b', memRead m' a = some b' ∧
    ∀ j, j < 8 → b'.getLsbD (7 - j) =
      (if a0 ≤ a ∧ p ≤ 8 * (a - a0) + j ∧ 8 * (a - a0) + j < p + n
        then v.getLsbD (n - 1 - (8 * (a - a0) + j - p)) else b.getLsbD (7 - j))

theorem putBits_fieldStored {m m' : List Host.Cell} {a0 p n : Nat} {v : Word} (h : putBits m a0 p n v = some m') :
    FieldStored m m' a0 p n v := by
  intro a b hb
  obtain ⟨b', hb'⟩ : ∃ b', memRead m' a = some b' := by
    rw [← Option.isSome_iff_exists, memRead_isSome_iff, putBits_keys n p h, ← memRead_isSome_iff, hb]
    rfl
  refine ⟨b', hb', fun j hj => Option.some.inj ?_⟩
  rw [← wireBit_of_byte hb' hj, wireBit_putBits n p h, wireBit_of_byte hb hj, apply_ite some]
  refine if_ctx_congr (by omega) (fun hin => ?_) fun _ => rfl
  rw [show 8 * a + j - (8 * a0 + p) = 8 * (a - a0) + j - p by omega]

/-- Settles O17, from the field's bits. -/
theorem getBitsReadsMsbFirst : Obligations.GetBitsReadsMsbFirst := by
  intro size m a0 p n hm _ _ hfit
  obtain ⟨v, hv⟩ := getBits_of_lt hm (.inr hfit)
  obtain ⟨hlt, hbits⟩ := getBits_eq_some_iff.1 hv
  exact ⟨v, hv, hlt, fun i b hi hb => Option.some.inj ((hbits i hi).symm.trans (wireBit_of_memRead hb))⟩

/-- Settles O18, byte by byte. -/
theorem putBitsWritesOnlyTheField : Obligations.PutBitsWritesOnlyTheField := by
  intro size m a0 p n v hm _ _ hfit
  obtain ⟨m', h⟩ := putBits_of_lt hm (v := v) n p (.inr hfit)
  exact ⟨m', h, putBits_keeps_wf hm h, putBits_fieldStored h⟩

/-! ### The laws of R122 -/

/-- Settles O19: the bits written are those of the value's low part. -/
theorem getBitsAfterPutBits : Obligations.GetBitsAfterPutBits := by
  intro size m m' a0 p n v _ _ _ _ h
  refine getBits_eq_some_iff.2 ⟨Nat.mod_lt _ (Nat.two_pow_pos n), fun i hi => ?_⟩
  have hlow : n - 1 - i < n := by omega
  rw [wireBit_putBits_inside h hi, Nat.testBit_mod_two_pow, decide_eq_true hlow, Bool.true_and, BitVec.testBit_toNat]

/-- A field does not see the write of a field on disjoint positions. -/
theorem getBits_putBits_disjoint {m m' : List Host.Cell} {a0 p n q k : Nat} {v : Word}
    (hdisjoint : p + n ≤ q ∨ q + k ≤ p) (h : putBits m a0 p n v = some m') : getBits m' a0 q k = getBits m a0 q k :=
  getBits_congr fun i hi => wireBit_putBits_outside h (by omega)

/-- Writes of fields on disjoint positions commute: each wire bit is written by at most one of them. -/
theorem putBits_comm {m m' m'' x y : List Host.Cell} {a0 p n q k : Nat} {v w : Word} {size : Nat} (hm : Memory.wf size m)
    (hdisjoint : p + n ≤ q ∨ q + k ≤ p)
    (hp : putBits m a0 p n v = some m') (hpq : putBits m' a0 q k w = some x)
    (hq : putBits m a0 q k w = some m'') (hqp : putBits m'' a0 p n v = some y) : x = y := by
  refine memory_ext_wireBit (putBits_keeps_wf (putBits_keeps_wf hm hp) hpq)
    (putBits_keeps_wf (putBits_keeps_wf hm hq) hqp) fun r => ?_
  rw [wireBit_putBits k q hpq, wireBit_putBits n p hp, wireBit_putBits n p hqp, wireBit_putBits k q hq]
  by_cases hin : 8 * a0 + p ≤ r ∧ r < 8 * a0 + p + n
  · rw [if_neg (by omega), if_pos hin, if_pos hin]
  · rw [if_neg hin, if_neg hin]

/-- Settles O20: the field read keeps its bits, and both orders of the writes answer, with equal data. -/
theorem disjointFieldsAreIndependent : Obligations.DisjointFieldsAreIndependent := by
  intro size m m' a0 p n q k v hm _ _ _ _ hp hq hdisjoint h
  refine ⟨getBits_putBits_disjoint hdisjoint h, fun w => ?_⟩
  obtain ⟨x, hx⟩ := putBits_of_lt (putBits_keeps_wf hm h) (v := w) k q (.inr hq)
  obtain ⟨m'', hm''⟩ := putBits_of_lt hm (v := w) k q (.inr hq)
  obtain ⟨y, hy⟩ := putBits_of_lt (putBits_keeps_wf hm hm'') (v := v) n p (.inr hp)
  rw [hx, hm'', Option.bind_some, hy, putBits_comm hm hdisjoint h hx hm'' hy]

/-- The eight bits of an aligned field are those of its byte. -/
theorem getBits_aligned_byte {m : List Host.Cell} {a0 p : Nat} {b : Byte} (hp : p % 8 = 0)
    (hb : memRead m (a0 + p / 8) = some b) : getBits m a0 p 8 = some b.toNat := by
  refine getBits_eq_some_iff.2 ⟨b.isLt, fun i hi => ?_⟩
  rw [show 8 * a0 + (p + i) = 8 * (a0 + p / 8) + i by omega, wireBit_of_byte hb hi, BitVec.testBit_toNat]

/-- A byte that holds no bit of the field is kept. -/
theorem memRead_putBits_other {m m' : List Host.Cell} {a0 p n a : Nat} {v : Word} (hn : 1 ≤ n)
    (h : putBits m a0 p n v = some m') (ha : a < a0 + p / 8 ∨ a0 + (p + n - 1) / 8 < a) : memRead m' a = memRead m a :=
  memRead_congr fun j hj => wireBit_putBits_outside h (by omega)

/-- Settles O21, from the bits of one byte: those read, and those a write keeps. -/
theorem fieldsAndBytes : Obligations.FieldsAndBytes :=
  ⟨fun _ _ _ _ hp hb => getBits_aligned_byte hp hb, fun _ _ _ _ _ _ _ hn _ h ha => memRead_putBits_other hn h ha⟩

/-! ### The checks of the two commands -/

/-- `a0` of R123 and R124. -/
def fieldBase (s : State) (rel : Bool) : Nat := if rel then s.rgnStart.toNat else 0

/-- The limit of R123 and R124, in bits from `fieldBase`. -/
def fieldLimit (s : State) (rel : Bool) : Nat := if rel then 8 * rgnLen s else 8 * s.params.bufSize

theorem fieldWindow_of_region {s : State} {rel : Bool} (h : rel = true → RegionOK s) :
    fieldWindow s rel = some (fieldBase s rel, fieldLimit s rel) := by
  cases rel with
  | false => rfl
  | true => exact if_pos (h rfl)

theorem fieldWindow_of_bad_region {s : State} (h : ¬ RegionOK s) : fieldWindow s true = none := if_neg h

section Checks

variable {s : State} {n : Nat} {rel : Bool} (short : ErrCode) (k : Nat → Result)

theorem withField_arg (hn : n < 1 ∨ 32 < n) : withField n rel short s k = .next (failed s .arg) := if_pos hn

theorem withField_region (hlo : 1 ≤ n) (hhi : n ≤ 32) (hrel : rel = true) (hr : ¬ RegionOK s) :
    withField n rel short s k = .next (failed s .region) := by
  rw [withField, if_neg (by omega), hrel, fieldWindow_of_bad_region hr]
  rfl

theorem withField_of_region (hlo : 1 ≤ n) (hhi : n ≤ 32) (hr : rel = true → RegionOK s) :
    withField n rel short s k =
      if fieldLimit s rel < s.addr.toNat + n then .next (failed s short) else k (fieldBase s rel) := by
  rw [withField, if_neg (by omega), fieldWindow_of_region hr]
  rfl

theorem withField_short (hlo : 1 ≤ n) (hhi : n ≤ 32) (hr : rel = true → RegionOK s)
    (hlimit : fieldLimit s rel < s.addr.toNat + n) : withField n rel short s k = .next (failed s short) := by
  rw [withField_of_region short k hlo hhi hr, if_pos hlimit]

theorem withField_fits (hlo : 1 ≤ n) (hhi : n ≤ 32) (hr : rel = true → RegionOK s)
    (hlimit : s.addr.toNat + n ≤ fieldLimit s rel) : withField n rel short s k = k (fieldBase s rel) := by
  rw [withField_of_region short k hlo hhi hr, if_neg (by omega)]

end Checks

/-- A field that fits lies inside `BUF`. -/
theorem fieldBase_inside {s : State} {n : Nat} {rel : Bool} (hlo : 1 ≤ n) (hr : rel = true → RegionOK s)
    (hlimit : s.addr.toNat + n ≤ fieldLimit s rel) : fieldBase s rel + (s.addr.toNat + n - 1) / 8 < s.params.bufSize :=
  fieldWindow_inside (fieldWindow_of_region hr) hlo hlimit

/-! ### `BF_GET` and `BF_PUT` -/

theorem hasFieldWords_bfGet : HasFieldWords .bfGet 0x00000020 :=
  hasFieldWords_encodeField (op := 0x20) (fun _ _ => rfl) fun _ _ => rfl

theorem hasFieldWords_bfPut : HasFieldWords .bfPut 0x00000021 :=
  hasFieldWords_encodeField (op := 0x21) (fun _ _ => rfl) fun _ _ => rfl

/-- A field that fits reads from `BUF` a number whose bits are the bytes' bits, and it fits a register. -/
theorem execBfGet_fits {s : State} {n : Nat} {rel : Bool} (hm : Memory.wf s.params.bufSize s.buf) (hlo : 1 ≤ n)
    (hhi : n ≤ 32) (hr : rel = true → RegionOK s) (hlimit : s.addr.toNat + n ≤ fieldLimit s rel) :
    ∃ v : Word, execBfGet n rel s = .next (finished s v) ∧ v.toNat < 2 ^ n ∧
      ∀ i, i < n → v.getLsbD (n - 1 - i) =
        (bufByte s (fieldBase s rel + (s.addr.toNat + i) / 8)).getLsbD (7 - (s.addr.toNat + i) % 8) := by
  have hin := fieldBase_inside hlo hr hlimit
  obtain ⟨r, hget⟩ := getBits_of_lt hm (.inr hin)
  obtain ⟨hlt, hbits⟩ := getBits_eq_some_iff.1 hget
  have htoNat : (BitVec.ofNat 32 r).toNat = r :=
    (BitVec.toNat_ofNat r 32).trans (Nat.mod_eq_of_lt (hlt.trans_le (Nat.pow_le_pow_right (by decide) hhi)))
  refine ⟨BitVec.ofNat 32 r, ?_, htoNat.symm ▸ hlt, fun i hi => ?_⟩
  · rw [execBfGet, withField_fits .truncated _ hlo hhi hr hlimit, hget]
    rfl
  · obtain ⟨b, hb⟩ := memRead_of_lt hm (a := fieldBase s rel + (s.addr.toNat + i) / 8) (by omega)
    have hbit := (hbits i hi).symm.trans (wireBit_of_memRead hb)
    rw [← BitVec.testBit_toNat, htoNat, bufByte, hb]
    exact Option.some.inj hbit

/-- Settles O22: the checks in their order, then the field's bits. -/
theorem bfGetReadsTheField : Obligations.BfGetReadsTheField :=
  ⟨hasFieldWords_bfGet, fun _ _ _ ⟨_, hm, _⟩ =>
    ⟨withField_arg _ _, withField_region _ _, fun hlo hhi hr =>
      ⟨withField_short _ _ hlo hhi hr, execBfGet_fits hm hlo hhi hr⟩⟩⟩

/-- A field that fits is written to `BUF`, every other bit kept. -/
theorem execBfPut_fits {s : State} {n : Nat} {rel : Bool} (hm : Memory.wf s.params.bufSize s.buf) (hlo : 1 ≤ n)
    (hhi : n ≤ 32) (hr : rel = true → RegionOK s) (hlimit : s.addr.toNat + n ≤ fieldLimit s rel) :
    ∃ m, execBfPut n rel s = .next (finished { s with buf := m } 0) ∧ Memory.wf s.params.bufSize m ∧
      FieldStored s.buf m (fieldBase s rel) s.addr.toNat n s.bfData := by
  obtain ⟨m, hput⟩ := putBits_of_lt hm (v := s.bfData) n s.addr.toNat (.inr (fieldBase_inside hlo hr hlimit))
  refine ⟨m, ?_, putBits_keeps_wf hm hput, putBits_fieldStored hput⟩
  rw [execBfPut, withField_fits .capacity _ hlo hhi hr hlimit, hput]
  rfl

/-- Settles O23: the checks in their order, then the field's write. -/
theorem bfPutWritesTheField : Obligations.BfPutWritesTheField :=
  ⟨hasFieldWords_bfPut, fun _ _ _ ⟨_, hm, _⟩ =>
    ⟨withField_arg _ _, withField_region _ _, fun hlo hhi hr =>
      ⟨withField_short _ _ hlo hhi hr, execBfPut_fits hm hlo hhi hr⟩⟩⟩

end Sys2Proof.Machine
end

section
/-! PROOFS. The data-PDU header's length, image and writers (R140-R143, R145, R146). The bytes of `hdrImage` are tied to the
numbers of the statements once, and each writer is its checks in their order, then that image in `BUF`. -/

open Sys2Proof.Claims

namespace Sys2Proof.Machine

/-! ### Widths and lengths -/

/-- A supported `CFG.SN_SIZE` is the encoding of a width. -/
theorem exists_width_of_supported {s : State} (h : Supported s) : ∃ w : SnWidth, s.snSize = w.code :=
  h.elim (fun h0 => ⟨.w12, h0⟩) fun h1 => ⟨.w18, h1⟩

theorem withWidth_unsupported {s : State} (h : Unsupported s) (k : SnWidth → Result) :
    withWidth s k = .next (failed s .snWidth) := by
  rw [withWidth, (widthOf_eq_none _).2 h]
  rfl

theorem withWidth_supported {s : State} {w : SnWidth} (h : s.snSize = w.code) (k : SnWidth → Result) :
    withWidth s k = k w := by
  rw [withWidth, (widthOf_eq_some _ w).2 h]

theorem soPresent_iff (si : BitVec 2) : soPresent si = true ↔ Segmented si := decide_eq_true_iff

theorem hdrLen_segmented {si : BitVec 2} (h : Segmented si) (w : SnWidth) : hdrLen si w = w.snBytes + 2 := by
  rw [hdrLen, if_pos ((soPresent_iff si).2 h)]

theorem hdrLen_unsegmented {si : BitVec 2} (h : ¬ Segmented si) (w : SnWidth) : hdrLen si w = w.snBytes := by
  rw [hdrLen, if_neg (mt (soPresent_iff si).1 h)]
  rfl

theorem snBytes_le_hdrLen (si : BitVec 2) (w : SnWidth) : w.snBytes ≤ hdrLen si w := Nat.le_add_right _ _

theorem headerLen_eq {s : State} {w : SnWidth} (h : s.snSize = w.code) : headerLen s = hdrLen s.hdr.si w := by
  rw [headerLen, h]
  cases w <;> rfl

/-- `HDR_LEN` of a supported width (R141). -/
theorem execHdrLen_supported {s : State} {w : SnWidth} (h : s.snSize = w.code) :
    execHdrLen s = .next (finished s (BitVec.ofNat 32 (hdrLen s.hdr.si w))) :=
  withWidth_supported h _

/-- The length of R141 as a register value. -/
theorem ofNat_hdrLen (si : BitVec 2) (w : SnWidth) :
    BitVec.ofNat 32 (hdrLen si w) = if Segmented si then BitVec.ofNat 32 (w.snBytes + 2) else BitVec.ofNat 32 w.snBytes := by
  split
  · next h => rw [hdrLen_segmented h]
  · next h => rw [hdrLen_unsegmented h]

/-- Settles O24: the length at each width. -/
theorem hdrLenResult : Obligations.HdrLenResult := by
  refine ⟨hasWord_encode rfl, fun s => ⟨fun h0 => ?_, fun h1 => ?_, fun h => withWidth_unsupported h _⟩⟩
  · exact (execHdrLen_supported (w := .w12) h0).trans (by rw [ofNat_hdrLen]; rfl)
  · exact (execHdrLen_supported (w := .w18) h1).trans (by rw [ofNat_hdrLen]; rfl)

/-! ### The header image -/

theorem emitsSo_eq (s : State) : emitsSo s = emitSo s := by
  have hso : s.hdr.so.toNat ≠ 0 ↔ s.hdr.so ≠ 0 := not_congr (BitVec.toNat_inj (y := 0))
  simp only [emitsSo, emitSo, hso]
  rfl

theorem be16_toNat (v : BitVec 16) : (be16 v).map BitVec.toNat = [v.toNat / 256, v.toNat % 256] := by
  have hv := v.isLt
  simp only [be16, List.map_cons, List.map_nil, BitVec.extractLsb'_toNat, Nat.shiftRight_eq_div_pow, List.cons.injEq,
    and_true]
  omega

/-- `Base` in numbers (R142). -/
def baseBytes (h : HeaderRegs) : SnWidth → List Nat
  | .w12 => [128 + 64 * h.p.toNat + 16 * h.si.toNat + h.sn.toNat / 256 % 16, h.sn.toNat % 256]
  | .w18 =>
    [128 + 64 * h.p.toNat + 16 * h.si.toNat + h.sn.toNat / 65536 % 4, h.sn.toNat / 256 % 256, h.sn.toNat % 256]

theorem hdrBase_toNat (h : HeaderRegs) (w : SnWidth) : (hdrBase h w).map BitVec.toNat = baseBytes h w := by
  cases w <;>
    simp only [hdrBase, baseBytes, List.map_cons, List.map_nil, toNat_append_eq_add, BitVec.toNat_ofBool,
      BitVec.toNat_ofNat, BitVec.extractLsb'_toNat, Nat.shiftRight_eq_div_pow, List.cons.injEq, and_true, true_and] <;>
    omega

/-- The bytes written are those of R142 and R143. -/
theorem headerBytes_eq {s : State} {w : SnWidth} (hw : s.snSize = w.code) :
    headerBytes s = (hdrImage s w).map BitVec.toNat := by
  have hbase : headerBytes s = baseBytes s.hdr w ++
      (if emitsSo s then [s.hdr.so.toNat / 256, s.hdr.so.toNat % 256] else []) := by
    rw [headerBytes, hw]
    cases w <;> rfl
  rw [hbase, emitsSo_eq, hdrImage, List.map_append, hdrBase_toNat, apply_ite (List.map BitVec.toNat), be16_toNat]
  rfl

theorem headerBytes_length {s : State} {w : SnWidth} (hw : s.snSize = w.code) :
    (headerBytes s).length = (hdrImage s w).length := by
  rw [headerBytes_eq hw, List.length_map]

/-- Where `EmitSO` goes by SI, the image is as long as `HdrLen` says (R143). -/
theorem hdrImage_length {s : State} (hso : emitSo s = soPresent s.hdr.si) (w : SnWidth) :
    (hdrImage s w).length = hdrLen s.hdr.si w := by
  rw [hdrImage, hso, List.length_append, hdrBase_length, hdrLen]
  cases soPresent s.hdr.si <;> rfl

theorem emitSo_default {s : State} (h : s.soLegacy = false) : emitSo s = soPresent s.hdr.si := by
  rw [emitSo, h]
  rfl

/-! ### A run of bytes written -/

theorem memRead_writeBytes {m m' : List Host.Cell} {a : Nat} {bytes : List Byte} (h : writeBytes m a bytes = some m')
    {j : Nat} {x : Byte} (hx : bytes[j]? = some x) : memRead m' (a + j) = some x := by
  have hj : j < bytes.length := (List.getElem?_eq_some_iff.1 hx).1
  rw [(writeBytes_spec h).2, if_pos (by omega), Nat.add_sub_cancel_left, hx]

theorem writeBytes_stored {m m' : List Host.Cell} {a : Nat} {bytes : List Byte} (h : writeBytes m a bytes = some m') :
    Stored m' a (bytes.map BitVec.toNat) := by
  intro j x hx
  rw [List.getElem?_map, Option.map_eq_some_iff] at hx
  obtain ⟨b, hb, rfl⟩ := hx
  rw [memRead_writeBytes h hb, BitVec.ofNat_toNat, BitVec.setWidth_eq]

theorem writeBytes_sameOutside {m m' : List Host.Cell} {a : Nat} {bytes : List Byte} (h : writeBytes m a bytes = some m') :
    SameOutside m m' a bytes.length := by
  intro b hb
  rw [(writeBytes_spec h).2, if_neg (by omega)]

/-! ### `HDR_WR` -/

section Writers

variable {s : State} {w : SnWidth}

theorem execHdrWr_capacity (hw : s.snSize = w.code) (hfit : s.params.bufSize < s.addr.toNat + (hdrImage s w).length) :
    execHdrWr s = .next (failed s .capacity) := by
  rw [execHdrWr, withWidth_supported hw, if_pos hfit]
  rfl

/-- An image that fits is stored at `ADDR` (R145). -/
theorem execHdrWr_fits (hm : Memory.wf s.params.bufSize s.buf) (hw : s.snSize = w.code)
    (hfit : s.addr.toNat + (hdrImage s w).length ≤ s.params.bufSize) :
    ∃ m, writeBytes s.buf s.addr.toNat (hdrImage s w) = some m ∧
      execHdrWr s = .next (finished { s with buf := m } (BitVec.ofNat 32 (hdrLen s.hdr.si w))) := by
  obtain ⟨m, hwrite⟩ := writeBytes_of_le hm hfit
  refine ⟨m, hwrite, ?_⟩
  rw [execHdrWr, withWidth_supported hw, if_neg (Nat.not_lt.2 hfit), hwrite]
  rfl

/-! ### `HDR_WRP` -/

theorem execHdrWrp_region (hw : s.snSize = w.code) (hr : ¬ RegionOK s) :
    execHdrWrp s = .next (failed s .region) := by
  rw [execHdrWrp, withWidth_supported hw, if_pos hr]
  rfl

theorem execHdrWrp_noPrefix (hw : s.snSize = w.code) (hr : RegionOK s) (hlen : s.rgnStart.toNat < hdrLen s.hdr.si w) :
    execHdrWrp s = .next (failed s .capacity) := by
  rw [execHdrWrp, withWidth_supported hw, if_neg (not_not_intro hr), if_pos hlen]
  rfl

theorem execHdrWrp_capacity (hw : s.snSize = w.code) (hr : RegionOK s) (hlen : hdrLen s.hdr.si w ≤ s.rgnStart.toNat)
    (hfit : s.params.bufSize < s.rgnStart.toNat - hdrLen s.hdr.si w + (hdrImage s w).length) :
    execHdrWrp s = .next (failed s .capacity) := by
  rw [execHdrWrp, withWidth_supported hw, if_neg (not_not_intro hr), if_neg (Nat.not_lt.2 hlen)]
  exact if_pos hfit

/-- An image that fits is stored in front of the region (R146). -/
theorem execHdrWrp_fits (hm : Memory.wf s.params.bufSize s.buf) (hw : s.snSize = w.code) (hr : RegionOK s)
    (hlen : hdrLen s.hdr.si w ≤ s.rgnStart.toNat)
    (hfit : s.rgnStart.toNat - hdrLen s.hdr.si w + (hdrImage s w).length ≤ s.params.bufSize) :
    ∃ m, writeBytes s.buf (s.rgnStart.toNat - hdrLen s.hdr.si w) (hdrImage s w) = some m ∧
      execHdrWrp s = .next (finished
        { s with buf := m, rgnStart := BitVec.ofNat 32 (s.rgnStart.toNat - hdrLen s.hdr.si w) }
        (BitVec.ofNat 32 (hdrLen s.hdr.si w))) := by
  obtain ⟨m, hwrite⟩ := writeBytes_of_le hm hfit
  refine ⟨m, hwrite, ?_⟩
  rw [execHdrWrp, withWidth_supported hw, if_neg (not_not_intro hr), if_neg (Nat.not_lt.2 hlen)]
  dsimp only
  rw [if_neg (Nat.not_lt.2 hfit), hwrite]
  rfl

end Writers

/-- Settles O26: the two checks in their order, then the image in numbers. -/
theorem hdrWrWritesTheImage : Obligations.HdrWrWritesTheImage := by
  refine ⟨hasWord_encode rfl, fun s ⟨_, hm, _⟩ =>
    ⟨fun h => withWidth_unsupported h _, fun h hfit => ?_, fun h hfit => ?_⟩⟩
  all_goals
    obtain ⟨w, hw⟩ := exists_width_of_supported h
    rw [headerBytes_length hw] at hfit
  · exact execHdrWr_capacity hw hfit
  · obtain ⟨m, hwrite, hexec⟩ := execHdrWr_fits hm hw hfit
    rw [headerLen_eq hw, headerBytes_length hw, headerBytes_eq hw]
    exact ⟨m, hexec, writeBytes_stored hwrite, writeBytes_sameOutside hwrite⟩

/-- Settles O27: the checks in their order, then the image in numbers; in the default mode it ends where the region began. -/
theorem hdrWrpPrependsTheImage : Obligations.HdrWrpPrependsTheImage := by
  refine ⟨hasWord_encode rfl, fun s ⟨_, hm, _⟩ =>
    ⟨fun h => withWidth_unsupported h _, fun h hr => ?_, fun h hr hlen => ?_, fun h hr hlen hfit => ?_,
      fun h hr hlen hfit => ?_⟩⟩
  all_goals obtain ⟨w, hw⟩ := exists_width_of_supported h
  · exact execHdrWrp_region hw hr
  · rw [headerLen_eq hw] at hlen
    exact execHdrWrp_noPrefix hw hr hlen
  all_goals
    rw [headerLen_eq hw] at hlen hfit
    rw [headerBytes_length hw] at hfit
  · exact execHdrWrp_capacity hw hr hlen hfit
  · obtain ⟨m, hwrite, hexec⟩ := execHdrWrp_fits hm hw hr hlen hfit
    have hsame := writeBytes_sameOutside hwrite
    rw [headerLen_eq hw, headerBytes_length hw, headerBytes_eq hw]
    refine ⟨m, hexec, writeBytes_stored hwrite, hsame, fun hdefault a ha => hsame a (.inr ?_)⟩
    rw [hdrImage_length (emitSo_default hdefault)]
    omega

end Sys2Proof.Machine
end

section
/-! PROOFS. The data-PDU header's reader and the round trip (R144, R147). A field is read piece by piece: the bits inside one
byte, and two adjacent fields as one. `HDR_RD` takes `parsedHeader` of the region's bytes, which undoes the writers' image. -/

open Sys2Proof.Claims

namespace Sys2Proof.Machine

/-! ### `GetBits` of a field by its pieces -/

/-- A field inside one byte is those bits of the byte. -/
theorem getBits_within_byte {m : List Host.Cell} {a0 p n : Nat} {b : Byte} (hp : p % 8 + n ≤ 8)
    (hb : memRead m (a0 + p / 8) = some b) : getBits m a0 p n = some (b.extractLsb' (8 - (p % 8 + n)) n).toNat := by
  refine getBits_eq_some_iff.2 ⟨BitVec.isLt _, fun i hi => ?_⟩
  have hplace : 8 - (p % 8 + n) + (n - 1 - i) = 7 - (p % 8 + i) := by omega
  rw [show 8 * a0 + (p + i) = 8 * (a0 + p / 8) + (p % 8 + i) by omega, wireBit_of_byte hb (by omega),
    BitVec.testBit_toNat, BitVec.getLsbD_extractLsb', decide_eq_true (by omega), Bool.true_and, hplace]

/-- Two adjacent fields are one field, the first on top. -/
theorem getBits_append {m : List Host.Cell} {a0 p n k : Nat} {x : BitVec n} {y : BitVec k}
    (hx : getBits m a0 p n = some x.toNat) (hy : getBits m a0 (p + n) k = some y.toNat) :
    getBits m a0 p (n + k) = some (x ++ y).toNat := by
  obtain ⟨-, hxbits⟩ := getBits_eq_some_iff.1 hx
  obtain ⟨-, hybits⟩ := getBits_eq_some_iff.1 hy
  refine getBits_eq_some_iff.2 ⟨BitVec.isLt _, fun i hi => ?_⟩
  rw [BitVec.testBit_toNat, BitVec.getLsbD_append]
  by_cases hfirst : i < n
  · rw [if_neg (by omega), hxbits i hfirst, BitVec.testBit_toNat, show n + k - 1 - i - k = n - 1 - i by omega]
  · rw [if_pos (by omega), show p + i = p + n + (i - n) by omega, hybits (i - n) (by omega), BitVec.testBit_toNat,
      show k - 1 - (i - n) = n + k - 1 - i by omega]

/-! ### The header that bytes hold -/

/-- The SN in a header's mandatory bytes (R88, R89). -/
def snField (b : Nat → Byte) : SnWidth → Word
  | .w12 => 0#20 ++ (b 0).extractLsb' 0 4 ++ b 1
  | .w18 => 0#14 ++ (b 0).extractLsb' 0 2 ++ b 1 ++ b 2

/-- The two bytes after a header's mandatory bytes (R90). -/
def soField (b : Nat → Byte) (w : SnWidth) : BitVec 16 := b w.snBytes ++ b (w.snBytes + 1)

/-- SI of a header (R88, R89). -/
abbrev siField (b : Nat → Byte) : BitVec 2 := (b 0).extractLsb' 4 2

/-- The header registers that R144 takes from the bytes. -/
def parsedHeader (b : Nat → Byte) (w : SnWidth) : HeaderRegs where
  dc := (b 0).getLsbD 7
  p := (b 0).getLsbD 6
  si := siField b
  sn := snField b w
  so := if Segmented (siField b) then soField b w else 0

/-- The reserved bits of the 18-bit format are not 0 (R89, R144). -/
abbrev ReservedSet (b : Nat → Byte) (w : SnWidth) : Prop := w = .w18 ∧ (b 0).extractLsb' 2 2 ≠ 0

section Fields

variable {m : List Host.Cell} {a0 : Nat} {b : Nat → Byte} {w : SnWidth}

theorem getBits_snField (hb : ∀ j < w.snBytes, memRead m (a0 + j) = some (b j)) :
    getBits m a0 w.hdrSnPos w.bits = some (snField b w).toNat := by
  cases w with
  | w12 =>
    have hhi : getBits m a0 4 4 = some ((b 0).extractLsb' 0 4).toNat := getBits_within_byte (by decide) (hb 0 (by decide))
    have hlo : getBits m a0 8 8 = some (b 1).toNat := getBits_aligned_byte rfl (hb 1 (by decide))
    have hext : (snField b .w12).toNat = ((b 0).extractLsb' 0 4 ++ b 1).toNat := by
      simp only [snField, toNat_append_eq_add, BitVec.toNat_ofNat, Nat.zero_mod, Nat.zero_mul, Nat.zero_add]
    rw [hext]
    exact getBits_append hhi hlo
  | w18 =>
    have hhi : getBits m a0 6 2 = some ((b 0).extractLsb' 0 2).toNat := getBits_within_byte (by decide) (hb 0 (by decide))
    have hmid : getBits m a0 8 8 = some (b 1).toNat := getBits_aligned_byte rfl (hb 1 (by decide))
    have hlo : getBits m a0 16 8 = some (b 2).toNat := getBits_aligned_byte rfl (hb 2 (by decide))
    have hext : (snField b .w18).toNat = ((b 0).extractLsb' 0 2 ++ b 1 ++ b 2).toNat := by
      simp only [snField, toNat_append_eq_add, BitVec.toNat_ofNat, Nat.zero_mod, Nat.zero_mul, Nat.zero_add]
    rw [hext]
    exact getBits_append (getBits_append hhi hmid) hlo

theorem getBits_soField (hb : ∀ j < w.snBytes + 2, memRead m (a0 + j) = some (b j)) :
    getBits m a0 (8 * w.snBytes) 16 = some (soField b w).toNat := by
  have hhi : getBits m a0 (8 * w.snBytes) 8 = some (b w.snBytes).toNat :=
    getBits_aligned_byte (by omega) (by rw [Nat.mul_div_cancel_left _ (by decide)]; exact hb _ (by omega))
  have hlo : getBits m a0 (8 * w.snBytes + 8) 8 = some (b (w.snBytes + 1)).toNat :=
    getBits_aligned_byte (by omega) (by rw [show (8 * w.snBytes + 8) / 8 = w.snBytes + 1 by omega]; exact hb _ (by omega))
  exact getBits_append hhi hlo

end Fields

/-! ### `HDR_RD` -/

/-- Every byte of a consistent region is one of `BUF`. -/
theorem memRead_rgnByte {s : State} (hm : Memory.wf s.params.bufSize s.buf) (hr : RegionOK s) {j : Nat} (hj : j < rgnLen s) :
    memRead s.buf (s.rgnStart.toNat + j) = some (rgnByte s j) := by
  obtain ⟨hle, hend⟩ := hr
  obtain ⟨b, hb⟩ := memRead_of_lt hm (a := s.rgnStart.toNat + j) (by unfold rgnLen at hj; omega)
  rw [rgnByte, bufByte, hb]
  rfl

section Reader

variable {s : State} {w : SnWidth}

theorem execHdrRd_region (hw : s.snSize = w.code) (hr : ¬ RegionOK s) : execHdrRd s = .next (failed s .region) := by
  rw [execHdrRd, withWidth_supported hw, if_pos hr]
  rfl

theorem regionLen_eq_rgnLen (s : State) : s.regionLen = rgnLen s := rfl

theorem execHdrRd_empty (hw : s.snSize = w.code) (hr : RegionOK s) (hlen : rgnLen s = 0) :
    execHdrRd s = .next (failed s .truncated) := by
  rw [execHdrRd, withWidth_supported hw, if_neg (not_not_intro hr), regionLen_eq_rgnLen, if_pos (by omega)]
  rfl

/-- The commit of fields given as bit vectors. -/
theorem hdrRdCommit_toNat (s : State) (b0 : Byte) (sn : Word) (so : BitVec 16) (k : Nat) :
    hdrRdCommit s b0 sn.toNat so.toNat k = .next (finished { s with hdr :=
      { dc := b0.getLsbD 7, p := b0.getLsbD 6, si := b0.extractLsb' 4 2, sn := sn, so := so } } (BitVec.ofNat 32 k)) := by
  rw [hdrRdCommit, BitVec.ofNat_toNat, BitVec.setWidth_eq, BitVec.ofNat_toNat, BitVec.setWidth_eq]
  rfl

/-- A region with a first byte: the reserved bits are checked first, then the header must lie inside the region, and then it
is parsed (R144). -/
theorem execHdrRd_nonempty (hm : Memory.wf s.params.bufSize s.buf) (hw : s.snSize = w.code) (hr : RegionOK s)
    (hlen : 1 ≤ rgnLen s) :
    execHdrRd s = .next (
      if ReservedSet (rgnByte s) w then failed s .reserved
      else if rgnLen s < hdrLen (siField (rgnByte s)) w then failed s .truncated
      else finished { s with hdr := parsedHeader (rgnByte s) w } (BitVec.ofNat 32 (hdrLen (siField (rgnByte s)) w))) := by
  have hbyte {j : Nat} (hj : j < rgnLen s) := memRead_rgnByte hm hr hj
  have hfirst : memRead s.buf s.rgnStart.toNat = some (rgnByte s 0) := hbyte hlen
  rw [execHdrRd, withWidth_supported hw, if_neg (not_not_intro hr), regionLen_eq_rgnLen, if_neg (Nat.not_lt.2 hlen), hfirst,
    onBuf_some]
  by_cases hres : ReservedSet (rgnByte s) w
  · rw [if_pos hres, if_pos hres]
    rfl
  rw [if_neg hres, if_neg hres]
  by_cases hsn : rgnLen s < w.snBytes
  · rw [if_pos hsn, if_pos (hsn.trans_le (snBytes_le_hdrLen _ w))]
    rfl
  have hsnBits : s.regionBits w.hdrSnPos w.bits = some (snField (rgnByte s) w).toNat :=
    getBits_snField fun _ hj => hbyte (by omega)
  rw [if_neg hsn, hsnBits, onBuf_some]
  by_cases hsi : Segmented (siField (rgnByte s))
  · rw [hdrLen_segmented hsi, if_pos ((soPresent_iff _).2 hsi)]
    by_cases hso : rgnLen s < w.snBytes + 2
    · rw [if_pos hso, if_pos hso]
      rfl
    · have hsoBits : s.regionBits (8 * w.snBytes) 16 = some (soField (rgnByte s) w).toNat :=
        getBits_soField fun _ hj => hbyte (by omega)
      rw [if_neg hso, if_neg hso, hsoBits, onBuf_some, parsedHeader, if_pos hsi]
      exact hdrRdCommit_toNat _ _ _ _ _
  · rw [hdrLen_unsegmented hsi, if_neg (mt (soPresent_iff _).1 hsi), if_neg hsn, parsedHeader, if_neg hsi]
    exact hdrRdCommit_toNat s _ _ 0 _

theorem execHdrRd_reserved (hm : Memory.wf s.params.bufSize s.buf) (hw : s.snSize = w.code) (hr : RegionOK s)
    (hlen : 1 ≤ rgnLen s) (hres : ReservedSet (rgnByte s) w) : execHdrRd s = .next (failed s .reserved) := by
  rw [execHdrRd_nonempty hm hw hr hlen, if_pos hres]

/-- A region that is shorter than its header, with or without the SO. -/
theorem execHdrRd_truncated (hm : Memory.wf s.params.bufSize s.buf) (hw : s.snSize = w.code) (hr : RegionOK s)
    (hlen : 1 ≤ rgnLen s) (hres : ¬ ReservedSet (rgnByte s) w)
    (hshort : rgnLen s < hdrLen (siField (rgnByte s)) w) : execHdrRd s = .next (failed s .truncated) := by
  rw [execHdrRd_nonempty hm hw hr hlen, if_neg hres, if_pos hshort]

/-- A header that lies inside the region. -/
theorem execHdrRd_fits (hm : Memory.wf s.params.bufSize s.buf) (hw : s.snSize = w.code) (hr : RegionOK s)
    (hres : ¬ ReservedSet (rgnByte s) w) (hfit : hdrLen (siField (rgnByte s)) w ≤ rgnLen s) :
    execHdrRd s = .next (finished { s with hdr := parsedHeader (rgnByte s) w }
      (BitVec.ofNat 32 (hdrLen (siField (rgnByte s)) w))) := by
  have hfirst : 1 ≤ w.snBytes := by cases w <;> decide
  have hlen : 1 ≤ rgnLen s := hfirst.trans ((snBytes_le_hdrLen _ w).trans hfit)
  rw [execHdrRd_nonempty hm hw hr hlen, if_neg hres, if_neg (Nat.not_lt.2 hfit)]

end Reader

theorem parsedHeader_segmented {b : Nat → Byte} (h : Segmented (siField b)) (w : SnWidth) :
    parsedHeader b w = { parsedHeader b w with so := soField b w } := by
  rw [parsedHeader, if_pos h]

theorem parsedHeader_unsegmented {b : Nat → Byte} (h : ¬ Segmented (siField b)) (w : SnWidth) :
    parsedHeader b w = { parsedHeader b w with so := 0 } := by
  rw [parsedHeader, if_neg h]

section Formats

variable {s : State} {w : SnWidth} (hm : Memory.wf s.params.bufSize s.buf) (hw : s.snSize = w.code) (hr : RegionOK s)
  (hlen : 1 ≤ rgnLen s) (hres : ¬ ReservedSet (rgnByte s) w)

include hm hw hr hlen hres

/-- What R144 does past the reserved bits, by the region's length and SI. -/
theorem execHdrRd_formats :
    (rgnLen s < w.snBytes → execHdrRd s = .next (failed s .truncated)) ∧
    (w.snBytes ≤ rgnLen s → ¬ Segmented (siField (rgnByte s)) →
      execHdrRd s = .next (finished { s with hdr := { parsedHeader (rgnByte s) w with so := 0 } }
        (BitVec.ofNat 32 w.snBytes))) ∧
    (w.snBytes ≤ rgnLen s → rgnLen s < w.snBytes + 2 → Segmented (siField (rgnByte s)) →
      execHdrRd s = .next (failed s .truncated)) ∧
    (w.snBytes + 2 ≤ rgnLen s → Segmented (siField (rgnByte s)) →
      execHdrRd s = .next (finished { s with hdr := { parsedHeader (rgnByte s) w with so := soField (rgnByte s) w } }
        (BitVec.ofNat 32 (w.snBytes + 2)))) := by
  refine ⟨fun hshort => ?_, fun hfit hsi => ?_, fun _ hshort hsi => ?_, fun hfit hsi => ?_⟩
  · exact execHdrRd_truncated hm hw hr hlen hres (hshort.trans_le (snBytes_le_hdrLen _ w))
  · rw [← hdrLen_unsegmented hsi w] at hfit ⊢
    rw [← parsedHeader_unsegmented hsi]
    exact execHdrRd_fits hm hw hr hres hfit
  · rw [← hdrLen_segmented hsi w] at hshort
    exact execHdrRd_truncated hm hw hr hlen hres hshort
  · rw [← hdrLen_segmented hsi w] at hfit ⊢
    rw [← parsedHeader_segmented hsi]
    exact execHdrRd_fits hm hw hr hres hfit

end Formats

/-- Settles O25: the checks in their order, then the two formats. -/
theorem hdrRdParsesTheHeader : Obligations.HdrRdParsesTheHeader := by
  refine ⟨hasWord_encode rfl, fun s ⟨_, hm, _⟩ =>
    ⟨fun h => withWidth_unsupported h _, fun h hr => ?_, fun h hr hlen => ?_, fun hw hr hlen => ?_,
      fun hw hr hlen => ⟨fun hres => ?_, fun hres => ?_⟩⟩⟩
  · obtain ⟨w, hw⟩ := exists_width_of_supported h
    exact execHdrRd_region hw hr
  · obtain ⟨w, hw⟩ := exists_width_of_supported h
    exact execHdrRd_empty hw hr hlen
  · exact execHdrRd_formats (w := .w12) hm hw hr hlen fun h => nomatch h.1
  · exact execHdrRd_reserved (w := .w18) hm hw hr hlen ⟨rfl, hres⟩
  · exact execHdrRd_formats (w := .w18) hm hw hr hlen fun h => h.2 hres

/-! ### The reader undoes the writer (R147) -/

/-- A valid header for a width (R147). -/
structure ValidHeader (h : HeaderRegs) (w : SnWidth) : Prop where
  dc : h.dc = true
  sn_lt : h.sn.toNat < 2 ^ w.bits
  so_eq_zero : ¬ Segmented h.si → h.so = 0

/-- The image of a header whose SO is emitted exactly when SI calls for it. -/
def wireHeader (h : HeaderRegs) (w : SnWidth) : List Byte := hdrBase h w ++ (if Segmented h.si then be16 h.so else [])

theorem hdrImage_eq_wireHeader {s : State} (hso : emitSo s = soPresent s.hdr.si) (w : SnWidth) :
    hdrImage s w = wireHeader s.hdr w := by
  simp only [hdrImage, wireHeader, hso, soPresent_iff]

/-- `EmitSO` goes by SI in the default mode, and in legacy mode when the SO is nonzero exactly when SI calls for one
(R147). -/
theorem emitSo_eq_soPresent {s : State} (hzero : ¬ Segmented s.hdr.si → s.hdr.so = 0)
    (hlegacy : s.soLegacy = true → Segmented s.hdr.si → s.hdr.so ≠ 0) : emitSo s = soPresent s.hdr.si := by
  cases hmode : s.soLegacy with
  | false => exact emitSo_default hmode
  | true =>
    rw [Bool.eq_iff_iff, soPresent_iff, emitSo, hmode, if_pos rfl, decide_eq_true_iff]
    exact ⟨fun hne => Decidable.not_not.1 (mt hzero hne), hlegacy hmode⟩

/-- `b` starts with `bytes`. -/
def StartsWith (b : Nat → Byte) (bytes : List Byte) : Prop := ∀ j x, bytes[j]? = some x → b j = x

theorem extractLsb'_one {n : Nat} (x : BitVec n) (i : Nat) : x.extractLsb' i 1 = BitVec.ofBool (x.getLsbD i) := by
  ext j hj
  simp [show j = 0 by omega]

/-- The fields of byte 0, from bit 7 down (R88). -/
theorem firstByte_fields {b : Byte} {dc p : Bool} {si : BitVec 2} {lo : BitVec 4}
    (h : b = BitVec.ofBool dc ++ BitVec.ofBool p ++ si ++ lo) :
    b.getLsbD 7 = dc ∧ b.getLsbD 6 = p ∧ b.extractLsb' 4 2 = si ∧ b.extractLsb' 0 4 = lo := by
  have hsplit := extractLsb'_eq_append_iff b 0 (BitVec.ofBool dc ++ BitVec.ofBool p ++ si) lo
  rw [BitVec.extractLsb'_eq_self, extractLsb'_eq_append_iff, extractLsb'_eq_append_iff, extractLsb'_one, extractLsb'_one,
    BitVec.ofBool_eq_iff_eq, BitVec.ofBool_eq_iff_eq] at hsplit
  obtain ⟨⟨⟨hdc, hp⟩, hsi⟩, hlo⟩ := hsplit.1 h
  exact ⟨hdc, hp, hsi, hlo⟩

theorem extractLsb'_eq_zero_of_lt {size k : Nat} {x : BitVec size} (h : x.toNat < 2 ^ k) (n : Nat) :
    x.extractLsb' k n = 0#n := by
  rw [← BitVec.toNat_inj, BitVec.extractLsb'_toNat, Nat.shiftRight_eq_div_pow, Nat.div_eq_of_lt h, Nat.zero_mod,
    BitVec.toNat_ofNat, Nat.zero_mod]

/-- An SN below `2^12` is its two parts on the wire (R88). -/
theorem sn12_eq_append {sn : Word} (h : sn.toNat < 2 ^ 12) : sn = 0#20 ++ sn.extractLsb' 8 4 ++ sn.extractLsb' 0 8 := by
  have hsplit := extractLsb'_eq_append_iff sn 0 (0#20 ++ sn.extractLsb' 8 4) (sn.extractLsb' 0 8)
  rw [BitVec.extractLsb'_eq_self, extractLsb'_eq_append_iff] at hsplit
  exact hsplit.2 ⟨⟨extractLsb'_eq_zero_of_lt h 20, rfl⟩, rfl⟩

/-- An SN below `2^18` is its three parts on the wire (R89). -/
theorem sn18_eq_append {sn : Word} (h : sn.toNat < 2 ^ 18) :
    sn = 0#14 ++ sn.extractLsb' 16 2 ++ sn.extractLsb' 8 8 ++ sn.extractLsb' 0 8 := by
  have hsplit := extractLsb'_eq_append_iff sn 0 (0#14 ++ sn.extractLsb' 16 2 ++ sn.extractLsb' 8 8) (sn.extractLsb' 0 8)
  rw [BitVec.extractLsb'_eq_self, extractLsb'_eq_append_iff, extractLsb'_eq_append_iff] at hsplit
  exact hsplit.2 ⟨⟨⟨extractLsb'_eq_zero_of_lt h 14, rfl⟩, rfl⟩, rfl⟩

section Codec

variable {b : Nat → Byte} {h : HeaderRegs} {w : SnWidth}

/-- The low four bits of byte 0 in the image: SN bits, and in the 18-bit format the reserved bits before them. -/
def firstByteLow (h : HeaderRegs) : SnWidth → BitVec 4
  | .w12 => h.sn.extractLsb' 8 4
  | .w18 => 0#2 ++ h.sn.extractLsb' 16 2

/-- Byte 0 of the image, by its fields. -/
theorem firstByte_wireHeader (hb : StartsWith b (wireHeader h w)) :
    b 0 = BitVec.ofBool true ++ BitVec.ofBool h.p ++ h.si ++ firstByteLow h w := by
  cases w with
  | w12 => exact hb 0 _ rfl
  | w18 => rw [hb 0 _ rfl]; exact BitVec.append_assoc

/-- The 18-bit image has its reserved bits 0. -/
theorem not_reservedSet_wireHeader (hb : StartsWith b (wireHeader h w)) : ¬ ReservedSet b w := by
  rintro ⟨rfl, hne⟩
  obtain ⟨-, -, -, hlow⟩ := firstByte_fields (firstByte_wireHeader hb)
  exact hne ((extractLsb'_eq_append_iff (b 0) 0 0#2 (h.sn.extractLsb' 16 2)).1 hlow).1

theorem snField_wireHeader (hb : StartsWith b (wireHeader h w)) (hsn : h.sn.toNat < 2 ^ w.bits) : snField b w = h.sn := by
  obtain ⟨-, -, -, hlow⟩ := firstByte_fields (firstByte_wireHeader hb)
  cases w with
  | w12 =>
    rw [snField, hlow, hb 1 _ rfl]
    exact (sn12_eq_append hsn).symm
  | w18 =>
    have hhi := ((extractLsb'_eq_append_iff (b 0) 0 0#2 (h.sn.extractLsb' 16 2)).1 hlow).2
    rw [snField, hhi, hb 1 _ rfl, hb 2 _ rfl]
    exact (sn18_eq_append hsn).symm

theorem soField_wireHeader (hb : StartsWith b (wireHeader h w)) (hsi : Segmented h.si) : soField b w = h.so := by
  rw [wireHeader, if_pos hsi] at hb
  have hso {j : Nat} {x : Byte} (hx : (be16 h.so)[j]? = some x) : b (w.snBytes + j) = x := by
    refine hb _ _ ?_
    rw [List.getElem?_append_right (by rw [hdrBase_length]; omega), hdrBase_length, Nat.add_sub_cancel_left, hx]
  rw [soField, hso (j := 1) rfl, ← Nat.add_zero w.snBytes, hso (j := 0) rfl]
  exact BitVec.extractLsb'_append_extractLsb'

/-- Reading the image of a valid header gives the header back. -/
theorem parsedHeader_wireHeader (hb : StartsWith b (wireHeader h w)) (hv : ValidHeader h w) : parsedHeader b w = h := by
  obtain ⟨hdc, hp, hsi, -⟩ := firstByte_fields (firstByte_wireHeader hb)
  have hso : (if Segmented h.si then soField b w else 0) = h.so := by
    split
    · next hseg => exact soField_wireHeader hb hseg
    · next hseg => exact (hv.so_eq_zero hseg).symm
  rw [parsedHeader, hdc, hp, siField, hsi, snField_wireHeader hb hv.sn_lt, hso, ← hv.dc]

end Codec

/-- `HDR_RD` of a region at whose start the image of a valid header was written. -/
theorem execHdrRd_wireHeader {u : State} {h : HeaderRegs} {w : SnWidth} {m : List Host.Cell} {a : Nat}
    (hm : Memory.wf u.params.bufSize m) (hwrite : writeBytes m a (wireHeader h w) = some u.buf) (hv : ValidHeader h w)
    (hw : u.snSize = w.code) (hstart : u.rgnStart.toNat = a) (hfit : a + hdrLen h.si w ≤ u.rgnEnd.toNat)
    (hend : u.rgnEnd.toNat ≤ u.params.bufSize) :
    execHdrRd u = .next (finished { u with hdr := h } (BitVec.ofNat 32 (hdrLen h.si w))) := by
  have hr : RegionOK u := ⟨by omega, hend⟩
  have hlen : hdrLen h.si w ≤ rgnLen u := by unfold rgnLen; omega
  have hb : StartsWith (rgnByte u) (wireHeader h w) := fun j x hx => by
    rw [rgnByte, bufByte, hstart, memRead_writeBytes hwrite hx]
    rfl
  have hparsed := parsedHeader_wireHeader hb hv
  have hsi : siField (rgnByte u) = h.si := congrArg HeaderRegs.si hparsed
  rw [execHdrRd_fits (writeBytes_keeps_wf hm hwrite) hw hr (not_reservedSet_wireHeader hb) (hsi.symm ▸ hlen), hparsed, hsi]

/-- Settles O28: either writer leaves the header's image at the start of the region that is read back. -/
theorem headerRoundTrip : Obligations.HeaderRoundTrip := by
  intro s ⟨_, hm, _⟩ hdc hsn hzero hlegacy
  obtain ⟨w, hw, hv⟩ : ∃ w : SnWidth, s.snSize = w.code ∧ ValidHeader s.hdr w :=
    hsn.elim (fun ⟨hw, hlt⟩ => ⟨.w12, hw, hdc, hlt, hzero⟩) fun ⟨hw, hlt⟩ => ⟨.w18, hw, hdc, hlt, hzero⟩
  have hso := emitSo_eq_soPresent hzero hlegacy
  have hlength := hdrImage_length hso w
  rw [headerLen_eq hw]
  refine ⟨fun hfit => ?_, fun hr hlen => ?_⟩
  · obtain ⟨m, hwrite, hexec⟩ := execHdrWr_fits hm hw (hlength.symm ▸ hfit)
    rw [hdrImage_eq_wireHeader hso] at hwrite
    exact ⟨_, hexec, fun h e hle hend => ⟨_, execHdrRd_wireHeader hm hwrite hv hw rfl hle hend, rfl, rfl, rfl⟩⟩
  · obtain ⟨hle, hbound⟩ := hr
    obtain ⟨m, hwrite, hexec⟩ := execHdrWrp_fits hm hw ⟨hle, hbound⟩ hlen (by omega)
    rw [hdrImage_eq_wireHeader hso] at hwrite
    have hstart : (BitVec.ofNat 32 (s.rgnStart.toNat - hdrLen s.hdr.si w)).toNat = s.rgnStart.toNat - hdrLen s.hdr.si w :=
      (BitVec.toNat_ofNat _ _).trans (Nat.mod_eq_of_lt ((Nat.sub_le _ _).trans_lt s.rgnStart.isLt))
    exact ⟨_, hexec, fun h e hle hend =>
      ⟨_, execHdrRd_wireHeader hm hwrite hv hw hstart ((Nat.sub_add_cancel hlen).le.trans hle) hend, rfl, rfl, rfl⟩⟩

end Sys2Proof.Machine
end

section
/-! PROOFS. The Status-PDU container (42_status_container.md, R170-R176). The bounds on the packed size come first: they are
what keeps the 32-bit addition of `STS_PUSH` from wrapping. -/

open Sys2Proof.Claims

namespace Sys2Proof.Machine

/-! ### The packed size -/

theorem contrib_le (w : SnWidth) (r : NackRec) : contrib w r ≤ w.nackBytes + 5 := by
  have hso : (if r.hasSo then 4 else 0) ≤ 4 := by split <;> decide
  have hrange : (if r.hasRange then 1 else 0) ≤ 1 := by split <;> decide
  unfold contrib
  omega

theorem Container.Inv.psize_bounds {n : Nat} {c : Container} (hc : c.Inv n) :
    3 ≤ c.psize.toNat ∧ c.psize.toNat ≤ 3 + 8 * n := by
  obtain ⟨hlen, hsize, -, -⟩ := hc
  have hlow : 3 ≤ packedSize c.width c.nacks := packedSize_eq_sum _ _ ▸ Nat.le_add_right 3 _
  have hhigh := packedSize_le c.width c.nacks
  omega

theorem State.Inv.nackMax_le {s : State} (hs : s.Inv) : s.params.nackMax ≤ 3840 := by
  obtain ⟨⟨-, -, -, hmax, -⟩, -⟩ := hs
  exact hmax

theorem State.Inv.container {s : State} (hs : s.Inv) : s.ctr.Inv s.params.nackMax := by
  obtain ⟨-, -, hc, -⟩ := hs
  exact hc

/-- Settles O33: the invariant bounds the size by the record count, and `contrib_le` bounds each record. -/
theorem packedSizeBound : Obligations.PackedSizeBound := by
  refine ⟨fun s hs => ?_, fun r => ⟨contrib_le .w12 r, contrib_le .w18 r⟩⟩
  obtain ⟨hlow, hhigh⟩ := hs.container.psize_bounds
  have hmax := hs.nackMax_le
  exact ⟨hlow, hhigh, by omega⟩

/-! ### `STS_INIT` and `STS_RST` -/

/-- `STS_INIT` checks `CFG.SN_SIZE` as the header commands do (R140, R172). -/
theorem execStsInit_eq_withWidth (s : State) :
    execStsInit s = withWidth s fun w => finish 0 (s.withCtr (Container.fresh w)) := rfl

theorem execStsInit_supported {s : State} {w : SnWidth} (h : s.snSize = w.code) :
    execStsInit s = .next (finished { s with ctr := Container.fresh w } 0) := by
  rw [execStsInit_eq_withWidth, withWidth_supported h]
  rfl

theorem execStsInit_unsupported {s : State} (h : Unsupported s) : execStsInit s = .next (failed s .snWidth) := by
  rw [execStsInit_eq_withWidth, withWidth_unsupported h]

/-- Settles O29, by the value of `CFG.SN_SIZE`. -/
theorem stsInitConstructs : Obligations.StsInitConstructs :=
  ⟨hasWord_encode rfl, fun _ =>
    ⟨execStsInit_supported (w := .w12), execStsInit_supported (w := .w18), execStsInit_unsupported⟩⟩

/-- Settles O30: every field of the container but its width is that of a fresh one. -/
theorem stsRstEmptiesTheContainer : Obligations.StsRstEmptiesTheContainer :=
  ⟨hasWord_encode rfl, fun _ => rfl⟩

/-! ### `STS_PUSH` -/

theorem append_full {s : State} (h : s.ctr.nacks.length = s.params.nackMax) (r : NackRec) : append s r = none := if_pos h

/-- The append of the model is the append of the statements. -/
theorem append_room {s : State} (h : s.ctr.nacks.length ≠ s.params.nackMax) (r : NackRec) :
    append s r = some (appended s r) := by
  rw [append, if_neg h, appended, contribution_eq_contrib]
  rfl

theorem execStsPush_full {s : State} (h : s.ctr.nacks.length = s.params.nackMax) :
    execStsPush s = .next (failed s .nackFull) := by
  rw [execStsPush, append_full h]
  rfl

theorem execStsPush_room {s : State} (h : s.ctr.nacks.length ≠ s.params.nackMax) :
    execStsPush s = .next
      (finished (appended s (stagedRecord s)) (appended s (stagedRecord s)).ctr.psize) := by
  rw [execStsPush, append_room h]
  rfl

/-- The addition of R171 does not wrap: the old size is at most 30723 and a record adds at most 8 (R176). -/
theorem appended_psize_toNat {s : State} (hs : s.Inv) (r : NackRec) :
    (appended s r).ctr.psize.toNat = s.ctr.psize.toNat + contribution s.ctr.width r := by
  obtain ⟨-, hhigh⟩ := hs.container.psize_bounds
  have hmax := hs.nackMax_le
  obtain ⟨-, hadd⟩ := contrib_bounds s.ctr.width r
  rw [← contribution_eq_contrib] at hadd
  simp only [appended, BitVec.toNat_add, BitVec.toNat_ofNat]
  omega

/-- Settles O31, by whether the table has room; the statement's record is `stagedRecord`. -/
theorem stsPushAppends : Obligations.StsPushAppends :=
  ⟨hasWord_encode rfl, fun s =>
    ⟨execStsPush_full, fun hs hroom => ⟨execStsPush_room hroom.ne, appended_psize_toNat hs (stagedRecord s)⟩⟩⟩

/-! ### `STS_REFRESH` -/

theorem execStsRefresh_of_size {s : State} {size : Word}
    (h : BitVec.ofNat 32 (packedSize s.ctr.width s.ctr.nacks) = size) :
    execStsRefresh s = .next (finished { s with ctr := { s.ctr with psize := size } } size) := by
  subst h
  rfl

/-- Settles O32: the recomputed size is by the invariant the cached one, so writing it back leaves the container alone. -/
theorem stsRefreshRecomputes : Obligations.StsRefreshRecomputes := by
  refine ⟨hasWord_encode rfl, fun s => ⟨execStsRefresh_of_size (by rw [packedSize_eq_sum]), fun hs => ?_⟩⟩
  obtain ⟨-, hsize, -, -⟩ := hs.container
  have hcached : BitVec.ofNat 32 (packedSize s.ctr.width s.ctr.nacks) = s.ctr.psize := by
    rw [← hsize, BitVec.ofNat_toNat, BitVec.setWidth_eq]
  exact ⟨execStsRefresh_of_size hcached, hsize.trans (packedSize_eq_sum _ _)⟩

end Sys2Proof.Machine
end

section
/-! PROOFS. `STS_DEC` in the region's bytes (R190-R195): the fixed part, one turn of the NACK loop, and what a failure keeps.
Each field is read once, as bits of the bytes it stands in; the two widths differ only in where their last byte is cut. -/

open Sys2Proof.Claims

namespace Sys2Proof.Machine

/-! ### Fields of the region -/

theorem State.Inv.buf_wf {s : State} (hs : s.Inv) : Memory.wf s.params.bufSize s.buf := by
  obtain ⟨-, hm, -⟩ := hs
  exact hm

section Region

variable {s : State} (hm : Memory.wf s.params.bufSize s.buf) (hr : RegionOK s)

include hm hr

/-- A field inside byte `k` of the region, `j` bits from its top. -/
theorem regionBits_within_byte {k j n : Nat} (hk : k < rgnLen s) (hj : j < 8) (hn : j + n ≤ 8) :
    s.regionBits (8 * k + j) n = some ((rgnByte s k).extractLsb' (8 - (j + n)) n).toNat := by
  have hbyte : (8 * k + j) / 8 = k := by omega
  have hbit : (8 * k + j) % 8 = j := by omega
  have hread : memRead s.buf (s.rgnStart.toNat + (8 * k + j) / 8) = some (rgnByte s k) := by
    rw [hbyte]
    exact memRead_rgnByte hm hr hk
  have hfield := getBits_within_byte (n := n) (by omega) hread
  rwa [hbit] at hfield

theorem regionBits_byte {k : Nat} (hk : k < rgnLen s) : s.regionBits (8 * k) 8 = some (rgnByte s k).toNat := by
  have hread := regionBits_within_byte hm hr (j := 0) (n := 8) hk (by decide) (by decide)
  rwa [BitVec.extractLsb'_eq_self] at hread

/-- A 16-bit field of two whole bytes, most significant first (R64, R96). -/
theorem regionBits_two_bytes {k : Nat} (hk : k + 1 < rgnLen s) :
    s.regionBits (8 * k) 16 = some (rgnByte s k ++ rgnByte s (k + 1)).toNat :=
  getBits_append (regionBits_byte hm hr (Nat.lt_of_succ_lt hk)) (regionBits_byte hm hr hk)

end Region

theorem toNat_zero_append_two {k m n : Nat} (hi : BitVec m) (lo : BitVec n) : (0#k ++ hi ++ lo).toNat = (hi ++ lo).toNat := by
  rw [toNat_append_eq_add, toNat_append_eq_add hi, toNat_zero_append]

theorem toNat_zero_append_three {k l m n : Nat} (hi : BitVec l) (mid : BitVec m) (lo : BitVec n) :
    (0#k ++ hi ++ mid ++ lo).toNat = (hi ++ mid ++ lo).toNat := by
  rw [toNat_append_eq_add, toNat_append_eq_add _ lo, toNat_zero_append_two]

theorem ofNat_toNat_self {n : Nat} (x : BitVec n) : BitVec.ofNat n x.toNat = x := by
  rw [BitVec.ofNat_toNat, BitVec.setWidth_eq]

theorem toNat_extractLsb'_one_eq_one {n : Nat} (x : BitVec n) (i : Nat) :
    (x.extractLsb' i 1).toNat = 1 ↔ x.getLsbD i = true := by
  rw [extractLsb'_one, BitVec.toNat_ofBool]
  exact Bool.toNat_eq_one

theorem toNat_ne_zero_iff {n : Nat} (x : BitVec n) : x.toNat ≠ 0 ↔ x ≠ 0 := not_congr (BitVec.toNat_inj (y := 0))

/-! ### The fixed part (R191) -/

/-- CPT: byte 0 [6:4]. -/
abbrev cptField (b : Nat → Byte) : BitVec 3 := (b 0).extractLsb' 4 3

/-- ACK_SN of a Status PDU. -/
def ackField (b : Nat → Byte) : SnWidth → Word
  | .w12 => 0#20 ++ (b 0).extractLsb' 0 4 ++ b 1
  | .w18 => 0#14 ++ (b 0).extractLsb' 0 4 ++ b 1 ++ (b 2).extractLsb' 2 6

/-- How many bits of byte 2 stand after E1, all reserved. -/
def SnWidth.afterE1 : SnWidth → Nat
  | .w12 => 7
  | .w18 => 1

/-- E1. -/
abbrev firstE1 (b : Nat → Byte) (w : SnWidth) : Bool := (b 2).getLsbD w.afterE1

/-- The reserved bits after E1. -/
abbrev fixedReserved (b : Nat → Byte) (w : SnWidth) : BitVec w.afterE1 := (b 2).extractLsb' 0 w.afterE1

/-- CPT committed (R191). -/
def cptRead (s : State) : State := { s with ctr := { s.ctr with cpt := cptField (rgnByte s) } }

/-- CPT and an ACK_SN committed (R191). -/
def ackRead (s : State) (ack : Word) : State := { s with ctr := { s.ctr with cpt := 0, ackSn := ack } }

theorem execStsDec_region {s : State} (hr : ¬ RegionOK s) : execStsDec s = .next (failed s .region) := if_pos hr

theorem execStsDec_empty {s : State} (hr : RegionOK s) (hlen : rgnLen s = 0) :
    execStsDec s = .next (failed (markFailed s) .truncated) := by
  have hshort : s.regionLen < 1 := by rw [regionLen_eq_rgnLen, hlen]; decide
  unfold execStsDec
  dsimp only
  rw [if_neg (not_not_intro hr), if_pos hshort]
  rfl

section Fixed

variable {s : State} (hm : Memory.wf s.params.bufSize s.buf) (hr : RegionOK s)

include hm hr

theorem regionBits_ackField (hlen : s.ctr.width.ackBytes ≤ rgnLen s) :
    s.regionBits 4 s.ctr.width.bits = some (ackField (rgnByte s) s.ctr.width).toNat := by
  generalize s.ctr.width = w at hlen ⊢
  have hfirst : 0 < rgnLen s := by cases w <;> exact Nat.lt_of_lt_of_le (by decide) hlen
  have htop := regionBits_within_byte hm hr (j := 4) (n := 4) hfirst (by decide) (by decide)
  cases w with
  | w12 =>
    have hlow := regionBits_byte hm hr (k := 1) hlen
    rw [ackField, toNat_zero_append_two]
    exact getBits_append htop hlow
  | w18 =>
    have hmid := regionBits_byte hm hr (k := 1) (Nat.lt_of_succ_lt hlen)
    have hlow := regionBits_within_byte hm hr (k := 2) (j := 0) (n := 6) hlen (by decide) (by decide)
    rw [ackField, toNat_zero_append_three]
    exact getBits_append (getBits_append htop hmid) hlow

theorem regionBits_firstE1 (hlen : 3 ≤ rgnLen s) (w : SnWidth) :
    s.regionBits (4 + w.bits) 1 = some ((rgnByte s 2).extractLsb' w.afterE1 1).toNat := by
  cases w with
  | w12 => exact regionBits_within_byte hm hr (k := 2) (j := 0) hlen (by decide) (by decide)
  | w18 => exact regionBits_within_byte hm hr (k := 2) (j := 6) hlen (by decide) (by decide)

theorem regionBits_fixedReserved (hlen : 3 ≤ rgnLen s) (w : SnWidth) :
    s.regionBits (5 + w.bits) (19 - w.bits) = some (fixedReserved (rgnByte s) w).toNat := by
  cases w with
  | w12 => exact regionBits_within_byte hm hr (k := 2) (j := 1) hlen (by decide) (by decide)
  | w18 => exact regionBits_within_byte hm hr (k := 2) (j := 7) hlen (by decide) (by decide)

/-- The fixed part of a region with a first byte: each field is committed before the next check (R191). -/
theorem execStsDec_nonempty (hlen : 1 ≤ rgnLen s) :
    execStsDec s =
      if cptField (rgnByte s) ≠ 0 then .next (failed (markFailed (cptRead s)) .cpt)
      else if rgnLen s < s.ctr.width.ackBytes then .next (failed (markFailed (cptRead s)) .truncated)
      else if rgnLen s < 3 then
        .next (failed (markFailed (ackRead s (ackField (rgnByte s) s.ctr.width))) .truncated)
      else if fixedReserved (rgnByte s) s.ctr.width ≠ 0 then
        .next (failed (markFailed (ackRead s (ackField (rgnByte s) s.ctr.width))) .reserved)
      else if firstE1 (rgnByte s) s.ctr.width then
        decLoop (rgnLen s) 3 (ackRead s (ackField (rgnByte s) s.ctr.width))
      else .next (finished (ackRead s (ackField (rgnByte s) s.ctr.width)) 3) := by
  have hcptBits : s.regionBits 1 3 = some (cptField (rgnByte s)).toNat :=
    regionBits_within_byte hm hr (k := 0) (j := 1) hlen (by decide) (by decide)
  unfold execStsDec
  dsimp only
  rw [if_neg (not_not_intro hr), regionLen_eq_rgnLen, if_neg (Nat.not_lt.2 hlen), hcptBits, onBuf_some, ofNat_toNat_self]
  refine if_ctx_congr (toNat_ne_zero_iff _) (fun _ => rfl) fun hcpt => ?_
  rw [Decidable.not_not.1 hcpt]
  refine if_ctx_congr Iff.rfl (fun _ => ?_) fun hack => ?_
  · rw [cptRead, Decidable.not_not.1 hcpt]
    rfl
  rw [regionBits_ackField hm hr (Nat.not_lt.1 hack), onBuf_some, ofNat_toNat_self]
  refine if_ctx_congr Iff.rfl (fun _ => rfl) fun hthree => ?_
  have hthree := Nat.not_lt.1 hthree
  rw [regionBits_firstE1 hm hr hthree, onBuf_some, regionBits_fixedReserved hm hr hthree, onBuf_some]
  refine if_ctx_congr (toNat_ne_zero_iff _) (fun _ => rfl) fun _ => ?_
  exact if_ctx_congr (toNat_extractLsb'_one_eq_one _ _) (fun _ => rfl) fun _ => rfl

variable (hcpt : cptField (rgnByte s) = 0)

include hcpt

theorem execStsDec_ack_truncated (hlen : 1 ≤ rgnLen s) (hack : rgnLen s < s.ctr.width.ackBytes) :
    execStsDec s = .next (failed (markFailed (cptRead s)) .truncated) := by
  rw [execStsDec_nonempty hm hr hlen, if_neg (not_not_intro hcpt), if_pos hack]

theorem execStsDec_e1_truncated (hlen : 1 ≤ rgnLen s) (hack : s.ctr.width.ackBytes ≤ rgnLen s) (hthree : rgnLen s < 3) :
    execStsDec s = .next (failed (markFailed (ackRead s (ackField (rgnByte s) s.ctr.width))) .truncated) := by
  rw [execStsDec_nonempty hm hr hlen, if_neg (not_not_intro hcpt), if_neg (Nat.not_lt.2 hack), if_pos hthree]

variable (hlen : 3 ≤ rgnLen s)

include hlen

/-- A region with CPT 0 and all three bytes of the fixed part: the reserved bits are checked, then E1 decides (R191). -/
theorem execStsDec_of_three :
    execStsDec s =
      if fixedReserved (rgnByte s) s.ctr.width ≠ 0 then
        .next (failed (markFailed (ackRead s (ackField (rgnByte s) s.ctr.width))) .reserved)
      else if firstE1 (rgnByte s) s.ctr.width then
        decLoop (rgnLen s) 3 (ackRead s (ackField (rgnByte s) s.ctr.width))
      else .next (finished (ackRead s (ackField (rgnByte s) s.ctr.width)) 3) := by
  have hack : s.ctr.width.ackBytes ≤ 3 := by cases s.ctr.width <;> decide
  rw [execStsDec_nonempty hm hr (Nat.le_of_add_left_le hlen), if_neg (not_not_intro hcpt),
    if_neg (Nat.not_lt.2 (hack.trans hlen)), if_neg (Nat.not_lt.2 hlen)]

theorem execStsDec_reserved (hres : fixedReserved (rgnByte s) s.ctr.width ≠ 0) :
    execStsDec s = .next (failed (markFailed (ackRead s (ackField (rgnByte s) s.ctr.width))) .reserved) :=
  (execStsDec_of_three hm hr hcpt hlen).trans (if_pos hres)

theorem execStsDec_of_not_e1 (hres : fixedReserved (rgnByte s) s.ctr.width = 0)
    (he1 : firstE1 (rgnByte s) s.ctr.width = false) :
    execStsDec s = .next (finished (ackRead s (ackField (rgnByte s) s.ctr.width)) 3) := by
  rw [execStsDec_of_three hm hr hcpt hlen, if_neg (not_not_intro hres), he1, if_neg Bool.false_ne_true]

theorem execStsDec_of_e1 (hres : fixedReserved (rgnByte s) s.ctr.width = 0)
    (he1 : firstE1 (rgnByte s) s.ctr.width = true) :
    execStsDec s = decLoop (rgnLen s) 3 (ackRead s (ackField (rgnByte s) s.ctr.width)) := by
  rw [execStsDec_of_three hm hr hcpt hlen, if_neg (not_not_intro hres), if_pos he1]

end Fixed

/-- The lowest two bits of a byte, one by one. -/
theorem lowBits_eq {b : Byte} {hi lo : Bool} (h : b.extractLsb' 0 2 = BitVec.ofBool hi ++ BitVec.ofBool lo) :
    b.getLsbD 1 = hi ∧ b.extractLsb' 0 1 = BitVec.ofBool lo := by
  obtain ⟨hhi, hlo⟩ := (extractLsb'_eq_append_iff b 0 (BitVec.ofBool hi) (BitVec.ofBool lo)).1 h
  rw [extractLsb'_one, BitVec.ofBool_eq_iff_eq] at hhi
  exact ⟨hhi, hlo⟩

/-- Settles O36, by the checks in their order; what the statement says of byte 2 gives E1 and the reserved bits. -/
theorem stsDecFixedPart : Obligations.StsDecFixedPart := by
  intro s hs
  have hm := hs.buf_wf
  refine ⟨execStsDec_region, execStsDec_empty, fun hr hlen hcpt => ?_,
    fun hr hlen hcpt hw => ⟨fun h => ?_, fun h => ?_, fun h hres => ?_, fun h hb => ?_, fun h hb => ?_⟩,
    fun hr hlen hcpt hw => ⟨fun h => ?_, fun h hres => ?_, fun h hb => ?_, fun h hb => ?_⟩⟩
  · exact (execStsDec_nonempty hm hr hlen).trans (if_pos hcpt)
  · have hexec := execStsDec_ack_truncated hm hr hcpt hlen
    rw [hw] at hexec
    exact hexec h
  · have hexec := execStsDec_e1_truncated hm hr hcpt hlen
    rw [hw] at hexec
    exact hexec h.ge (h.trans_lt (by decide))
  · have hexec := execStsDec_reserved hm hr hcpt h
    rw [hw] at hexec
    exact hexec hres
  · have hexec := execStsDec_of_not_e1 hm hr hcpt h
    rw [hw, firstE1, fixedReserved, hb] at hexec
    exact hexec rfl rfl
  · have hexec := execStsDec_of_e1 hm hr hcpt h
    rw [hw, firstE1, fixedReserved, hb] at hexec
    exact hexec rfl rfl
  · have hexec := execStsDec_ack_truncated hm hr hcpt hlen
    rw [hw] at hexec
    exact hexec h
  · have hexec := execStsDec_reserved hm hr hcpt h
    rw [hw, fixedReserved, SnWidth.afterE1, extractLsb'_one, hres] at hexec
    exact hexec (by decide)
  · obtain ⟨he1, hres⟩ := lowBits_eq (hi := false) (lo := false) hb
    have hexec := execStsDec_of_not_e1 hm hr hcpt h
    rw [hw] at hexec
    exact hexec hres he1
  · obtain ⟨he1, hres⟩ := lowBits_eq (hi := true) (lo := false) hb
    have hexec := execStsDec_of_e1 hm hr hcpt h
    rw [hw] at hexec
    exact hexec hres he1

/-! ### One turn of the NACK loop (R192) -/

/-- The last byte of a NACK's mandatory part at byte `q`: the SN's low bits, E1', E2, E3 and the reserved bits. -/
abbrev trailerAt (b : Nat → Byte) (w : SnWidth) (q : Nat) : Byte := b (q + w.nackBytes - 1)

/-- How many reserved bits the trailer has beside the one that both widths have. -/
def trailerLow (w : SnWidth) : Nat := if w = .w12 then 0 else 2

/-- A reserved bit of the element is set. -/
abbrev ReservedAt (b : Nat → Byte) (w : SnWidth) (q : Nat) : Prop :=
  if w = .w12 then (trailerAt b w q).extractLsb' 0 1 ≠ 0 else (trailerAt b w q).extractLsb' 0 3 ≠ 0

/-- E1'. -/
def moreAt (b : Nat → Byte) (w : SnWidth) (q : Nat) : Bool := (trailerAt b w q).getLsbD (trailerLow w + 3)

/-- E2. -/
def hasSoAt (b : Nat → Byte) (w : SnWidth) (q : Nat) : Bool := (trailerAt b w q).getLsbD (trailerLow w + 2)

/-- E3. -/
def hasRangeAt (b : Nat → Byte) (w : SnWidth) (q : Nat) : Bool := (trailerAt b w q).getLsbD (trailerLow w + 1)

/-- The SN of the element. -/
def snAt (b : Nat → Byte) (w : SnWidth) (q : Nat) : Word :=
  if w = .w12 then 0#20 ++ b q ++ (trailerAt b w q).extractLsb' 4 4
  else 0#14 ++ b q ++ b (q + 1) ++ (trailerAt b w q).extractLsb' 6 2

theorem snAt_w12 (b : Nat → Byte) (q : Nat) : snAt b .w12 q = 0#20 ++ b q ++ (b (q + 1)).extractLsb' 4 4 := rfl

theorem snAt_w18 (b : Nat → Byte) (q : Nat) :
    snAt b .w18 q = 0#14 ++ b q ++ b (q + 1) ++ (b (q + 2)).extractLsb' 6 2 := rfl

/-- A record whose optional fields start at byte `k`, those that are present. -/
def recordOf (b : Nat → Byte) (sn : Word) (hasSo hasRange : Bool) (k : Nat) : NackRec where
  sn := sn
  hasSo := hasSo
  soStart := if hasSo then b k ++ b (k + 1) else 0
  soEnd := if hasSo then b (k + 2) ++ b (k + 3) else 0
  hasRange := hasRange
  range := if hasRange then b (k + 4 * hasSo.toNat) else 0

/-- The record of the element at byte `q`. -/
def recordAt (b : Nat → Byte) (w : SnWidth) (q : Nat) : NackRec :=
  recordOf b (snAt b w q) (hasSoAt b w q) (hasRangeAt b w q) (q + w.nackBytes)

/-- The byte after the element. -/
def elementEnd (b : Nat → Byte) (w : SnWidth) (q : Nat) : Nat :=
  q + w.nackBytes + 4 * (hasSoAt b w q).toNat + (hasRangeAt b w q).toNat

theorem elementEnd_eq (b : Nat → Byte) (w : SnWidth) (q : Nat) : elementEnd b w q = q + contribution w (recordAt b w q) := by
  have hw : w.nackBytes = if w = .w12 then 2 else 3 := by cases w <;> rfl
  rw [elementEnd, hw, contribution, ← Nat.add_assoc, ← Nat.add_assoc]
  rfl

/-- The end of an element is behind its mandatory part. -/
theorem mandatory_le_elementEnd (b : Nat → Byte) (w : SnWidth) (q : Nat) : q + w.nackBytes ≤ elementEnd b w q := by
  unfold elementEnd
  omega

theorem reservedAt_iff (b : Nat → Byte) (w : SnWidth) (q : Nat) :
    ReservedAt b w q ↔ (trailerAt b w q).extractLsb' 0 (trailerLow w + 1) ≠ 0 := by cases w <;> rfl

/-- The check before a field of `n` bytes that may be absent (R192). -/
theorem need_iff {present : Bool} {len k n : Nat} (hk : k ≤ len) :
    (present = true ∧ len < k + n) ↔ len < k + n * present.toNat := by
  cases present with
  | false => exact iff_of_false (fun h => Bool.false_ne_true h.1) (Nat.not_lt.2 hk)
  | true => rw [Bool.toNat_true, Nat.mul_one, and_iff_right rfl]

theorem optField_eq {present : Bool} {field : Option Nat} {n : Nat} {v : BitVec n}
    (h : present = true → field = some v.toNat) : optField present field = some (if present then v else 0).toNat := by
  cases present with
  | false => exact congrArg some (BitVec.toNat_zero (w := n)).symm
  | true => exact h rfl

section Element

variable {s : State} (hm : Memory.wf s.params.bufSize s.buf) (hr : RegionOK s)

include hm hr

/-- The optional fields, given that the mandatory part lies inside the region: both `need`s hold exactly when the element's
end does. -/
theorem readOptional_eq (sn : Word) (more hasSo hasRange : Bool) {k : Nat} (hk : k ≤ rgnLen s) :
    readOptional s sn more hasSo hasRange k = some (
      if rgnLen s < k + 4 * hasSo.toNat + hasRange.toNat then .bad .truncated
      else .good (recordOf (rgnByte s) sn hasSo hasRange k) more (k + 4 * hasSo.toNat + hasRange.toNat)) := by
  have hnext : k + (if hasSo = true then 4 else 0) = k + 4 * hasSo.toNat := by cases hasSo <;> rfl
  have hlast : (if hasRange = true then 1 else 0) = hasRange.toNat := by cases hasRange <;> rfl
  unfold readOptional
  rw [regionLen_eq_rgnLen]
  by_cases hso : rgnLen s < k + 4 * hasSo.toNat
  · rw [if_pos ((need_iff hk).2 hso), if_pos (by omega)]
  have hfour (h : hasSo = true) : k + 4 ≤ rgnLen s := by
    rw [h] at hso
    exact Nat.not_lt.1 hso
  have hstart := optField_eq (field := s.regionBits (8 * k) 16) fun h =>
    regionBits_two_bytes hm hr (by have := hfour h; omega)
  have hend := optField_eq (field := s.regionBits (8 * k + 16) 16) fun h =>
    regionBits_two_bytes (k := k + 2) hm hr (by have := hfour h; omega)
  rw [if_neg (mt (need_iff hk).1 hso), hstart, hend, Option.bind_some, Option.bind_some]
  dsimp only
  rw [hnext, hlast]
  have hk' := Nat.not_lt.1 hso
  generalize hoff : k + 4 * hasSo.toNat = k' at hk' ⊢
  by_cases hrange : rgnLen s < k' + hasRange.toNat
  · rw [if_pos ((need_iff hk').2 (by omega)), if_pos hrange]
  have hbyte := optField_eq (present := hasRange) (field := s.regionBits (8 * k') 8) fun h =>
    regionBits_byte hm hr (by rw [h, Bool.toNat_true] at hrange; omega)
  rw [if_neg (mt (need_iff hk').1 (by omega)), hbyte, Option.bind_some, if_neg hrange, ofNat_toNat_self, ofNat_toNat_self,
    ofNat_toNat_self, ← hoff]
  rfl

/-- A field of the trailer, `j` bits after the SN. -/
theorem regionBits_trailer {w : SnWidth} {q j n : Nat} (hq : q + w.nackBytes ≤ rgnLen s) (hj : j ≤ 3)
    (hn : j + n ≤ trailerLow w + 4) :
    s.regionBits (8 * q + w.bits + j) n =
      some ((trailerAt (rgnByte s) w q).extractLsb' (trailerLow w + 4 - (j + n)) n).toNat := by
  obtain ⟨hpos, hbytes, hlow⟩ :
      w.bits + trailerLow w = 8 * (w.nackBytes - 1) + 4 ∧ 1 ≤ w.nackBytes ∧ trailerLow w ≤ 4 := by
    cases w <;> decide
  have hfield := regionBits_within_byte hm hr (k := q + w.nackBytes - 1) (j := 4 - trailerLow w + j) (n := n)
    (by omega) (by omega) (by omega)
  rwa [show 8 * (q + w.nackBytes - 1) + (4 - trailerLow w + j) = 8 * q + w.bits + j by omega,
    show 8 - (4 - trailerLow w + j + n) = trailerLow w + 4 - (j + n) by omega] at hfield

theorem regionBits_snAt {w : SnWidth} {q : Nat} (hq : q + w.nackBytes ≤ rgnLen s) :
    s.regionBits (8 * q) w.bits = some (snAt (rgnByte s) w q).toNat := by
  have htwo : 2 ≤ w.nackBytes := by cases w <;> decide
  have hfirst : q + 1 < rgnLen s := by omega
  have htop := regionBits_byte hm hr (Nat.lt_of_succ_lt hfirst)
  cases w with
  | w12 =>
    have hlow := regionBits_within_byte hm hr (k := q + 1) (j := 0) (n := 4) hq (by decide) (by decide)
    rw [snAt_w12, toNat_zero_append_two]
    exact getBits_append htop hlow
  | w18 =>
    have hmid := regionBits_byte hm hr hfirst
    have hlow := regionBits_within_byte hm hr (k := q + 2) (j := 0) (n := 2) hq (by decide) (by decide)
    rw [snAt_w18, toNat_zero_append_three]
    exact getBits_append (getBits_append htop hmid) hlow

/-- One element: `need` for its mandatory part, the reserved bits, and `need` for its end (R192). -/
theorem readElement_eq (w : SnWidth) (q : Nat) :
    readElement s w q = some (
      if rgnLen s < q + w.nackBytes then .bad .truncated
      else if ReservedAt (rgnByte s) w q then .bad .reserved
      else if rgnLen s < elementEnd (rgnByte s) w q then .bad .truncated
      else .good (recordAt (rgnByte s) w q) (moreAt (rgnByte s) w q) (elementEnd (rgnByte s) w q)) := by
  have hwidth : 8 * w.nackBytes - w.bits - 3 = trailerLow w + 1 := by cases w <;> rfl
  unfold readElement
  rw [regionLen_eq_rgnLen]
  by_cases hq : rgnLen s < q + w.nackBytes
  · rw [if_pos hq, if_pos hq]
  have hq' := Nat.not_lt.1 hq
  have he1 : s.regionBits (8 * q + w.bits) 1 = some ((trailerAt (rgnByte s) w q).extractLsb' (trailerLow w + 3) 1).toNat :=
    regionBits_trailer hm hr (j := 0) hq' (by decide) (by omega)
  have he2 : s.regionBits (8 * q + w.bits + 1) 1 = some ((trailerAt (rgnByte s) w q).extractLsb' (trailerLow w + 2) 1).toNat :=
    regionBits_trailer hm hr hq' (by decide) (by omega)
  have he3 : s.regionBits (8 * q + w.bits + 2) 1 = some ((trailerAt (rgnByte s) w q).extractLsb' (trailerLow w + 1) 1).toNat :=
    regionBits_trailer hm hr hq' (by decide) (by omega)
  have hrsv : s.regionBits (8 * q + w.bits + 3) (trailerLow w + 1) =
      some ((trailerAt (rgnByte s) w q).extractLsb' 0 (trailerLow w + 1)).toNat := by
    have hfield := regionBits_trailer hm hr (j := 3) (n := trailerLow w + 1) hq' (by decide) (by omega)
    rwa [show trailerLow w + 4 - (3 + (trailerLow w + 1)) = 0 by omega] at hfield
  rw [if_neg hq, if_neg hq, regionBits_snAt hm hr hq', he1, he2, he3, hwidth, hrsv]
  simp only [Option.bind_some, toNat_ne_zero_iff, toNat_extractLsb'_one_eq_one, ← reservedAt_iff, ofNat_toNat_self,
    Bool.decide_eq_true, readOptional_eq hm hr _ _ _ _ hq']
  exact (apply_ite some _ _ _).symm

/-- One turn of the loop: one element, then the append (R192, R195). -/
theorem decLoop_succ (q fuel : Nat) :
    decLoop (fuel + 1) q s =
      if rgnLen s < q + s.ctr.width.nackBytes then .next (failed (markFailed s) .truncated)
      else if ReservedAt (rgnByte s) s.ctr.width q then .next (failed (markFailed s) .reserved)
      else if rgnLen s < elementEnd (rgnByte s) s.ctr.width q then .next (failed (markFailed s) .truncated)
      else if s.ctr.nacks.length = s.params.nackMax then .next (failed (markFailed s) .nackFull)
      else if moreAt (rgnByte s) s.ctr.width q then
        decLoop fuel (elementEnd (rgnByte s) s.ctr.width q) (appended s (recordAt (rgnByte s) s.ctr.width q))
      else .next (finished (appended s (recordAt (rgnByte s) s.ctr.width q))
        (BitVec.ofNat 32 (elementEnd (rgnByte s) s.ctr.width q))) := by
  rw [decLoop, readElement_eq hm hr]
  split_ifs with hshort hres hend hfull hmore
  iterate 3 rfl
  · dsimp only
    rw [append_full hfull]
    rfl
  all_goals
    dsimp only
    rw [append_room hfull]
  · exact if_pos hmore
  · exact if_neg hmore

/-- An element that lies inside the region, has its reserved bits 0 and finds room in the table is appended. -/
theorem decLoop_of_room {q : Nat} (hres : ¬ ReservedAt (rgnByte s) s.ctr.width q)
    (hend : elementEnd (rgnByte s) s.ctr.width q ≤ rgnLen s) (hroom : s.ctr.nacks.length ≠ s.params.nackMax) (fuel : Nat) :
    decLoop (fuel + 1) q s =
      if moreAt (rgnByte s) s.ctr.width q then
        decLoop fuel (elementEnd (rgnByte s) s.ctr.width q) (appended s (recordAt (rgnByte s) s.ctr.width q))
      else .next (finished (appended s (recordAt (rgnByte s) s.ctr.width q))
        (BitVec.ofNat 32 (elementEnd (rgnByte s) s.ctr.width q))) := by
  have hq := (mandatory_le_elementEnd (rgnByte s) s.ctr.width q).trans hend
  rw [decLoop_succ hm hr, if_neg (Nat.not_lt.2 hq), if_neg hres, if_neg (Nat.not_lt.2 hend), if_neg hroom]

end Element

/-- Settles O37, by the checks of one turn in their order. -/
theorem stsDecNackElement : Obligations.StsDecNackElement := by
  intro s q fuel hs hr
  have hturn := decLoop_succ hs.buf_wf hr q fuel
  refine ⟨fun hshort => ?_, fun hq hres => ?_, fun hq hres hshort => ?_, fun hend hres hfull => ?_,
    fun hend hres hroom => decLoop_of_room hs.buf_wf hr hres hend hroom.ne fuel⟩
  · exact hturn.trans (if_pos hshort)
  · rw [if_neg (Nat.not_lt.2 hq)] at hturn
    exact hturn.trans (if_pos hres)
  · rw [if_neg (Nat.not_lt.2 hq), if_neg hres] at hturn
    exact hturn.trans (if_pos hshort)
  · have hq := (mandatory_le_elementEnd (rgnByte s) s.ctr.width q).trans hend
    rw [if_neg (Nat.not_lt.2 hq), if_neg hres] at hturn
    exact hturn.trans ((if_neg (Nat.not_lt.2 hend)).trans (if_pos hfull))

/-! ### What a failure keeps (R190, R193, R194) -/

/-- Settles O40: `STS_DEC` touches only the container and the completion, and it keeps the records that were there. -/
theorem stsDecFailureKeepsPartialReport : Obligations.StsDecFailureKeepsPartialReport := by
  intro s t _ h hfail
  rcases execStsDec_cases h with
    ⟨hr, rfl⟩ | ⟨hr, c, new, v, hwidth, hnacks, ⟨-, -, rfl⟩ | ⟨hfailed, e, he, rfl⟩⟩
  · exact ⟨fun _ => rfl, fun hok => absurd hok hr⟩
  · exact absurd rfl hfail
  · refine ⟨fun hbad => absurd hr hbad, fun _ => ⟨hfailed, rfl, ?_, ⟨new, hnacks⟩, hwidth, rfl⟩⟩
    exact he

end Sys2Proof.Machine
end

section
/-! PROOFS. The Status PDU's bytes: their numbers (R201, R202), `STS_ENC` (R200), and what it says of bytes to start with an
element or a fixed part: each field of the bytes is the report's. Both directions of the codec follow from that. -/

open Sys2Proof.Claims

namespace Sys2Proof.Machine

/-! ### The image in numbers -/

/-- The fixed part of R201, in numbers. -/
theorem statusFixed_toNat (w : SnWidth) (ack : Word) (e1 : Bool) :
    (statusFixed w ack e1).map BitVec.toNat = fixedBytes w ack.toNat e1 := by
  cases w <;>
    simp only [statusFixed, fixedBytes, List.map_cons, List.map_nil, toNat_append_eq_add, BitVec.toNat_ofBool,
      BitVec.toNat_ofNat, BitVec.extractLsb'_toNat, Nat.shiftRight_eq_div_pow, List.cons.injEq, and_true, true_and] <;>
    omega

/-- The mandatory part of a NACK element in numbers (R202). -/
def mandatoryBytes (r : NackRec) (more : Bool) : SnWidth → List Nat
  | .w12 => [r.sn.toNat / 16 % 256,
      16 * (r.sn.toNat % 16) + 8 * more.toNat + 4 * r.hasSo.toNat + 2 * r.hasRange.toNat]
  | .w18 => [r.sn.toNat / 1024 % 256, r.sn.toNat / 4 % 256,
      64 * (r.sn.toNat % 4) + 32 * more.toNat + 16 * r.hasSo.toNat + 8 * r.hasRange.toNat]

theorem nackFixed_toNat (w : SnWidth) (r : NackRec) (more : Bool) :
    (nackFixed w r more).map BitVec.toNat = mandatoryBytes r more w := by
  cases w <;>
    simp only [nackFixed, mandatoryBytes, List.map_cons, List.map_nil, toNat_append_eq_add, BitVec.toNat_ofBool,
      BitVec.toNat_ofNat, BitVec.extractLsb'_toNat, Nat.shiftRight_eq_div_pow, List.cons.injEq, and_true, true_and] <;>
    omega

theorem nackImage_toNat (w : SnWidth) (r : NackRec) (more : Bool) :
    (nackImage w r more).map BitVec.toNat = elementBytes w r more := by
  have helement : elementBytes w r more = mandatoryBytes r more w ++
      (if r.hasSo then [r.soStart.toNat / 256, r.soStart.toNat % 256, r.soEnd.toNat / 256, r.soEnd.toNat % 256] else []) ++
      (if r.hasRange then [r.range.toNat] else []) := by
    cases w <;> rfl
  rw [helement, nackImage, List.map_append, List.map_append, nackFixed_toNat, apply_ite (List.map BitVec.toNat),
    apply_ite (List.map BitVec.toNat), List.map_append, be16_toNat, be16_toNat]
  rfl

theorem nackImages_toNat (w : SnWidth) (recs : List NackRec) :
    (nackImages w recs).map BitVec.toNat = elementsBytes w recs := by
  induction recs with
  | nil => rfl
  | cons r t ih =>
    rw [nackImages, List.map_append, nackImage_toNat, ih]
    cases t with
    | nil => exact List.append_nil _
    | cons r' t => rfl

/-- The bytes of the model's image are those of the statements. -/
theorem pduBytes_eq (w : SnWidth) (ack : Word) (recs : List NackRec) :
    pduBytes w ack.toNat recs = (statusImage w ack recs).map BitVec.toNat := by
  have hsome : decide (0 < recs.length) = !recs.isEmpty := by cases recs <;> rfl
  rw [pduBytes, statusImage, List.map_append, statusFixed_toNat, nackImages_toNat, hsome]

theorem pduBytes_length (w : SnWidth) (ack : Word) (recs : List NackRec) :
    (pduBytes w ack.toNat recs).length = packedSize w recs := by
  rw [pduBytes_eq, List.length_map, statusImage_length]

/-- The cached packed size is the length of the container's PDU (R45, R203). -/
theorem pduBytes_length_of_inv {s : State} (hs : s.Inv) :
    (pduBytes s.ctr.width s.ctr.ackSn.toNat s.ctr.nacks).length = s.ctr.psize.toNat := by
  obtain ⟨-, hsize, -, -⟩ := hs.container
  rw [pduBytes_length, hsize]

/-! ### `STS_ENC` -/

theorem execStsEnc_region {s : State} (hr : ¬ RegionOK s) : execStsEnc s = .next (failed s .region) := if_pos hr

theorem execStsEnc_capacity {s : State} (hr : RegionOK s)
    (hfit : s.params.bufSize < s.rgnStart.toNat + s.ctr.psize.toNat) : execStsEnc s = .next (failed s .capacity) :=
  (if_neg (not_not_intro hr)).trans (if_pos hfit)

/-- A PDU that fits is stored at `RGN_START`; the cached packed size is its length (R45, R200). -/
theorem execStsEnc_fits {s : State} (hs : s.Inv) (hr : RegionOK s)
    (hfit : s.rgnStart.toNat + s.ctr.psize.toNat ≤ s.params.bufSize) :
    ∃ m, writeBytes s.buf s.rgnStart.toNat (statusImage s.ctr.width s.ctr.ackSn s.ctr.nacks) = some m ∧
      execStsEnc s = .next (finished { s with buf := m, rgnEnd := s.rgnStart + s.ctr.psize } s.ctr.psize) := by
  have hlength : (statusImage s.ctr.width s.ctr.ackSn s.ctr.nacks).length = s.ctr.psize.toNat := by
    rw [← pduBytes_length_of_inv hs, pduBytes_eq, List.length_map]
  obtain ⟨m, hwrite⟩ := writeBytes_of_le hs.buf_wf (hlength.symm ▸ hfit)
  refine ⟨m, hwrite, ?_⟩
  rw [execStsEnc, if_neg (not_not_intro hr), if_neg (Nat.not_lt.2 hfit)]
  dsimp only
  rw [hwrite, onBuf_some, hlength, BitVec.ofNat_add, ofNat_toNat_self, ofNat_toNat_self]
  rfl

/-- Settles O35: the two checks in their order, then the image in numbers. -/
theorem stsEncWritesThePdu : Obligations.StsEncWritesThePdu := by
  refine ⟨hasWord_encode rfl, fun s hs => ⟨execStsEnc_region, execStsEnc_capacity, fun hr hfit => ?_⟩⟩
  obtain ⟨m, hwrite, hexec⟩ := execStsEnc_fits hs hr hfit
  refine ⟨pduBytes_length_of_inv hs, m, hexec, ?_⟩
  rw [pduBytes_eq, List.length_map]
  exact ⟨writeBytes_stored hwrite, writeBytes_sameOutside hwrite⟩

/-! ### Bytes from an offset on -/

/-- The bytes of `b` from offset `q` on are `bytes`. -/
def BytesAt (b : Nat → Byte) (q : Nat) (bytes : List Byte) : Prop := StartsWith (fun j => b (q + j)) bytes

theorem bytesAt_nil (b : Nat → Byte) (q : Nat) : BytesAt b q [] ↔ True := iff_true_intro fun _ _ h => nomatch h

theorem bytesAt_cons (b : Nat → Byte) (q : Nat) (x : Byte) (t : List Byte) :
    BytesAt b q (x :: t) ↔ b q = x ∧ BytesAt b (q + 1) t := by
  have hshift (j : Nat) : q + 1 + j = q + (j + 1) := by omega
  constructor
  · exact fun h => ⟨h 0 x rfl, fun j y hy => (congrArg b (hshift j)).trans (h (j + 1) y hy)⟩
  · rintro ⟨rfl, ht⟩ j y hy
    cases j with
    | zero => exact Option.some.inj hy
    | succ j => exact (congrArg b (hshift j)).symm.trans (ht j y hy)

theorem bytesAt_append (b : Nat → Byte) (q : Nat) (l l' : List Byte) :
    BytesAt b q (l ++ l') ↔ BytesAt b q l ∧ BytesAt b (q + l.length) l' := by
  induction l generalizing q with
  | nil => simp only [List.nil_append, List.length_nil, Nat.add_zero, bytesAt_nil, true_and]
  | cons x t ih =>
    rw [List.cons_append, bytesAt_cons, bytesAt_cons, ih, and_assoc, List.length_cons, Nat.add_right_comm, Nat.add_assoc]

theorem bytesAt_congr {b b' : Nat → Byte} {q : Nat} (h : ∀ j, q ≤ j → b j = b' j) (l : List Byte) :
    BytesAt b q l ↔ BytesAt b' q l := by
  unfold BytesAt StartsWith
  simp only [h _ (Nat.le_add_right q _)]

/-! ### Fields of a register and of a byte, piece by piece -/

theorem append_eq_append_iff {m n : Nat} {hi hi' : BitVec m} {lo lo' : BitVec n} :
    hi ++ lo = hi' ++ lo' ↔ hi = hi' ∧ lo = lo' := by
  have hsplit := extractLsb'_eq_append_iff (hi ++ lo) 0 hi' lo'
  rwa [BitVec.extractLsb'_eq_self, Nat.zero_add, BitVec.extractLsb'_append_eq_left, BitVec.extractLsb'_append_eq_right]
    at hsplit

/-- Two bytes are a 16-bit field exactly when they are its image (R96). -/
theorem bytesAt_be16 (b : Nat → Byte) (q : Nat) (v : BitVec 16) : BytesAt b q (be16 v) ↔ b q ++ b (q + 1) = v := by
  have hsplit := extractLsb'_eq_append_iff v 0 (b q) (b (q + 1))
  rw [BitVec.extractLsb'_eq_self] at hsplit
  rw [be16, bytesAt_cons, bytesAt_cons, bytesAt_nil, and_true, eq_comm (a := b q ++ b (q + 1)), hsplit, eq_comm,
    eq_comm (a := b (q + 1))]

/-- A register below `2 ^ (n + m)` that two pieces make up. -/
theorem two_pieces_eq_iff {k m n : Nat} {x : BitVec (k + m + n)} (hx : x.toNat < 2 ^ (n + m)) (hi : BitVec m) (lo : BitVec n) :
    0#k ++ hi ++ lo = x ↔ hi = x.extractLsb' n m ∧ lo = x.extractLsb' 0 n := by
  have hsplit := extractLsb'_eq_append_iff x 0 (0#k ++ hi) lo
  rw [BitVec.extractLsb'_eq_self, extractLsb'_eq_append_iff, Nat.zero_add, extractLsb'_eq_zero_of_lt hx] at hsplit
  rw [eq_comm, hsplit, eq_comm (a := hi), eq_comm (a := lo)]
  exact and_congr_left fun _ => and_iff_right rfl

/-- A register below `2 ^ (n + m + l)` that three pieces make up. -/
theorem three_pieces_eq_iff {k l m n : Nat} {x : BitVec (k + l + m + n)} (hx : x.toNat < 2 ^ (n + m + l)) (hi : BitVec l)
    (mid : BitVec m) (lo : BitVec n) :
    0#k ++ hi ++ mid ++ lo = x ↔ hi = x.extractLsb' (n + m) l ∧ mid = x.extractLsb' n m ∧ lo = x.extractLsb' 0 n := by
  have hsplit := extractLsb'_eq_append_iff x 0 (0#k ++ hi ++ mid) lo
  rw [BitVec.extractLsb'_eq_self, extractLsb'_eq_append_iff, extractLsb'_eq_append_iff, Nat.zero_add,
    extractLsb'_eq_zero_of_lt hx] at hsplit
  rw [eq_comm, hsplit, eq_comm (a := hi), eq_comm (a := mid), eq_comm (a := lo), and_assoc]
  exact and_congr_left fun _ => and_iff_right rfl

/-- The trailer of an element, field by field from its top (R94, R95). -/
theorem trailer_eq_iff {n k : Nat} (x : BitVec (n + 1 + 1 + 1 + k)) (hi : BitVec n) (e1 e2 e3 : Bool) :
    x = hi ++ BitVec.ofBool e1 ++ BitVec.ofBool e2 ++ BitVec.ofBool e3 ++ 0#k ↔
      x.extractLsb' (k + 3) n = hi ∧ x.getLsbD (k + 2) = e1 ∧ x.getLsbD (k + 1) = e2 ∧ x.getLsbD k = e3 ∧
        x.extractLsb' 0 k = 0#k := by
  have hsplit := extractLsb'_eq_append_iff x 0 (hi ++ BitVec.ofBool e1 ++ BitVec.ofBool e2 ++ BitVec.ofBool e3) 0#k
  rw [BitVec.extractLsb'_eq_self, extractLsb'_eq_append_iff, extractLsb'_eq_append_iff, extractLsb'_eq_append_iff,
    extractLsb'_one, extractLsb'_one, extractLsb'_one, BitVec.ofBool_eq_iff_eq, BitVec.ofBool_eq_iff_eq,
    BitVec.ofBool_eq_iff_eq, Nat.zero_add] at hsplit
  rw [hsplit]
  simp only [and_assoc]

/-! ### Bytes that start with an element -/

theorem nackFixed_length (w : SnWidth) (r : NackRec) (e1 : Bool) : (nackFixed w r e1).length = w.nackBytes := by
  cases w <;> rfl

theorem not_reservedAt_iff (b : Nat → Byte) (w : SnWidth) (q : Nat) :
    ¬ ReservedAt b w q ↔ (trailerAt b w q).extractLsb' 0 (trailerLow w + 1) = 0 := by
  rw [reservedAt_iff, Decidable.not_not]

/-- The mandatory part of an element, field by field. -/
theorem bytesAt_nackFixed {b : Nat → Byte} {w : SnWidth} {q : Nat} {r : NackRec} {e1 : Bool}
    (hsn : r.sn.toNat < 2 ^ w.bits) :
    BytesAt b q (nackFixed w r e1) ↔ ¬ ReservedAt b w q ∧ moreAt b w q = e1 ∧ snAt b w q = r.sn ∧
      hasSoAt b w q = r.hasSo ∧ hasRangeAt b w q = r.hasRange := by
  rw [not_reservedAt_iff]
  cases w with
  | w12 =>
    have hparts := two_pieces_eq_iff (k := 20) (m := 8) (n := 4) (x := r.sn) hsn (b q) ((b (q + 1)).extractLsb' 4 4)
    have htrailer := trailer_eq_iff (n := 4) (k := 1) (b (q + 1)) (r.sn.extractLsb' 0 4) e1 r.hasSo r.hasRange
    rw [nackFixed, bytesAt_cons, bytesAt_cons, bytesAt_nil, and_true]
    constructor
    · rintro ⟨hfirst, hlast⟩
      obtain ⟨hlow, hmore, hso, hrange, hres⟩ := htrailer.1 hlast
      exact ⟨hres, hmore, hparts.2 ⟨hfirst, hlow⟩, hso, hrange⟩
    · rintro ⟨hres, hmore, hvalue, hso, hrange⟩
      obtain ⟨hfirst, hlow⟩ := hparts.1 hvalue
      exact ⟨hfirst, htrailer.2 ⟨hlow, hmore, hso, hrange, hres⟩⟩
  | w18 =>
    have hparts := three_pieces_eq_iff (k := 14) (l := 8) (m := 8) (n := 2) (x := r.sn) hsn (b q) (b (q + 1))
      ((b (q + 2)).extractLsb' 6 2)
    have htrailer := trailer_eq_iff (n := 2) (k := 3) (b (q + 2)) (r.sn.extractLsb' 0 2) e1 r.hasSo r.hasRange
    rw [nackFixed, bytesAt_cons, bytesAt_cons, bytesAt_cons, bytesAt_nil, and_true]
    constructor
    · rintro ⟨hfirst, hsecond, hlast⟩
      obtain ⟨hlow, hmore, hso, hrange, hres⟩ := htrailer.1 hlast
      exact ⟨hres, hmore, hparts.2 ⟨hfirst, hsecond, hlow⟩, hso, hrange⟩
    · rintro ⟨hres, hmore, hvalue, hso, hrange⟩
      obtain ⟨hfirst, hsecond, hlow⟩ := hparts.1 hvalue
      exact ⟨hfirst, hsecond, htrailer.2 ⟨hlow, hmore, hso, hrange, hres⟩⟩

/-- The bytes of a record's optional fields (R96). -/
def optionalImage (r : NackRec) : List Byte :=
  (if r.hasSo then be16 r.soStart ++ be16 r.soEnd else []) ++ (if r.hasRange then [r.range] else [])

theorem nackImage_eq (w : SnWidth) (r : NackRec) (e1 : Bool) : nackImage w r e1 = nackFixed w r e1 ++ optionalImage r :=
  List.append_assoc _ _ _

theorem bytesAt_optionalImage (b : Nat → Byte) (k : Nat) (r : NackRec) :
    BytesAt b k (optionalImage r) ↔
      (r.hasSo = true → b k ++ b (k + 1) = r.soStart ∧ b (k + 2) ++ b (k + 3) = r.soEnd) ∧
        (r.hasRange = true → b (k + 4 * r.hasSo.toNat) = r.range) := by
  have hlength : (if r.hasSo then be16 r.soStart ++ be16 r.soEnd else []).length = 4 * r.hasSo.toNat := by
    cases r.hasSo <;> rfl
  rw [optionalImage, bytesAt_append, hlength]
  refine and_congr ?_ ?_
  · cases r.hasSo with
    | false => simp only [Bool.false_eq_true, if_false, bytesAt_nil, false_imp_iff]
    | true =>
      rw [if_pos rfl, bytesAt_append, bytesAt_be16, bytesAt_be16]
      exact ⟨fun h _ => h, fun h => h rfl⟩
  · cases r.hasRange with
    | false => simp only [Bool.false_eq_true, if_false, bytesAt_nil, false_imp_iff]
    | true => simp only [if_true, bytesAt_cons, bytesAt_nil, and_true, true_imp_iff]

/-- A field that is 0 when it is absent. -/
theorem optional_eq_iff {α : Type} {present : Bool} {x y zero : α} (h : present = false → y = zero) :
    (if present then x else zero) = y ↔ (present = true → x = y) := by
  cases present with
  | false => exact iff_of_true (h rfl).symm fun h => absurd h Bool.false_ne_true
  | true => exact ⟨fun h _ => h, fun h => h rfl⟩

/-- The record read from bytes is a given normal one exactly when its optional fields stand there. -/
theorem recordOf_eq_iff {r : NackRec} (hr : r.Normal) (b : Nat → Byte) (k : Nat) :
    recordOf b r.sn r.hasSo r.hasRange k = r ↔ BytesAt b k (optionalImage r) := by
  obtain ⟨hso, hrange⟩ := hr
  rw [bytesAt_optionalImage, imp_and, ← optional_eq_iff fun h => (hso h).1, ← optional_eq_iff fun h => (hso h).2,
    ← optional_eq_iff hrange]
  constructor
  · intro h
    exact ⟨⟨congrArg NackRec.soStart h, congrArg NackRec.soEnd h⟩, congrArg NackRec.range h⟩
  · rintro ⟨⟨hstart, hend⟩, hbyte⟩
    rw [recordOf, hstart, hend, hbyte]

/-- Bytes start with the element of a record exactly when that is the element read from them. -/
theorem bytesAt_nackImage {b : Nat → Byte} {w : SnWidth} {q : Nat} {r : NackRec} {e1 : Bool}
    (hsn : r.sn.toNat < 2 ^ w.bits) (hr : r.Normal) :
    BytesAt b q (nackImage w r e1) ↔ ¬ ReservedAt b w q ∧ moreAt b w q = e1 ∧ recordAt b w q = r := by
  rw [nackImage_eq, bytesAt_append, bytesAt_nackFixed hsn, nackFixed_length, ← recordOf_eq_iff hr]
  constructor
  · rintro ⟨⟨hres, hmore, hvalue, hso, hrange⟩, hrecord⟩
    exact ⟨hres, hmore, by rw [recordAt, hvalue, hso, hrange, hrecord]⟩
  · rintro ⟨hres, hmore, rfl⟩
    exact ⟨⟨hres, hmore, rfl, rfl, rfl⟩, rfl⟩

theorem two_pieces_lt {k m n : Nat} (hi : BitVec m) (lo : BitVec n) : (0#k ++ hi ++ lo).toNat < 2 ^ (m + n) :=
  toNat_zero_append_two (k := k) hi lo ▸ BitVec.isLt _

theorem three_pieces_lt {k l m n : Nat} (hi : BitVec l) (mid : BitVec m) (lo : BitVec n) :
    (0#k ++ hi ++ mid ++ lo).toNat < 2 ^ (l + m + n) :=
  toNat_zero_append_three (k := k) hi mid lo ▸ BitVec.isLt _

theorem snAt_lt (b : Nat → Byte) (w : SnWidth) (q : Nat) : (snAt b w q).toNat < 2 ^ w.bits := by
  cases w with
  | w12 => exact two_pieces_lt (b q) ((b (q + 1)).extractLsb' 4 4)
  | w18 => exact three_pieces_lt (b q) (b (q + 1)) ((b (q + 2)).extractLsb' 6 2)

theorem recordAt_normal (b : Nat → Byte) (w : SnWidth) (q : Nat) : (recordAt b w q).Normal :=
  ⟨fun h => ⟨if_neg (ne_true_of_eq_false h), if_neg (ne_true_of_eq_false h)⟩, fun h => if_neg (ne_true_of_eq_false h)⟩

/-! ### Bytes that start with a Status PDU -/

/-- The region's bytes without D/C, which the decoder does not read (R193). -/
def withoutDc (b : Nat → Byte) (j : Nat) : Byte := if j = 0 then 0#1 ++ (b 0).extractLsb' 0 7 else b j

theorem withoutDc_of_pos (b : Nat → Byte) {j : Nat} (h : 1 ≤ j) : withoutDc b j = b j := if_neg (by omega)

theorem withoutDc_toNat (b : Nat → Byte) (j : Nat) :
    (withoutDc b j).toNat = (b j).toNat % (if j = 0 then 128 else 256) := by
  by_cases h : j = 0
  · subst h
    exact (toNat_zero_append 1 _).trans (BitVec.extractLsb'_toNat _ _ _)
  · rw [withoutDc_of_pos b (by omega), if_neg h, Nat.mod_eq_of_lt (b j).isLt]

/-- Byte 0 is D/C, CPT and the top of ACK_SN (R92, R93). -/
theorem withoutDc_zero_eq_iff (b : Nat → Byte) (ack : BitVec 4) :
    withoutDc b 0 = 0#1 ++ 0#3 ++ ack ↔ cptField b = 0 ∧ (b 0).extractLsb' 0 4 = ack := by
  have hjoin : withoutDc b 0 = 0#1 ++ cptField b ++ (b 0).extractLsb' 0 4 := by
    have hlow : (b 0).extractLsb' 0 7 = cptField b ++ (b 0).extractLsb' 0 4 :=
      (extractLsb'_eq_append_iff (b 0) 0 (cptField b) ((b 0).extractLsb' 0 4)).2 ⟨rfl, rfl⟩
    rw [withoutDc, if_pos rfl, hlow]
    symm
    exact BitVec.append_assoc
  rw [hjoin, append_eq_append_iff, append_eq_append_iff]
  exact and_congr_left fun _ => and_iff_right rfl

/-- The last byte of the fixed part. -/
theorem lastFixedByte_eq_iff {n k : Nat} (x : BitVec (n + 1 + k)) (ack : BitVec n) (e1 : Bool) :
    x = ack ++ BitVec.ofBool e1 ++ 0#k ↔ x.extractLsb' (k + 1) n = ack ∧ x.getLsbD k = e1 ∧ x.extractLsb' 0 k = 0#k := by
  have hsplit := extractLsb'_eq_append_iff x 0 (ack ++ BitVec.ofBool e1) 0#k
  rwa [BitVec.extractLsb'_eq_self, extractLsb'_eq_append_iff, extractLsb'_one, BitVec.ofBool_eq_iff_eq, Nat.zero_add,
    and_assoc] at hsplit

/-- The fixed part, field by field. -/
theorem bytesAt_statusFixed {b : Nat → Byte} {w : SnWidth} {ack : Word} {e1 : Bool} (hack : ack.toNat < 2 ^ w.bits) :
    BytesAt (withoutDc b) 0 (statusFixed w ack e1) ↔
      cptField b = 0 ∧ fixedReserved b w = 0 ∧ firstE1 b w = e1 ∧ ackField b w = ack := by
  cases w with
  | w12 =>
    have hparts := two_pieces_eq_iff (k := 20) (m := 4) (n := 8) (x := ack) hack ((b 0).extractLsb' 0 4) (b 1)
    have hlast := extractLsb'_eq_append_iff (b 2) 0 (BitVec.ofBool e1) 0#7
    rw [BitVec.extractLsb'_eq_self, extractLsb'_one, BitVec.ofBool_eq_iff_eq] at hlast
    rw [statusFixed, bytesAt_cons, bytesAt_cons, bytesAt_cons, bytesAt_nil, and_true, withoutDc_zero_eq_iff]
    constructor
    · rintro ⟨⟨hcpt, htop⟩, hlow, hend⟩
      obtain ⟨he1, hres⟩ := hlast.1 hend
      exact ⟨hcpt, hres, he1, hparts.2 ⟨htop, hlow⟩⟩
    · rintro ⟨hcpt, hres, he1, hvalue⟩
      obtain ⟨htop, hlow⟩ := hparts.1 hvalue
      exact ⟨⟨hcpt, htop⟩, hlow, hlast.2 ⟨he1, hres⟩⟩
  | w18 =>
    have hparts := three_pieces_eq_iff (k := 14) (l := 4) (m := 8) (n := 6) (x := ack) hack ((b 0).extractLsb' 0 4) (b 1)
      ((b 2).extractLsb' 2 6)
    have hlast := lastFixedByte_eq_iff (n := 6) (k := 1) (b 2) (ack.extractLsb' 0 6) e1
    rw [statusFixed, bytesAt_cons, bytesAt_cons, bytesAt_cons, bytesAt_nil, and_true, withoutDc_zero_eq_iff]
    constructor
    · rintro ⟨⟨hcpt, htop⟩, hmid, hend⟩
      obtain ⟨hlow, he1, hres⟩ := hlast.1 hend
      exact ⟨hcpt, hres, he1, hparts.2 ⟨htop, hmid, hlow⟩⟩
    · rintro ⟨hcpt, hres, he1, hvalue⟩
      obtain ⟨htop, hmid, hlow⟩ := hparts.1 hvalue
      exact ⟨⟨hcpt, htop⟩, hmid, hlast.2 ⟨hlow, he1, hres⟩⟩

theorem ackField_lt (b : Nat → Byte) (w : SnWidth) : (ackField b w).toNat < 2 ^ w.bits := by
  cases w with
  | w12 => exact two_pieces_lt ((b 0).extractLsb' 0 4) (b 1)
  | w18 => exact three_pieces_lt ((b 0).extractLsb' 0 4) (b 1) ((b 2).extractLsb' 2 6)

end Sys2Proof.Machine
end

section
/-! PROOFS. `STS_DEC` and the reports: a region that starts with a report's PDU decodes to that report, nothing else decodes
without an error, and so encode and decode undo each other (R191-R195, R203). Both directions go turn by turn through the
loop, and a turn reads exactly the element that its bytes are. -/

open Sys2Proof.Claims

namespace Sys2Proof.Machine

/-! ### A region that starts with a report -/

/-- Bytes are a list's when their numbers are. -/
theorem bytesAt_zero_iff_toNat (b : Nat → Byte) (l : List Byte) :
    BytesAt b 0 l ↔ ∀ j, j < l.length → (b j).toNat = (l.map BitVec.toNat).getD j 0 := by
  have hget {j : Nat} (hj : j < l.length) : (l.map BitVec.toNat).getD j 0 = l[j].toNat := by
    rw [List.getD_eq_getElem?_getD, List.getElem?_map, List.getElem?_eq_getElem hj]
    rfl
  constructor
  · intro h j hj
    rw [hget hj, ← h j _ (List.getElem?_eq_getElem hj)]
    simp only [Nat.zero_add]
  · intro h j x hx
    obtain ⟨hj, rfl⟩ := List.getElem?_eq_some_iff.1 hx
    simp only [Nat.zero_add]
    exact BitVec.eq_of_toNat_eq ((h j hj).trans (hget hj))

theorem statusFixed_length (w : SnWidth) (ack : Word) (e1 : Bool) : (statusFixed w ack e1).length = 3 := by cases w <;> rfl

/-- A region starts with a report when its fixed part is the report's and the elements follow from byte 3 on. -/
theorem regionHolds_iff {s : State} {ack : Word} {recs : List NackRec} (hack : ack.toNat < 2 ^ s.ctr.width.bits) :
    RegionHolds s ack recs ↔
      (cptField (rgnByte s) = 0 ∧ fixedReserved (rgnByte s) s.ctr.width = 0 ∧
        firstE1 (rgnByte s) s.ctr.width = (!recs.isEmpty) ∧ ackField (rgnByte s) s.ctr.width = ack) ∧
      3 + (nackImages s.ctr.width recs).length ≤ rgnLen s ∧ BytesAt (rgnByte s) 3 (nackImages s.ctr.width recs) := by
  have hlater := bytesAt_congr (b := withoutDc (rgnByte s)) (b' := rgnByte s) (q := 0 + 3)
    (fun j hj => withoutDc_of_pos _ (by omega)) (nackImages s.ctr.width recs)
  have hlength := statusFixed_length s.ctr.width ack (!recs.isEmpty)
  unfold RegionHolds
  simp only [← withoutDc_toNat]
  rw [pduBytes_eq, List.length_map, ← bytesAt_zero_iff_toNat, statusImage, bytesAt_append, bytesAt_statusFixed hack,
    List.length_append, hlength, hlater, and_left_comm]

/-! ### The loop reads a list of elements -/

/-- `s` with records appended, and their bytes added to the packed size (R171, R195). -/
def extended (s : State) (recs : List NackRec) : State :=
  { s with ctr := { s.ctr with
    nacks := s.ctr.nacks ++ recs
    psize := s.ctr.psize + BitVec.ofNat 32 (nackImages s.ctr.width recs).length } }

theorem nackImages_cons_length (w : SnWidth) (r : NackRec) (t : List NackRec) :
    (nackImages w (r :: t)).length = contribution w r + (nackImages w t).length := by
  rw [nackImages, List.length_append, nackImage_length, contribution_eq_contrib]

theorem extended_nil (s : State) : extended s [] = s := by
  rw [extended, List.append_nil, nackImages, List.length_nil, BitVec.add_zero]

theorem extended_cons (s : State) (r : NackRec) (t : List NackRec) : extended (appended s r) t = extended s (r :: t) := by
  rw [extended, extended, nackImages_cons_length, BitVec.ofNat_add, ← BitVec.add_assoc, ← List.singleton_append,
    ← List.append_assoc]
  rfl

/-- From byte `q` on the region holds the elements of a record list in width, and the table has room for them. -/
structure HoldsElements (s : State) (q : Nat) (recs : List NackRec) : Prop where
  inWidth : ∀ r ∈ recs, r.sn.toNat < 2 ^ s.ctr.width.bits ∧ r.Normal
  room : s.ctr.nacks.length + recs.length ≤ s.params.nackMax
  inside : q + (nackImages s.ctr.width recs).length ≤ rgnLen s
  bytes : BytesAt (rgnByte s) q (nackImages s.ctr.width recs)

theorem holdsElements_nil {s : State} {q : Nat} :
    HoldsElements s q [] ↔ s.ctr.nacks.length ≤ s.params.nackMax ∧ q ≤ rgnLen s :=
  ⟨fun h => ⟨h.room, h.inside⟩, fun ⟨hroom, hinside⟩ =>
    ⟨fun _ h => (nomatch h), hroom, hinside, (bytesAt_nil _ _).2 trivial⟩⟩

/-- The first element is the one that a turn of the loop reads, and the others follow where the turn ends. -/
theorem holdsElements_cons {s : State} {q : Nat} {r : NackRec} {t : List NackRec} :
    HoldsElements s q (r :: t) ↔
      (¬ ReservedAt (rgnByte s) s.ctr.width q ∧ moreAt (rgnByte s) s.ctr.width q = (!t.isEmpty) ∧
          recordAt (rgnByte s) s.ctr.width q = r) ∧
        HoldsElements (appended s r) (elementEnd (rgnByte s) s.ctr.width q) t := by
  have hcount : (appended s r).ctr.nacks.length + t.length = s.ctr.nacks.length + (r :: t).length := by
    rw [appended, List.length_append, List.length_singleton, List.length_cons, Nat.add_assoc, Nat.add_comm 1]
  have hsize : q + contribution s.ctr.width r + (nackImages s.ctr.width t).length =
      q + (nackImages s.ctr.width (r :: t)).length := by
    rw [nackImages_cons_length, Nat.add_assoc]
  rw [elementEnd_eq]
  constructor
  · rintro ⟨hwidth, hroom, hinside, hbytes⟩
    obtain ⟨⟨hsn, hnormal⟩, hrest⟩ := List.forall_mem_cons.1 hwidth
    rw [nackImages, bytesAt_append, bytesAt_nackImage hsn hnormal, nackImage_length, ← contribution_eq_contrib] at hbytes
    obtain ⟨⟨hres, hmore, hrecord⟩, htail⟩ := hbytes
    rw [hrecord]
    exact ⟨⟨hres, hmore, rfl⟩, hrest, hcount.trans_le hroom, hsize.trans_le hinside, htail⟩
  · rintro ⟨⟨hres, hmore, hrecord⟩, hrest, hroom, hinside, htail⟩
    rw [hrecord] at hinside htail
    have hsn : r.sn.toNat < 2 ^ s.ctr.width.bits := hrecord ▸ snAt_lt _ _ q
    have hnormal : r.Normal := hrecord ▸ recordAt_normal _ _ q
    refine ⟨List.forall_mem_cons.2 ⟨⟨hsn, hnormal⟩, hrest⟩, hcount.ge.trans hroom, hsize.ge.trans hinside, ?_⟩
    rw [nackImages, bytesAt_append, bytesAt_nackImage hsn hnormal, nackImage_length, ← contribution_eq_contrib]
    exact ⟨⟨hres, hmore, hrecord⟩, htail⟩

theorem not_isEmpty {α : Type} {l : List α} (h : l ≠ []) : (!l.isEmpty) = true := by
  rw [List.isEmpty_eq_false_iff.2 h]
  rfl

/-- The loop appends the records whose elements the region holds, and finishes behind the last. -/
theorem decLoop_reads {s : State} {fuel q : Nat} {recs : List NackRec} (hm : Memory.wf s.params.bufSize s.buf)
    (hr : RegionOK s) (hne : recs ≠ []) (hholds : HoldsElements s q recs) (hfuel : rgnLen s < q + fuel) :
    decLoop fuel q s =
      .next (finished (extended s recs) (BitVec.ofNat 32 (q + (nackImages s.ctr.width recs).length))) := by
  induction recs generalizing s fuel q with
  | nil => exact absurd rfl hne
  | cons r t ih =>
    have hstart := Nat.le_of_add_right_le hholds.inside
    obtain ⟨⟨hres, hmore, rfl⟩, htail⟩ := holdsElements_cons.1 hholds
    have hend := Nat.le_of_add_right_le htail.inside
    have hfull : s.ctr.nacks.length ≠ s.params.nackMax := by
      have hroom := hholds.room
      rw [List.length_cons] at hroom
      omega
    have hturn : q + 2 ≤ elementEnd (rgnByte s) s.ctr.width q := by
      rw [elementEnd_eq, contribution_eq_contrib]
      exact Nat.add_le_add_left (contrib_bounds _ _).1 q
    obtain ⟨fuel, rfl⟩ : ∃ n, fuel = n + 1 := ⟨fuel - 1, by omega⟩
    rw [decLoop_of_room hm hr hres hend hfull, hmore, nackImages_cons_length, ← Nat.add_assoc, ← elementEnd_eq,
      ← extended_cons]
    cases t with
    | nil => rw [extended_nil]; rfl
    | cons r' t => exact ih (s := appended s _) hm hr (List.cons_ne_nil _ _) htail (show rgnLen s < _ by omega)

/-- A loop that completes without an error has read elements that the region holds. -/
theorem decLoop_accepts {s t : State} {fuel q : Nat} (hm : Memory.wf s.params.bufSize s.buf) (hr : RegionOK s)
    (hmax : s.ctr.nacks.length ≤ s.params.nackMax) (h : decLoop fuel q s = .next t) (hok : t.ecode = .ok) :
    ∃ recs, recs ≠ [] ∧ HoldsElements s q recs := by
  induction fuel generalizing s q with
  | zero => cases h
  | succ fuel ih =>
    rw [decLoop_succ hm hr] at h
    split_ifs at h with hq hres hend hfull hmore
    iterate 4
      cases h
      cases hok
    all_goals
      have hroom : (appended s (recordAt (rgnByte s) s.ctr.width q)).ctr.nacks.length ≤ s.params.nackMax := by
        rw [appended, List.length_append, List.length_singleton]
        omega
    · obtain ⟨recs, hne, htail⟩ := ih (s := appended s _) hm hr hroom h
      exact ⟨_ :: recs, List.cons_ne_nil _ _,
        holdsElements_cons.2 ⟨⟨hres, hmore.trans (not_isEmpty hne).symm, rfl⟩, htail⟩⟩
    · exact ⟨[_], List.cons_ne_nil _ _, holdsElements_cons.2
        ⟨⟨hres, Bool.eq_false_iff.2 hmore, rfl⟩, holdsElements_nil.2 ⟨hroom, Nat.not_lt.1 hend⟩⟩⟩

/-! ### The decoder and the reports -/

/-- What makes the region the PDU of a report that the table has room for, as `STS_DEC` reads it. -/
theorem report_iff {s : State} {ack : Word} {recs : List NackRec} :
    (InWidth s.ctr.width ack recs ∧ s.ctr.nacks.length + recs.length ≤ s.params.nackMax ∧ RegionHolds s ack recs) ↔
      (cptField (rgnByte s) = 0 ∧ fixedReserved (rgnByte s) s.ctr.width = 0 ∧
        firstE1 (rgnByte s) s.ctr.width = (!recs.isEmpty) ∧ ackField (rgnByte s) s.ctr.width = ack) ∧
      HoldsElements (ackRead s ack) 3 recs := by
  constructor
  · rintro ⟨⟨hack, hrecs⟩, hroom, hholds⟩
    obtain ⟨hfixed, hinside, hbytes⟩ := (regionHolds_iff hack).1 hholds
    exact ⟨hfixed, hrecs, hroom, hinside, hbytes⟩
  · rintro ⟨⟨hcpt, hres, he1, rfl⟩, hrecs, hroom, hinside, hbytes⟩
    have hack := ackField_lt (rgnByte s) s.ctr.width
    exact ⟨⟨hack, hrecs⟩, hroom, (regionHolds_iff hack).2 ⟨⟨hcpt, hres, he1, rfl⟩, hinside, hbytes⟩⟩

/-- The state after the decode of a report, in the loop's terms. -/
theorem decoded_eq (s : State) (ack : Word) (recs : List NackRec) :
    decoded s ack recs = finished (extended (ackRead s ack) recs)
      (BitVec.ofNat 32 (3 + (nackImages s.ctr.width recs).length)) := by
  have hlength : (pduBytes s.ctr.width ack.toNat recs).length = 3 + (nackImages s.ctr.width recs).length := by
    rw [pduBytes_length, ← nackImages_length, Nat.add_comm]
  rw [decoded, hlength, Nat.add_sub_cancel_left]
  rfl

/-- Settles O38: the fixed part is read as the report's, and then the loop reads its elements, if there are any. -/
theorem stsDecReadsEveryReport : Obligations.StsDecReadsEveryReport := by
  intro s ack recs hs hr hwidth hroom hholds
  obtain ⟨⟨hcpt, hres, he1, rfl⟩, helements⟩ := report_iff.1 ⟨hwidth, hroom, hholds⟩
  have hm := hs.buf_wf
  have hthree : 3 ≤ rgnLen s := Nat.le_of_add_right_le helements.inside
  rw [decoded_eq]
  by_cases hne : recs = []
  · subst hne
    rw [extended_nil]
    exact execStsDec_of_not_e1 hm hr hcpt hthree hres he1
  · exact (execStsDec_of_e1 hm hr hcpt hthree hres (he1.trans (not_isEmpty hne))).trans
      (decLoop_reads (s := ackRead s _) hm hr hne helements (Nat.lt_add_of_pos_left (by decide)))

/-- A decode that completes without an error has the PDU of a report before it. -/
theorem execStsDec_accepts {s t : State} (hs : s.Inv) (h : execStsDec s = .next t) (hok : t.ecode = .ok) :
    RegionOK s ∧ ∃ ack recs, InWidth s.ctr.width ack recs ∧ s.ctr.nacks.length + recs.length ≤ s.params.nackMax ∧
      RegionHolds s ack recs := by
  have hm := hs.buf_wf
  obtain ⟨hmax, -⟩ := hs.container
  by_cases hr : RegionOK s
  swap
  · cases h.symm.trans (execStsDec_region hr)
    cases hok
  by_cases hlen : rgnLen s = 0
  · cases h.symm.trans (execStsDec_empty hr hlen)
    cases hok
  rw [execStsDec_nonempty hm hr (Nat.one_le_iff_ne_zero.2 hlen)] at h
  split_ifs at h with hcpt hack hthree hres he1
  iterate 4
    cases h
    cases hok
  all_goals
    rw [not_not] at hcpt hres
    refine ⟨hr, ackField (rgnByte s) s.ctr.width, ?_⟩
  · obtain ⟨recs, hne, hholds⟩ := decLoop_accepts (s := ackRead s _) hm hr hmax h hok
    exact ⟨recs, report_iff.2 ⟨⟨hcpt, hres, he1.trans (not_isEmpty hne).symm, rfl⟩, hholds⟩⟩
  · exact ⟨[], report_iff.2
      ⟨⟨hcpt, hres, Bool.eq_false_iff.2 he1, rfl⟩, holdsElements_nil.2 ⟨hmax, Nat.not_lt.1 hthree⟩⟩⟩

/-- Settles O39: the bytes before an accepted decode are a report's, and `stsDecReadsEveryReport` gives the state after it. -/
theorem stsDecAcceptsOnlyReports : Obligations.StsDecAcceptsOnlyReports := by
  intro s t hs h hok
  obtain ⟨hr, ack, recs, hwidth, hroom, hholds⟩ := execStsDec_accepts hs h hok
  have hdecoded := stsDecReadsEveryReport s ack recs hs hr hwidth hroom hholds
  exact ⟨hr, ack, recs, hwidth, hroom, hholds, Host.Outcome.next.inj (h.symm.trans hdecoded)⟩

/-! ### Encode, reset, decode (R203) -/

/-- The image has D/C and CPT 0, so its first byte is small (R201). -/
theorem pduBytes_first_lt (w : SnWidth) (ack : Nat) (recs : List NackRec) : (pduBytes w ack recs).getD 0 0 < 128 := by
  cases w <;> exact (Nat.mod_lt _ (by decide)).trans (by decide)

/-- A region at whose start a report's image was written holds the report. -/
theorem regionHolds_of_written {u : State} {m : List Host.Cell} {ack : Word} {recs : List NackRec}
    (hwrite : writeBytes m u.rgnStart.toNat (statusImage u.ctr.width ack recs) = some u.buf)
    (hlen : packedSize u.ctr.width recs ≤ rgnLen u) : RegionHolds u ack recs := by
  have hbytes : BytesAt (rgnByte u) 0 (statusImage u.ctr.width ack recs) := fun j x hx => by
    simp only [Nat.zero_add]
    rw [rgnByte, bufByte, memRead_writeBytes hwrite hx]
    rfl
  refine ⟨(pduBytes_length _ _ _).trans_le hlen, fun j hj => ?_⟩
  rw [pduBytes_eq, List.length_map] at hj
  have hnumber := (bytesAt_zero_iff_toNat _ _).1 hbytes j hj
  rw [← pduBytes_eq] at hnumber
  have hfirst := pduBytes_first_lt u.ctr.width ack.toNat recs
  by_cases hzero : j = 0
  · subst hzero
    rw [if_pos rfl, hnumber, Nat.mod_eq_of_lt hfirst]
  · rw [if_neg hzero, Nat.mod_eq_of_lt (BitVec.isLt _), hnumber]

/-- A PDU that fits ends where the sum of the registers says, without wrapping (R6). -/
theorem rgnStart_add_psize_toNat {s : State} (hs : s.Inv)
    (hfit : s.rgnStart.toNat + s.ctr.psize.toNat ≤ s.params.bufSize) :
    (s.rgnStart + s.ctr.psize).toNat = s.rgnStart.toNat + s.ctr.psize.toNat := by
  obtain ⟨⟨-, hbuf, -⟩, -⟩ := hs
  rw [BitVec.toNat_add]
  omega

/-- Settles O41: `STS_ENC` leaves the report's image in the region, which `stsDecReadsEveryReport` reads into the container
that `STS_RST` emptied. -/
theorem statusRoundTrip : Obligations.StatusRoundTrip := by
  intro s hs hr hfit hwidth
  obtain ⟨hmax, hsize, -, -⟩ := hs.container
  obtain ⟨hthree, -⟩ := hs.container.psize_bounds
  have hlength := pduBytes_length_of_inv hs
  have hend := rgnStart_add_psize_toNat hs hfit
  obtain ⟨m, hwrite, henc⟩ := execStsEnc_fits hs hr hfit
  obtain ⟨u, hrst⟩ : ∃ u, exec .stsRst (finished { s with buf := m, rgnEnd := s.rgnStart + s.ctr.psize } s.ctr.psize) =
    .next u := ⟨_, rfl⟩
  have hu : u.Inv := exec_keeps_inv (exec_keeps_inv (i := .stsEnc) hs henc) hrst
  obtain rfl := execStsRst_cases hrst
  have hregion : s.rgnStart.toNat ≤ (s.rgnStart + s.ctr.psize).toNat ∧
      (s.rgnStart + s.ctr.psize).toNat ≤ s.params.bufSize := by omega
  have hfits : packedSize s.ctr.width s.ctr.nacks ≤ (s.rgnStart + s.ctr.psize).toNat - s.rgnStart.toNat := by omega
  have hroom : 0 + s.ctr.nacks.length ≤ s.params.nackMax := by omega
  have hdec := stsDecReadsEveryReport _ _ _ hu hregion hwidth hroom (regionHolds_of_written hwrite hfits)
  refine ⟨_, _, _, henc, rfl, hrst, hdec, rfl, ?_, rfl, rfl, ?_⟩
  · exact (congrArg (BitVec.ofNat 32) hlength).trans (ofNat_toNat_self _)
  · refine (congrArg (fun n => BitVec.ofNat 32 3 + BitVec.ofNat 32 (n - 3)) hlength).trans ?_
    rw [← BitVec.ofNat_add, Nat.add_sub_cancel' hthree, ofNat_toNat_self]

end Sys2Proof.Machine
end

section
/-! PROOFS. The life of a command (44_control.md, R230-R233): how it starts, that it runs to its completion, what it writes
when it fails, and that a script of host events ends with the engine idle. -/

open Sys2Proof.Claims

namespace Sys2Proof.Machine

/-! ### Completion -/

theorem CommandFrame.idle {i : Instr} {s t : State} (h : CommandFrame i s t) : t.busy = false := by rw [h.rest]

theorem CommandFrame.done {i : Instr} {s t : State} (h : CommandFrame i s t) : t.done = true := by rw [h.rest]

theorem CommandFrame.inputs {i : Instr} {s t : State} (h : CommandFrame i s t) : t.inputs = s.inputs := by rw [h.rest]

/-- Settles O8: a command of a state with the invariant answers, and its frame says how it completes. -/
theorem everyCommandCompletes : Obligations.EveryCommandCompletes := by
  intro i s hs
  obtain ⟨t, ht⟩ := exec_answers hs i
  have hframe := exec_frame ht
  exact ⟨t, ht, hframe.idle, hframe.done, hframe.errorResult⟩

/-- Settles O9: the word is the encoder's, and `NOP` runs to its completion by definition. -/
theorem nopFinishes : Obligations.NopFinishes := ⟨hasWord_encode rfl, fun _ => rfl⟩

/-! ### What a failed command wrote -/

/-- Every command but `STS_DEC` raises its error from the state it started in, before it writes anything; or it finishes. -/
theorem exec_raises_or_finishes {i : Instr} {s t : State} (h : exec i s = .next t) (hi : i ≠ .stsDec) :
    (∃ e, t = s.complete e 0) ∨ ∃ u v, t = State.complete u .ok v := by
  cases i with
  | nop => exact .inr ⟨_, _, (finish_eq_next _ _ _).1 h⟩
  | hdrRd => exact (execHdrRd_cases h).imp (fun ⟨e, _, he⟩ => ⟨e, he⟩) fun ⟨_, _, hok⟩ => ⟨_, _, hok⟩
  | hdrLen => exact (execHdrLen_cases h).imp (fun he => ⟨_, he⟩) fun ⟨_, _, hok⟩ => ⟨_, _, hok⟩
  | hdrWr => exact (execHdrWr_cases h).imp (fun ⟨e, _, he⟩ => ⟨e, he⟩) fun ⟨_, _, _, _, hok⟩ => ⟨_, _, hok⟩
  | hdrWrp => exact (execHdrWrp_cases h).imp (fun ⟨e, _, he⟩ => ⟨e, he⟩) fun ⟨_, _, _, _, _, _, hok⟩ => ⟨_, _, hok⟩
  | stsInit => exact (execStsInit_cases h).imp (fun he => ⟨_, he⟩) fun ⟨_, _, hok⟩ => ⟨_, _, hok⟩
  | stsRst => exact .inr ⟨_, _, execStsRst_cases h⟩
  | stsPush => exact (execStsPush_cases h).imp (fun he => ⟨_, he⟩) fun ⟨_, _, hok⟩ => ⟨_, _, hok⟩
  | stsRefresh => exact .inr ⟨_, _, execStsRefresh_cases h⟩
  | stsDec => exact absurd rfl hi
  | stsEnc => exact (execStsEnc_cases h).imp (fun ⟨e, _, he⟩ => ⟨e, he⟩) fun ⟨_, _, _, hok⟩ => ⟨_, _, hok⟩
  | bfGet width rel => exact (execBfGet_cases h).imp (fun ⟨e, _, he⟩ => ⟨e, he⟩) fun ⟨_, hok⟩ => ⟨_, _, hok⟩
  | bfPut width rel => exact (execBfPut_cases h).imp (fun ⟨e, _, he⟩ => ⟨e, he⟩) fun ⟨_, _, _, hok⟩ => ⟨_, _, hok⟩

/-- Settles O45: with an error the command did not finish, so it raised from the state it started in. -/
theorem errorsWriteNothing : Obligations.ErrorsWriteNothing := by
  intro i s t h herr hi
  rcases exec_raises_or_finishes h hi with ⟨e, rfl⟩ | ⟨u, v, rfl⟩
  · rfl
  · exact absurd rfl herr

/-! ### The engine's turn -/

theorem engineTurn_busy {s : State} {i : Instr} (hb : s.busy = true) (hi : decode s.cmd = .ok i) :
    engineTurn s = exec i s := by
  rw [engineTurn, if_pos hb, engineStep, hi]

theorem engineTurn_idle {s : State} (hb : s.busy = false) : engineTurn s = .next s :=
  if_neg (ne_true_of_eq_false hb)

/-- Settles O5, by the engine: busy or idle, on a silent host's turn and on a scripted one. -/
theorem stepRunsTheDecodedCommand : Obligations.StepRunsTheDecodedCommand := by
  refine fun s => ⟨fun i hb hi => ⟨fun hsilent => ?_, fun rest hturn => ?_⟩,
    fun hb => ⟨fun hsilent => ?_, fun rest hturn => ?_⟩⟩
  · rw [step_silent hsilent, engineTurn_busy hb hi]
  · rw [step_engine hturn]
    exact engineTurn_busy (s := s.withInputs rest) hb hi
  · rw [step_silent hsilent, engineTurn_idle hb]
  · rw [step_engine hturn]
    exact engineTurn_idle (s := s.withInputs rest) hb

/-- A turn of the engine ends idle, with the script as it was (R231, R232). -/
theorem engineTurn_ends_idle {s t : State} (h : engineTurn s = .next t) : t.busy = false ∧ t.inputs = s.inputs := by
  rcases engineTurn_cases h with ⟨hb, rfl⟩ | ⟨-, i, -, hexec⟩ | ⟨-, -, rfl⟩
  · exact ⟨hb, rfl⟩
  · have hframe := exec_frame hexec
    exact ⟨hframe.idle, hframe.inputs⟩
  · exact ⟨rfl, rfl⟩

/-! ### The start of a command -/

/-- A write to `CMD` of a busy block is dropped (R66, R230). -/
theorem step_write_cmd_busy {s : State} {c : Word} {rest : List Event} (hb : s.busy = true)
    (h : HostNext s (.write 32 (s.params.base + 4) c) rest) :
    step s = .next ((s.withInputs rest).dropWrite.withResponse .accepted) := by
  rw [step_write h (by decide) (targetOf_reg _ .cmd), busWrite_busy (s := s.withInputs rest) hb (by decide)]
  rfl

/-- A read of `RESULT` of a busy block draws a free word (R66, R230). -/
theorem step_read_result_busy {s : State} {rest : List Event} (hb : s.busy = true)
    (h : HostNext s (.read 32 (s.params.base + 0xC)) rest) :
    step s = .next ((s.withInputs rest).drawn.withResponse (.word (Config.busyWord s.freeCtr))) := by
  rw [step_read h (by decide) (targetOf_reg _ .result), busRead_busy_reg (s := s.withInputs rest) hb (by decide)]
  rfl

/-- Settles O7: a write to `CMD` of an idle block, one of a busy block, a read of `RESULT` of a busy block. -/
theorem commandStart : Obligations.CommandStart := fun _ _ _ =>
  ⟨fun hwrite => ⟨fun hb => step_write_cmd hb hwrite, fun hb => ⟨_, step_write_cmd_busy hb hwrite, rfl⟩⟩,
    fun hread hb => ⟨_, _, step_read_result_busy hb hread, rfl, rfl⟩⟩

/-! ### A script of host events ends -/

theorem hostEffect_keeps_inputs {s u : State} (h : HostEffect s u) : u.inputs = s.inputs := by
  cases h with
  | register r v _ => exact writeReg_inputs _ r v
  | _ => rfl

/-- Every step uses up the first event of the script, if there is one. -/
theorem step_inputs {s t : State} (h : step s = .next t) : t.inputs = s.inputs.tail := by
  rcases step_cases h with ⟨hi, h⟩ | ⟨rest, hi, h⟩ | ⟨a, rest, hi, u, r, heff, rfl⟩ | ⟨rest, hi, rfl⟩ <;> rw [hi]
  · exact (engineTurn_ends_idle h).2.trans hi
  · exact (engineTurn_ends_idle h).2
  · exact hostEffect_keeps_inputs heff
  · rfl

/-- Settles O16, by induction on the script: no step of it stops, and the step after its last event is the engine's. -/
theorem scriptsEndIdle : Obligations.ScriptsEndIdle := by
  intro s hs
  induction hscript : s.inputs generalizing s with
  | nil =>
    obtain ⟨t, ht⟩ := noStepStops s hs
    have ⟨hidle, hinputs⟩ := engineTurn_ends_idle ((step_silent hscript).symm.trans ht)
    exact ⟨t, run_succ 0 ht, hinputs.trans hscript, hidle⟩
  | cons e rest ih =>
    obtain ⟨u, hu⟩ := noStepStops s hs
    have hrest : u.inputs = rest := by rw [step_inputs hu, hscript, List.tail_cons]
    obtain ⟨t, hrun, hend⟩ := ih u (step_keeps_inv hs hu) hrest
    exact ⟨t, (run_succ _ hu).trans hrun, hend⟩

end Sys2Proof.Machine
end

section
/-! PROOFS. Errors and the completion interrupt (60_exceptions.md): what an illegal word does (R263), which command completes
with which code (R260), what raises and what lowers the interrupt (R268). -/

open Sys2Proof.Claims

namespace Sys2Proof.Machine

/-! ### An illegal word -/

/-- Settles O6, by the engine's turn on an illegal word, for a silent host and for a scripted turn. -/
theorem illegalWordCompletesIllegal : Obligations.IllegalWordCompletesIllegal := by
  refine ⟨rfl, fun s why hb hi => ⟨fun hsilent => ?_, fun rest hturn => ?_⟩⟩
  · rw [step_silent hsilent]
    exact engineTurn_illegal hb hi
  · rw [step_engine hturn]
    exact engineTurn_illegal (s := s.withInputs rest) hb hi

/-! ### The codes of each command -/

/-- Every command has a way to succeed. -/
theorem ok_mem_codesOf (i : Instr) : .ok ∈ codesOf i := by cases i <;> exact List.mem_cons_self

theorem ecode_mem_of_finished {i : Instr} {u t : State} {v : Word} (h : t = u.complete .ok v) : t.ecode ∈ codesOf i := by
  rw [h]
  exact ok_mem_codesOf i

theorem ecode_mem_of_raised {i : Instr} {e : ErrCode} {u t : State} (he : e ∈ codesOf i) (h : t = u.complete e 0) :
    t.ecode ∈ codesOf i := by
  rw [h]
  exact he

theorem ecode_mem_of_raised_one_of {i : Instr} {l : List ErrCode} {u t : State} (hl : l ⊆ codesOf i)
    (h : ∃ e ∈ l, t = u.complete e 0) : t.ecode ∈ codesOf i := by
  obtain ⟨e, he, h⟩ := h
  exact ecode_mem_of_raised (hl he) h

theorem execStsDec_ecode_mem {s t : State} (h : execStsDec s = .next t) : t.ecode ∈ codesOf .stsDec := by
  rcases execStsDec_cases h with ⟨-, hregion⟩ | ⟨-, _, _, _, -, -, ⟨-, -, hok⟩ | ⟨-, hfail⟩⟩
  · exact ecode_mem_of_raised (by simp [codesOf]) hregion
  · exact ecode_mem_of_finished hok
  · exact ecode_mem_of_raised_one_of (by simp [codesOf]) hfail

/-- A command completes with one of its codes, from any state (R260, the column "Raised by"). -/
theorem exec_ecode_mem {i : Instr} {s t : State} (h : exec i s = .next t) : t.ecode ∈ codesOf i := by
  cases i with
  | nop => exact ecode_mem_of_finished ((finish_eq_next _ _ _).1 h)
  | hdrRd =>
    rcases execHdrRd_cases h with herr | ⟨_, _, hok⟩
    · exact ecode_mem_of_raised_one_of (by simp [codesOf]) herr
    · exact ecode_mem_of_finished hok
  | hdrLen =>
    rcases execHdrLen_cases h with herr | ⟨_, -, hok⟩
    · exact ecode_mem_of_raised (by simp [codesOf]) herr
    · exact ecode_mem_of_finished hok
  | hdrWr =>
    rcases execHdrWr_cases h with herr | ⟨_, _, -, -, hok⟩
    · exact ecode_mem_of_raised_one_of (by simp [codesOf]) herr
    · exact ecode_mem_of_finished hok
  | hdrWrp =>
    rcases execHdrWrp_cases h with herr | ⟨_, _, -, -, -, -, hok⟩
    · exact ecode_mem_of_raised_one_of (by simp [codesOf]) herr
    · exact ecode_mem_of_finished hok
  | stsInit =>
    rcases execStsInit_cases h with herr | ⟨_, -, hok⟩
    · exact ecode_mem_of_raised (by simp [codesOf]) herr
    · exact ecode_mem_of_finished hok
  | stsRst => exact ecode_mem_of_finished (execStsRst_cases h)
  | stsPush =>
    rcases execStsPush_cases h with herr | ⟨_, -, hok⟩
    · exact ecode_mem_of_raised (by simp [codesOf]) herr
    · exact ecode_mem_of_finished hok
  | stsRefresh => exact ecode_mem_of_finished (execStsRefresh_cases h)
  | stsDec => exact execStsDec_ecode_mem h
  | stsEnc =>
    rcases execStsEnc_cases h with herr | ⟨_, -, -, hok⟩
    · exact ecode_mem_of_raised_one_of (by simp [codesOf]) herr
    · exact ecode_mem_of_finished hok
  | bfGet width rel =>
    rcases execBfGet_cases h with herr | ⟨_, hok⟩
    · exact ecode_mem_of_raised_one_of (by simp [codesOf]) herr
    · exact ecode_mem_of_finished hok
  | bfPut width rel =>
    rcases execBfPut_cases h with herr | ⟨_, _, -, hok⟩
    · exact ecode_mem_of_raised_one_of (by simp [codesOf]) herr
    · exact ecode_mem_of_finished hok

/-- Settles O10: the numbers by definition, the commands by their codes, an illegal word by its completion. -/
theorem errorCodesOfEachCommand : Obligations.ErrorCodesOfEachCommand := by
  refine ⟨⟨rfl, rfl, rfl, rfl, rfl, rfl, rfl, rfl, rfl, rfl⟩, fun e => by cases e <;> decide,
    fun i s t => exec_ecode_mem, fun s t why hb hsilent hi h => ?_⟩
  rw [step_silent hsilent, engineTurn_illegal hb hi] at h
  cases h
  rfl

/-! ### The completion interrupt -/

theorem irq_iff (s : State) : s.irq = true ↔ s.done = true ∧ s.irqEn = true := Bool.and_eq_true_iff

theorem irq_of_done {s : State} (h : s.done = true) : s.irq = s.irqEn := by rw [State.irq, h, Bool.true_and]

theorem irq_of_not_done {s : State} (h : s.done = false) : s.irq = false := by rw [State.irq, h, Bool.false_and]

theorem irq_of_not_enabled {s : State} (h : s.irqEn = false) : s.irq = false := by rw [State.irq, h, Bool.and_false]

theorem CommandFrame.irqEn {i : Instr} {s t : State} (h : CommandFrame i s t) : t.irqEn = s.irqEn := by rw [h.rest]

/-- A turn of a busy engine is a completion: DONE is set, of a command or of an illegal word, and IRQ_EN kept (R232, R263). -/
theorem engineTurn_completes {s t : State} (hb : s.busy = true) (h : engineTurn s = .next t) :
    t.done = true ∧ t.irqEn = s.irqEn := by
  rcases engineTurn_cases h with ⟨hidle, -⟩ | ⟨-, i, -, hexec⟩ | ⟨-, -, rfl⟩
  · rw [hidle] at hb
    cases hb
  · have hframe := exec_frame hexec
    exact ⟨hframe.done, hframe.irqEn⟩
  · exact ⟨rfl, rfl⟩

/-- Acknowledging: a 1 written to bit 1 clears DONE (R23). -/
theorem clearSticky_done_of_set (s : State) {v : Word} (h : v.getLsbD 1 = true) : (s.clearSticky v).done = false := by
  rw [State.clearSticky, h, Bool.not_true, Bool.and_false]

/-- Settles O11: DONE is set by every completion, and cleared by its acknowledgement and by the next start; IRQ_EN is bit 8
of `CFG`. -/
theorem completionInterrupt : Obligations.CompletionInterrupt := by
  refine ⟨irq_iff, fun s t hb h => ?_, fun s v rest hb hv h => ?_, fun s c rest hb h => ?_, fun s v rest hb hv h => ?_⟩
  · obtain ⟨hdone, hen⟩ := engineTurn_completes hb h
    exact ⟨hen, (irq_of_done hdone).trans hen⟩
  · exact ⟨_, step_write_reg hb .status h, irq_of_not_done (clearSticky_done_of_set (s.withInputs rest) hv)⟩
  · exact ⟨_, step_write_reg hb .cmd h, irq_of_not_done rfl⟩
  · exact ⟨_, step_write_reg hb .cfg h, irq_of_not_enabled hv, rfl⟩

end Sys2Proof.Machine
end

section
/-! PROOFS. Reset (70_reset_and_hazards.md, R300, R301): what a scripted reset leaves in the registers, the NACK window, `BUF`
and the container, whatever was running; and the invariant at the first reset. -/

open Sys2Proof.Claims

namespace Sys2Proof.Machine

/-! ### The reset step -/

theorem step_reset {s : State} {rest : List Event} (h : s.inputs = .reset :: rest) :
    step s = .next (State.resetWith s.params s.freeCtr rest) := by
  unfold step; rw [h]

/-! ### What reset leaves -/

/-- Every register is a constant, so the map evaluates to the column 'Reset' of 10_state.md section 2 (R301). -/
theorem registerMap_resetWith (p : Params) (n : Nat) (rest : List Event) :
    registerMap (State.resetWith p n rest) = resetMap := rfl

/-- Entries at or beyond N read 0 (R41). -/
theorem readNack_of_length_le {s : State} {entry : Nat} (h : s.ctr.nacks.length ≤ entry) (word : Nat) :
    readNack s entry word = 0 := by
  rw [readNack, List.getElem?_eq_none h]

theorem memRead_resetWith_isSome (p : Params) (n : Nat) (rest : List Event) (a : Nat) :
    (memRead (State.resetWith p n rest).buf a).isSome ↔ a < p.bufSize :=
  memRead_isSome_of_wf (freshBuf_wf p.bufSize n) a

/-- `STS_INIT` with `CFG.SN_SIZE` a supported width leaves that width's fresh container, whatever the state was (R172). -/
theorem ctr_of_execStsInit {u v : State} {w : SnWidth} (hw : u.snSize = w.code) (h : execStsInit u = .next v) :
    v.ctr = Container.fresh w := by
  rw [execStsInit_supported hw] at h
  cases h
  rfl

/-- Settles O12: a scripted reset answers the reset state, whose parts are the constants of R300 and R301, an empty NACK table,
a `BUF` in its canonical form and the 12-bit container of `STS_INIT`. -/
theorem resetState : Obligations.ResetState := by
  intro s rest h
  have hnacks (entry word : Nat) : readNack (State.resetWith s.params s.freeCtr rest) entry word = 0 :=
    readNack_of_length_le (Nat.zero_le entry) word
  have hctr (u v : State) (hu : u.snSize = 0) (hv : exec .stsInit u = .next v) :
      v.ctr = (State.resetWith s.params s.freeCtr rest).ctr :=
    ctr_of_execStsInit (w := .w12) hu hv
  exact ⟨_, step_reset h, registerMap_resetWith _ _ _, rfl, irq_of_not_done rfl, hnacks,
    memRead_resetWith_isSome _ _ _, hctr, rfl, rfl⟩

/-! ### The invariant at reset -/

theorem defaultParams_valid : Config.defaultParams.Valid := by decide

/-- Settles O13: reset establishes the invariant for any valid parameters, and the model's own are valid. -/
theorem invHoldsAtReset : Obligations.InvHoldsAtReset := resetWith_inv defaultParams_valid 0 []

end Sys2Proof.Machine
end
